-- ==== Sys2Proof/Word.lean ====
section
/-! DEFINITION. The widths the PCM gain amplifier works with: bytes of buffer memory, 32-bit registers
(`10_state.md` R27), 31-bit window counts (R22, R24) and the 37-bit transaction word (`30_encoding.md` R76). -/

namespace Sys2Proof

/-- One byte of buffer memory (R50). -/
abbrev Byte := BitVec 8

/-- One host register, and one binary32 pattern (R13, R27). -/
abbrev Word := BitVec 32

/-- A 16-bit sample pattern (R15). -/
abbrev Half := BitVec 16

/-- A number of windows: the width of IDX and W_NWIN (R22, R24). -/
abbrev WinCount := BitVec 31

/-- A host transaction as one word, format H (R76). -/
abbrev TransWord := BitVec 37

end Sys2Proof
end

