-- ==== Sys2Proof/Config.lean ====
section
/-! DEFINITION. What the platform fixes and the spec leaves to a parameter (`00_scope.md` R12, `10_state.md` R47): the
address width AW and the predicate MemOK. Both are plain data, so that every claim ranges over every platform.
HOST_BUS and T_WINDOW are the spec's two other open parameters; no rule reads them and the model omits them (U15). -/

namespace Sys2Proof

/-- The `kind` argument of MemOK (R73). -/
inductive AccessKind where
  | read
  | write
  deriving DecidableEq, Repr

/-- The platform refuses accesses of one kind at the addresses `first` to `last`, both included (R73). -/
structure Denial where
  kind  : AccessKind
  first : Nat
  last  : Nat
  deriving DecidableEq, Repr

/-- The parameters of the step relation (R12, R47). `aw` is AW, from 1 to 32 on the hardware. `denied` lists where MemOK is false below `2^AW`:
the address space is finite, so a list of ranges can be any predicate over (address, kind) (DESIGN CHOICE, log entry 5). -/
structure Config where
  aw     : Nat
  denied : List Denial
  deriving DecidableEq, Repr

/-- The default platform of R12: AW is 32 and MemOK is true at every address below `2^AW`. -/
def defaultPlatform : Config := { aw := 32, denied := [] }

end Sys2Proof
end

