-- ==== Sys2Proof/Syntax.lean ====
section
/-! DEFINITION. The instructions: the 19 host transactions, one constructor per row of `spec/opcode_table.json`
(`30_encoding.md` R89, `40_host_transactions.md`, `41_apply_command.md`). A read has no operand, because the hardware
ignores its wdata (R76). Beside them stand the assembler's lines and pseudo-instructions (R86, R87). -/

namespace Sys2Proof

/-- A host transaction. -/
inductive Instr where
  /-- RD_BUF_BASE (R96). -/
  | rdBufBase
  /-- WR_BUF_BASE: the byte address (R97). -/
  | wrBufBase (wdata : Word)
  /-- RD_BUF_LEN (R98). -/
  | rdBufLen
  /-- WR_BUF_LEN: the length in bytes (R99). -/
  | wrBufLen (wdata : Word)
  /-- RD_GAIN (R100). -/
  | rdGain
  /-- WR_GAIN: the binary32 pattern of the multiplier (R101). -/
  | wrGain (wdata : Word)
  /-- RD_CTRL (R102). -/
  | rdCtrl
  /-- WR_CTRL: bit 0 is BUF_VALID (R103). -/
  | wrCtrl (wdata : Word)
  /-- RD_CMD (R104). -/
  | rdCmd
  /-- APPLY: the write of the command word 0x00000001 to CMD (R120). -/
  | apply
  /-- WR_CMD_RESERVED: the write of any other command word to CMD (R81, R105). -/
  | wrCmdReserved (wdata : Word)
  /-- RD_STATUS (R106). -/
  | rdStatus
  /-- WR_STATUS: bits 3:1 are the clear mask (R107). -/
  | wrStatus (wdata : Word)
  /-- RD_PROGRESS (R108). -/
  | rdProgress
  /-- WR_PROGRESS: wdata is ignored (R109). -/
  | wrProgress (wdata : Word)
  /-- RD_RSVD_7 (R110). -/
  | rdRsvd7
  /-- RD_RSVD_8_15: the reserved number read, bit 3 set (R110). -/
  | rdRsvd8to15 (rn : BitVec 4)
  /-- WR_RSVD_7: wdata is ignored (R111). -/
  | wrRsvd7 (wdata : Word)
  /-- WR_RSVD_8_15: the reserved number written, bit 3 set; wdata is ignored (R111). -/
  | wrRsvd8to15 (rn : BitVec 4) (wdata : Word)
  deriving DecidableEq, Repr

/-- The register names of the host port (R27, R86). `reserved` takes a register number from 7 to 15. -/
inductive Reg where
  | bufBase
  | bufLen
  | gain
  | ctrl
  | cmd
  | status
  | progress
  | reserved (rn : BitVec 4)
  deriving DecidableEq, Repr

/-- One line of a host program in the spec's assembler (R86). -/
inductive AsmLine where
  | rd (reg : Reg)
  | wr (reg : Reg) (imm : Word)
  deriving DecidableEq, Repr

/-- The pseudo-instructions that have a fixed expansion (R87). `wait` is a loop of the host and has none. -/
inductive Pseudo where
  | apply
  | setbuf (base len : Word)
  | nobuf
  | setgain (pattern : Word)
  | ack
  deriving DecidableEq, Repr

end Sys2Proof
end

