-- ==== Sys2Proof/WellFormed.lean ====
section
/-! DEFINITION. Which terms of `Instr` are transactions of the opcode table: the two rows for register numbers 8 to 15
hold a number with bit 3 set, and the row of the reserved command words never holds the word of APPLY (R80, R89). -/

namespace Sys2Proof

/-- The command word of APPLY (R80). -/
def applyWord : Word := 0x00000001#32

/-- The checks on an instruction's fields. -/
def Instr.wellFormed : Instr → Bool
  | .rdBufBase => true
  | .wrBufBase _ => true
  | .rdBufLen => true
  | .wrBufLen _ => true
  | .rdGain => true
  | .wrGain _ => true
  | .rdCtrl => true
  | .wrCtrl _ => true
  | .rdCmd => true
  | .apply => true
  | .wrCmdReserved wdata => wdata != applyWord
  | .rdStatus => true
  | .wrStatus _ => true
  | .rdProgress => true
  | .wrProgress _ => true
  | .rdRsvd7 => true
  | .rdRsvd8to15 rn => rn.getLsbD 3
  | .wrRsvd7 _ => true
  | .wrRsvd8to15 rn _ => rn.getLsbD 3

/-- The instruction is one the decoder can give. -/
abbrev Instr.WellFormed (i : Instr) : Prop := i.wellFormed = true

/-- A register name stands for a register: a reserved one has a number from 7 to 15 (R40, R86). -/
def Reg.wellFormed : Reg → Bool
  | .reserved rn => decide (7 ≤ rn.toNat)
  | .bufBase | .bufLen | .gain | .ctrl | .cmd | .status | .progress => true

/-- The register name is one of R86's. -/
abbrev Reg.WellFormed (r : Reg) : Prop := r.wellFormed = true

end Sys2Proof
end

