-- ==== Sys2Proof/Decode.lean ====
section
/-! DEFINITION. Format H, the 37-bit transaction word: its decoder, its encoder, the opcode table as rows of match and
mask, and the assembler (`30_encoding.md` R75 to R89). The decoder is total (R77, R84). -/

namespace Sys2Proof

/-! ## The fields of a transaction word (R76) -/

/-- Bit 36: 1 is a write, 0 a read. -/
def twWe (tw : TransWord) : Bool := tw.getLsbD 36

/-- Bits 35:32: the register number. -/
def twRn (tw : TransWord) : BitVec 4 := tw.extractLsb' 32 4

/-- Bits 31:0: the data of a write. -/
def twWdata (tw : TransWord) : Word := tw.extractLsb' 0 32

/-- The transaction word with these three fields. -/
def mkTransWord (we : Bool) (rn : BitVec 4) (wdata : Word) : TransWord :=
  (BitVec.ofBool we ++ rn) ++ wdata

/-! ## Decoding (R77) -/

/-- The read transaction of a register number; wdata plays no part (R76). -/
def decodeRead (rn : BitVec 4) : Instr :=
  match rn.toNat with
  | 0 => .rdBufBase
  | 1 => .rdBufLen
  | 2 => .rdGain
  | 3 => .rdCtrl
  | 4 => .rdCmd
  | 5 => .rdStatus
  | 6 => .rdProgress
  | 7 => .rdRsvd7
  | _ => .rdRsvd8to15 rn

/-- The write transaction of a register number. A write to CMD is APPLY for the one assigned command word, else
the reserved row (R79, R80, R89). -/
def decodeWrite (rn : BitVec 4) (wdata : Word) : Instr :=
  match rn.toNat with
  | 0 => .wrBufBase wdata
  | 1 => .wrBufLen wdata
  | 2 => .wrGain wdata
  | 3 => .wrCtrl wdata
  | 4 => if wdata = applyWord then .apply else .wrCmdReserved wdata
  | 5 => .wrStatus wdata
  | 6 => .wrProgress wdata
  | 7 => .wrRsvd7 wdata
  | _ => .wrRsvd8to15 rn wdata

/-- The instruction of a transaction word: every one of the 2^37 words selects exactly one (R77). -/
def decode (tw : TransWord) : Instr :=
  if twWe tw then decodeWrite (twRn tw) (twWdata tw) else decodeRead (twRn tw)

/-! ## Decoding bytes -/

/-- Why a string of bytes is not a transaction word (R76: what does not form one is outside the spec). -/
inductive DecodeReject where
  /-- It does not have five bytes, the least whole number that holds 37 bits. -/
  | wrongLength
  /-- One of the bits 39:37 is set, so the value is no 37-bit word. -/
  | bitsAboveWord
  deriving DecidableEq, Repr

/-- The number a string of bytes stands for, the first byte least significant (DESIGN CHOICE, log entry 2). -/
def natOfBytes : List Byte → Nat
  | [] => 0
  | b :: bs => b.toNat + 256 * natOfBytes bs

/-- The `n` bytes of a number, the least significant first. -/
def bytesOfNat : Nat → Nat → List Byte
  | 0, _ => []
  | n + 1, v => BitVec.ofNat 8 v :: bytesOfNat n (v / 256)

/-- A number read as a transaction word, refused by name above 37 bits. -/
def transWordOfNat (w : Nat) : Except DecodeReject TransWord :=
  if w < 2 ^ 37 then .ok (BitVec.ofNat 37 w) else .error .bitsAboveWord

/-- The transaction word of five bytes. -/
def transWordOfBytes (bs : List Byte) : Except DecodeReject TransWord :=
  if bs.length = 5 then transWordOfNat (natOfBytes bs) else .error .wrongLength

/-- The instruction in a string of bytes, or the name of what is wrong with it. -/
def decodeBytes (bs : List Byte) : Except DecodeReject Instr :=
  match transWordOfBytes bs with
  | .ok tw => .ok (decode tw)
  | .error r => .error r

/-- The transaction word the host names by the bits `w` of a table row, or none where `w` is no such word. -/
def tableTransWord (nbits w : Nat) : Option TransWord :=
  match transWordOfBytes (bytesOfNat 5 (w % 2 ^ nbits)) with
  | .ok tw => if w % 2 ^ nbits < 2 ^ 40 then some tw else none
  | .error _ => none

/-- The instruction the decoder reads from an instruction whose bits are `w`, numbered as the opcode table numbers
them. -/
def decodeTableWord (nbits w : Nat) : Option Instr :=
  (tableTransWord nbits w).map decode

/-! ## Encoding (R76, R89) -/

/-- The transaction word of an instruction; a read has wdata 0, its canonical encoding (R86). -/
def encode : Instr → TransWord
  | .rdBufBase => mkTransWord false 0#4 0#32
  | .wrBufBase wdata => mkTransWord true 0#4 wdata
  | .rdBufLen => mkTransWord false 1#4 0#32
  | .wrBufLen wdata => mkTransWord true 1#4 wdata
  | .rdGain => mkTransWord false 2#4 0#32
  | .wrGain wdata => mkTransWord true 2#4 wdata
  | .rdCtrl => mkTransWord false 3#4 0#32
  | .wrCtrl wdata => mkTransWord true 3#4 wdata
  | .rdCmd => mkTransWord false 4#4 0#32
  | .apply => mkTransWord true 4#4 applyWord
  | .wrCmdReserved wdata => mkTransWord true 4#4 wdata
  | .rdStatus => mkTransWord false 5#4 0#32
  | .wrStatus wdata => mkTransWord true 5#4 wdata
  | .rdProgress => mkTransWord false 6#4 0#32
  | .wrProgress wdata => mkTransWord true 6#4 wdata
  | .rdRsvd7 => mkTransWord false 7#4 0#32
  | .rdRsvd8to15 rn => mkTransWord false rn 0#32
  | .wrRsvd7 wdata => mkTransWord true 7#4 wdata
  | .wrRsvd8to15 rn wdata => mkTransWord true rn wdata

/-! ## The opcode table (R89) -/

/-- One row: a transaction word selects it when its bits under `mask` are `value`. -/
structure OpRow where
  mnemonic : String
  value    : TransWord
  mask     : TransWord
  deriving DecidableEq, Repr

/-- The rows in the table's priority order. -/
def opcodeTable : List OpRow :=
  [ ⟨"RD_BUF_BASE",     0x0000000000#37, 0x1F00000000#37⟩,
    ⟨"WR_BUF_BASE",     0x1000000000#37, 0x1F00000000#37⟩,
    ⟨"RD_BUF_LEN",      0x0100000000#37, 0x1F00000000#37⟩,
    ⟨"WR_BUF_LEN",      0x1100000000#37, 0x1F00000000#37⟩,
    ⟨"RD_GAIN",         0x0200000000#37, 0x1F00000000#37⟩,
    ⟨"WR_GAIN",         0x1200000000#37, 0x1F00000000#37⟩,
    ⟨"RD_CTRL",         0x0300000000#37, 0x1F00000000#37⟩,
    ⟨"WR_CTRL",         0x1300000000#37, 0x1F00000000#37⟩,
    ⟨"RD_CMD",          0x0400000000#37, 0x1F00000000#37⟩,
    ⟨"APPLY",           0x1400000001#37, 0x1FFFFFFFFF#37⟩ ] ++
  [ ⟨"WR_CMD_RESERVED", 0x1400000000#37, 0x1F00000000#37⟩,
    ⟨"RD_STATUS",       0x0500000000#37, 0x1F00000000#37⟩,
    ⟨"WR_STATUS",       0x1500000000#37, 0x1F00000000#37⟩,
    ⟨"RD_PROGRESS",     0x0600000000#37, 0x1F00000000#37⟩,
    ⟨"WR_PROGRESS",     0x1600000000#37, 0x1F00000000#37⟩,
    ⟨"RD_RSVD_7",       0x0700000000#37, 0x1F00000000#37⟩,
    ⟨"RD_RSVD_8_15",    0x0800000000#37, 0x1800000000#37⟩,
    ⟨"WR_RSVD_7",       0x1700000000#37, 0x1F00000000#37⟩,
    ⟨"WR_RSVD_8_15",    0x1800000000#37, 0x1800000000#37⟩ ]

/-- The word selects the row (R89: `(TW & mask) = match`). -/
def rowMatches (row : OpRow) (tw : TransWord) : Bool := (tw &&& row.mask) == row.value

/-- The first row that matches wins (R89). -/
def tableRow (tw : TransWord) : Option OpRow := opcodeTable.find? (fun row => rowMatches row tw)

/-- The table's name of an instruction. -/
def instrMnemonic : Instr → String
  | .rdBufBase => "RD_BUF_BASE"
  | .wrBufBase _ => "WR_BUF_BASE"
  | .rdBufLen => "RD_BUF_LEN"
  | .wrBufLen _ => "WR_BUF_LEN"
  | .rdGain => "RD_GAIN"
  | .wrGain _ => "WR_GAIN"
  | .rdCtrl => "RD_CTRL"
  | .wrCtrl _ => "WR_CTRL"
  | .rdCmd => "RD_CMD"
  | .apply => "APPLY"
  | .wrCmdReserved _ => "WR_CMD_RESERVED"
  | .rdStatus => "RD_STATUS"
  | .wrStatus _ => "WR_STATUS"
  | .rdProgress => "RD_PROGRESS"
  | .wrProgress _ => "WR_PROGRESS"
  | .rdRsvd7 => "RD_RSVD_7"
  | .rdRsvd8to15 _ => "RD_RSVD_8_15"
  | .wrRsvd7 _ => "WR_RSVD_7"
  | .wrRsvd8to15 _ _ => "WR_RSVD_8_15"

/-! ## The assembler (R27, R86, R87) -/

/-- The register number of a name (R27). -/
def regNumber : Reg → BitVec 4
  | .bufBase => 0#4
  | .bufLen => 1#4
  | .gain => 2#4
  | .ctrl => 3#4
  | .cmd => 4#4
  | .status => 5#4
  | .progress => 6#4
  | .reserved rn => rn

/-- The conventional byte offset of a register on a byte-addressed bus (R27, R76). -/
def regByteOffset (r : Reg) : Nat := 4 * (regNumber r).toNat

/-- The transaction word of an assembler line (R86). -/
def assemble : AsmLine → TransWord
  | .rd reg => mkTransWord false (regNumber reg) 0#32
  | .wr reg imm => mkTransWord true (regNumber reg) imm

/-- The lines a pseudo-instruction stands for (R87). -/
def expandPseudo : Pseudo → List AsmLine
  | .apply => [.wr .cmd 0x00000001#32]
  | .setbuf base len => [.wr .bufBase base, .wr .bufLen len, .wr .ctrl 0x00000001#32]
  | .nobuf => [.wr .ctrl 0x00000000#32]
  | .setgain pattern => [.wr .gain pattern]
  | .ack => [.wr .status 0x0000000E#32]

/-- The line `wait` repeats (R87). -/
def waitLine : AsmLine := .rd .status

/-- `wait` ends when the value read has bit 0, BUSY, clear (R87). -/
def waitEnds (rdata : Word) : Bool := !rdata.getLsbD 0

end Sys2Proof
end

