-- ==== Sys2Proof/Machine/Binary32.lean ====
section
/-! DEFINITION. The binary32 format (`43_gain_multiply.md` R145) and rounding to it (R146). A finite pattern is an integer
significand times a power of two, so every real of the rules is a product `m · 2^e` with `m` in ℕ and `e` in ℤ (DEDUCED, log
entry 16). -/

namespace Sys2Proof.Machine

/-- `S`, bit 31. -/
def signBit (p : Word) : Bool := p.getLsbD 31

/-- `E`, bits 30:23. -/
def expField (p : Word) : Nat := (p.extractLsb' 23 8).toNat

/-- `F`, bits 22:0. -/
def fracField (p : Word) : Nat := (p.extractLsb' 0 23).toNat

/-- `E ≠ 255`: zero, subnormal or normal (R145). -/
def isFinite (p : Word) : Bool := expField p != 255

/-- An infinity (R145). -/
def isInf (p : Word) : Bool := (expField p == 255) && (fracField p == 0)

/-- A NaN (R145). -/
def isNaN (p : Word) : Bool := (expField p == 255) && (fracField p != 0)

/-- The integer significand of a finite pattern: `F` for a zero or subnormal, `2^23 + F` for a normal (R145). -/
def significand (p : Word) : Nat := if expField p = 0 then fracField p else 2 ^ 23 + fracField p

/-- The exponent of a finite pattern's significand: −149 for a zero or subnormal, `E − 150` for a normal (R145). -/
def scale (p : Word) : Int := if expField p = 0 then -149 else (expField p : Int) - 150

/-- The significand with the pattern's sign. -/
def signedSignificand (p : Word) : Int := if signBit p then -(significand p : Int) else (significand p : Int)

/-- `val(p)` of a finite pattern, a rational number (R145). -/
def val (p : Word) : ℚ := (signedSignificand p : ℚ) * (2 : ℚ) ^ scale p

/-- `floor(val(p))` of a finite pattern, in ℤ (R16, R155). -/
def floorVal (p : Word) : Int :=
  if 0 ≤ scale p then signedSignificand p * 2 ^ (scale p).toNat
  else signedSignificand p / 2 ^ (-scale p).toNat

/-- The pattern with these fields: sign, exponent, fraction. -/
def mkPattern (sign : Bool) (exp : Nat) (frac : Nat) : Word :=
  (BitVec.ofBool sign ++ BitVec.ofNat 8 exp) ++ BitVec.ofNat 23 frac

/-- `m · 2^(-k)` rounded to an integer, ties to even; the step `n`, `m` of R146. -/
def roundShift (m k : Nat) : Nat :=
  let lo := m / 2 ^ k
  let rem := m % 2 ^ k
  if 2 ^ k < 2 * rem ∨ (2 * rem = 2 ^ k ∧ lo % 2 = 1) then lo + 1 else lo

/-- `rne32(S, x)` for `x = m · 2^e`: the nearest binary32 pattern, ties to the even fraction (R146). -/
def rne32 (sign : Bool) (m : Nat) (e : Int) : Word :=
  if m = 0 then mkPattern sign 0 0
  else
    let binade : Int := max ((Nat.log2 m : Int) + e) (-126)
    let shift : Int := e - (binade - 23)
    let n : Nat := if 0 ≤ shift then m * 2 ^ shift.toNat else roundShift m (-shift).toNat
    let carried : Bool := n == 2 ^ 24
    let sig : Nat := if carried then 2 ^ 23 else n
    let top : Int := if carried then binade + 1 else binade
    if 127 < top then mkPattern sign 255 0
    else if sig < 2 ^ 23 then mkPattern sign 0 sig
    else mkPattern sign (top + 127).toNat (sig - 2 ^ 23)

end Sys2Proof.Machine
end

