-- ==== Sys2Proof/Machine/State.lean ====
section
/-! DEFINITION. The state of the machine as plain data: the host-visible registers (`10_state.md` R27 to R40), the four
engine latches (R21 to R24), the buffer memory (`20_memory.md` R50), the platform's parameters (R47), and three fields
of the model's own: the steps still to come, what the host's reads returned, and the order of the byte accesses. -/

namespace Sys2Proof.Machine

/-- The buffer memory: the bytes that differ from what an unlisted address reads as, by strictly rising address. -/
abbrev Memory := List Host.Cell

/-- The five errors (`60_exceptions.md` R186). -/
inductive ErrorKind where
  | illegalCmd
  | nullBuffer
  | gainNotFinite
  | addrRange
  | memFault
  deriving DecidableEq, Repr

/-- A master of the buffer memory other than the engine (`00_scope.md` R17, R42). -/
inductive Master where
  | host
  | other (id : Nat)
  deriving DecidableEq, Repr

/-- Who issues a byte access. -/
inductive Agent where
  | engine
  | master (m : Master)
  deriving DecidableEq, Repr

/-- One byte access issued to buffer memory (R57, R66). A read holds the byte it returned, none where the platform
refused it. A write holds the byte offered and whether it was performed (R73). -/
inductive Access where
  | read (agent : Agent) (addr : Nat) (result : Option Byte)
  | write (agent : Agent) (addr : Nat) (value : Byte) (performed : Bool)
  deriving DecidableEq, Repr

/-- One step of an agent, as the step order has it (R17). -/
inductive Input where
  /-- The host's transaction on the register port (R95). -/
  | transaction (tw : TransWord)
  /-- The engine's turn (R126, R127). -/
  | engine
  /-- A byte read of buffer memory by a master other than the engine (R42). -/
  | memRead (who : Master) (addr : Nat)
  /-- A byte write of buffer memory by a master other than the engine (R42). -/
  | memWrite (who : Master) (addr : Nat) (value : Byte)
  /-- Reset, a step of its own (R215). -/
  | reset
  deriving DecidableEq, Repr

/-- The machine. -/
structure State where
  /-- AW and MemOK: parameters, which no step changes (R47; DESIGN CHOICE, log entry 5). -/
  cfg      : Config
  /-- BUF_BASE, its bits 31:AW always 0 on a read (R28). -/
  bufBase  : Word
  /-- BUF_LEN (R29). -/
  bufLen   : Word
  /-- GAIN, a binary32 pattern (R30). -/
  gain     : Word
  /-- CTRL.BUF_VALID, the one bit of CTRL that is not reserved (R31). -/
  bufValid : Bool
  /-- STATUS.BUSY (R34). -/
  busy     : Bool
  /-- STATUS.DONE (R35). -/
  done     : Bool
  /-- STATUS.ERR (R36). -/
  err      : Bool
  /-- STATUS.ODD (R37). -/
  odd      : Bool
  /-- STATUS.ERRCODE (R38). -/
  errCode  : BitVec 4
  /-- IDX, which PROGRESS reads (R24, R39). -/
  idx      : WinCount
  /-- W_BASE, AW bits (R21). -/
  wBase    : Word
  /-- W_NWIN (R22). -/
  wNwin    : WinCount
  /-- W_GAIN, a binary32 pattern (R23). -/
  wGain    : Word
  /-- The buffer memory (R50). -/
  mem      : Memory
  /-- The model's own: the steps still to come, the next one first; the program of R47 and the interleaving of R17
  (DESIGN CHOICE, log entry 1). -/
  pending  : List Input
  /-- The model's own: the `rdata` of every read transaction so far, the latest first (R76, R95;
  DESIGN CHOICE, log entry 7). -/
  returned : List Word
  /-- The model's own: every byte access issued so far in the total order of R66, the latest first
  (DESIGN CHOICE, log entry 7). -/
  trace    : List Access
  deriving DecidableEq, Repr

/-- Why the machine stops. Only `runInput` (Machine/Inputs.lean) raises one; no transaction does. -/
inductive Fault where
  /-- A master other than the engine is said to access an address outside the buffer memory, which has the addresses
  below `2^AW` alone (R50). Raised by `runInput`. Safe: there is no such access on the hardware
  (DEDUCED, log entry 9). -/
  | noSuchAddress (addr : Nat)
  deriving DecidableEq, Repr

/-- Why the model gives no meaning. -/
inductive Refusal where
  /-- An arm of `exec` without a meaning yet. Raised by no arm now. Safe. -/
  | notModelled (mnemonic : String)
  deriving DecidableEq, Repr

/-- The machine right after reset (R45, R215) on the default platform (R12). W_BASE, W_NWIN and W_GAIN, and the content
of memory, are unspecified there: the zeros are DESIGN CHOICE (log entries 3 and 4, unsafe). -/
def State.reset : State where
  cfg      := defaultPlatform
  bufBase  := 0x00000000#32
  bufLen   := 0x00000000#32
  gain     := 0x3F800000#32
  bufValid := false
  busy     := false
  done     := false
  err      := false
  odd      := false
  errCode  := 0#4
  idx      := 0#31
  wBase    := 0x00000000#32
  wNwin    := 0#31
  wGain    := 0x00000000#32
  mem      := []
  pending  := []
  returned := []
  trace    := []

end Sys2Proof.Machine
end

