-- ==== Sys2Proof/Machine/Ops.lean ====
section
/-! DEFINITION. The named operations the meanings share: buffer memory and the byte accesses to it (`20_memory.md`), the
host's read data, raising an error and clearing its record (`60_exceptions.md` R190, R199), and reset (R215). -/

namespace Sys2Proof.Machine

/-! ## Buffer memory -/

/-- What an address that memory does not list reads as. The spec leaves the initial content to the platform (R218):
DESIGN CHOICE, log entry 3, unsafe. -/
def unlistedByte : Byte := 0x00#8

/-- The byte at an address: the latest one written there, or the initial content (R50). -/
def Memory.read : Memory → Nat → Byte
  | [], _ => unlistedByte
  | (k, v) :: rest, a => if k = a then v else Memory.read rest a

/-- The memory with nothing listed at an address. -/
def Memory.erase : Memory → Nat → Memory
  | [], _ => []
  | (k, v) :: rest, a => if k = a then Memory.erase rest a else (k, v) :: Memory.erase rest a

/-- The memory with a byte listed at an address, in its place by address. -/
def Memory.insert : Memory → Nat → Byte → Memory
  | [], a, b => [(a, b)]
  | (k, v) :: rest, a, b =>
    if a < k then (a, b) :: (k, v) :: rest
    else if a = k then (a, b) :: rest
    else (k, v) :: Memory.insert rest a b

/-- The memory after a byte is written (R50); the byte an unlisted address reads as is not listed. -/
def Memory.write (m : Memory) (a : Nat) (b : Byte) : Memory :=
  if b = unlistedByte then m.erase a else m.insert a b

/-- The addresses from `lo` on rise strictly and no listed byte is the one an unlisted address reads as. -/
def Memory.wfFrom : Nat → Memory → Bool
  | _, [] => true
  | lo, (k, v) :: rest => decide (lo ≤ k) && (v != unlistedByte) && Memory.wfFrom (k + 1) rest

/-- The canonical form: equal memories are equal lists. -/
def Memory.wf (m : Memory) : Bool := Memory.wfFrom 0 m

/-! ## Byte accesses (R57, R73) -/

/-- The platform refuses this access. -/
def denies (d : Denial) (a : Nat) (kind : AccessKind) : Bool :=
  decide (d.kind = kind) && decide (d.first ≤ a) && decide (a ≤ d.last)

/-- MemOK (R73): the address exists (R50; DEDUCED, log entry 6) and no entry of the platform's list refuses it. -/
def memOK (cfg : Config) (a : Nat) (kind : AccessKind) : Bool :=
  decide (a < 2 ^ cfg.aw) && cfg.denied.all (fun d => !denies d a kind)

/-- `MemRead(addr, 1)` by an agent (R16): the byte, or none for `fault`. -/
def loadByte (who : Agent) (a : Nat) (s : State) : Option Byte × State :=
  if memOK s.cfg a .read then
    (some (s.mem.read a), { s with trace := .read who a (some (s.mem.read a)) :: s.trace })
  else
    (none, { s with trace := .read who a none :: s.trace })

/-- `MemWrite(addr, 1, v)` by an agent (R16): true for `ok`, false for `fault`, which changes no memory (R73). -/
def storeByte (who : Agent) (a : Nat) (v : Byte) (s : State) : Bool × State :=
  if memOK s.cfg a .write then
    (true, { s with mem := s.mem.write a v, trace := .write who a v true :: s.trace })
  else
    (false, { s with trace := .write who a v false :: s.trace })

/-! ## The host port -/

/-- A read transaction returns `rdata` to the host and changes no state (R95). -/
def respond (rdata : Word) (s : State) : State :=
  { s with returned := rdata :: s.returned }

/-! ## Errors: taking one and leaving it -/

/-- The code of an error (R186). -/
def errorCode : ErrorKind → BitVec 4
  | .illegalCmd => 1#4
  | .nullBuffer => 2#4
  | .gainNotFinite => 3#4
  | .addrRange => 4#4
  | .memFault => 5#4

/-- `raise <Error>`, the hardware's whole trap entry (R190, R197). -/
def raiseError (e : ErrorKind) (s : State) : State :=
  { s with err := true, errCode := errorCode e, busy := false }

/-- What a CMD write taken while BUSY = 0 clears before any check (R122). -/
def clearRecord (s : State) : State :=
  { s with done := false, err := false, odd := false, errCode := 0#4, idx := 0#31 }

/-! ## Reset (R215, R217, R218) -/

/-- Reset: every register and latch at its reset value. Buffer memory, the platform, the host's own record of what it
read and the order of accesses are outside the block and stay (DEDUCED, log entry 10). -/
def resetBlock (s : State) : State :=
  { State.reset with
    cfg := s.cfg, mem := s.mem, pending := s.pending, returned := s.returned, trace := s.trace }

end Sys2Proof.Machine
end

