-- ==== Sys2Proof/Machine/Operands.lean ====
section
/-! DEFINITION. How the registers' values are read: operand assembly (`30_encoding.md` R78), the values reads return
(`40_host_transactions.md` R96 to R111), and the operands of a call (`41_apply_command.md` R120, R125, R126). -/

namespace Sys2Proof.Machine

/-- Bits AW−1:0 of a word; the bits above are dropped and read 0 (R28, R78). -/
def addrBits (cfg : Config) (w : Word) : Word := BitVec.ofNat 32 (w.toNat % 2 ^ cfg.aw)

/-! ## Values of the registers -/

/-- `zext_32(BUF_BASE)` (R96). -/
def bufBaseValue (s : State) : Word := addrBits s.cfg s.bufBase

/-- `zext_32(CTRL.BUF_VALID)` (R102). -/
def ctrlValue (s : State) : Word := (BitVec.ofBool s.bufValid).zeroExtend 32

/-- What CMD and the reserved numbers read as (R104, R110). -/
def zeroValue : Word := 0x00000000#32

/-- `zext_32(IDX)` (R108). -/
def progressValue (s : State) : Word := s.idx.zeroExtend 32

/-! ## Operands of a write (R78) -/

/-- `wdata[0]` of a CTRL write (R103). -/
def ctrlOperand (wdata : Word) : Bool := wdata.getLsbD 0

/-! ## Operands of a call -/

/-- `BUF_LEN[31:1]`, the number of complete windows (R22, R125). -/
def windowCount (len : Word) : WinCount := len.extractLsb' 1 31

/-- `BUF_LEN[0]`, the odd-length bit (R37). -/
def oddLength (len : Word) : Bool := len.getLsbD 0

/-- `BUF_BASE + BUF_LEN ≤ 2^AW`, the sum in ℤ (R63, R123). -/
def rangeFits (s : State) : Bool :=
  decide ((bufBaseValue s).toNat + s.bufLen.toNat ≤ 2 ^ s.cfg.aw)

/-- The address of byte b0 of window `i`, `W_BASE + 2i` (R125). -/
def windowAddr (base : Word) (i : Nat) : Nat := base.toNat + 2 * i

end Sys2Proof.Machine
end

