-- ==== Sys2Proof/Machine/Command.lean ====
section
/-! DEFINITION. A write of CMD: the dispatcher, the acceptance of APPLY and its refusals (`40_host_transactions.md` R105,
`41_apply_command.md` R120 to R124). -/

namespace Sys2Proof.Machine

/-- The first acceptance check that fails, in R123's order, or none. -/
def applyError (s : State) : Option ErrorKind :=
  if s.bufValid = false then some .nullBuffer
  else if isFinite s.gain = false then some .gainNotFinite
  else if rangeFits s = false then some .addrRange
  else none

/-- Acceptance: the operands are latched and BUSY is set (R124). -/
def acceptCall (s : State) : State :=
  { s with
    wBase := bufBaseValue s
    wNwin := windowCount s.bufLen
    wGain := s.gain
    odd := oddLength s.bufLen
    busy := true }

/-- APPLY after the record is cleared: refused by the first check that fails, or accepted (R123, R124). -/
def tryApply (s : State) : State :=
  match applyError s with
  | some e => raiseError e s
  | none => acceptCall s

/-- WR_CMD, the dispatcher (R105): dropped while BUSY = 1 (R121), else the record is cleared (R122) and the word is
APPLY or illegal (R187). -/
def writeCmd (wdata : Word) (s : State) : State :=
  if s.busy then s
  else if wdata = applyWord then tryApply (clearRecord s)
  else raiseError .illegalCmd (clearRecord s)

/-- APPLY (R120). -/
def execApply (s : State) : Host.Outcome State Fault Refusal := .next (writeCmd applyWord s)

/-- WR_CMD_RESERVED (R105); on the ill-formed operand 0x00000001 it is the write of APPLY (DEDUCED, log entry 11). -/
def execWrCmdReserved (wdata : Word) (s : State) : Host.Outcome State Fault Refusal :=
  .next (writeCmd wdata s)

end Sys2Proof.Machine
end

