-- ==== Sys2Proof/Machine/Flags.lean ====
section
/-! DEFINITION. The STATUS register: its layout and its write-1-to-clear bits (`10_state.md` R33 to R38,
`40_host_transactions.md` R106, R107). There are no arithmetic flags (R26). -/

namespace Sys2Proof.Machine

/-- STATUS as a word: `{24'b0, ERRCODE[3:0], ODD, ERR, DONE, BUSY}` (R106). -/
def statusValue (s : State) : Word :=
  ((((((0#24 : BitVec 24) ++ s.errCode) ++ BitVec.ofBool s.odd) ++ BitVec.ofBool s.err)
    ++ BitVec.ofBool s.done) ++ BitVec.ofBool s.busy)

/-- A write of STATUS clears DONE, ERR with ERRCODE, and ODD where the mask has a 1 in bit 1, 2, 3 (R107). -/
def clearStatus (mask : Word) (s : State) : State :=
  { s with
    done := s.done && !mask.getLsbD 1
    err := s.err && !mask.getLsbD 2
    errCode := if mask.getLsbD 2 then 0#4 else s.errCode
    odd := s.odd && !mask.getLsbD 3 }

end Sys2Proof.Machine
end

