-- ==== Sys2Proof/Machine/HostRegisters.lean ====
section
/-! DEFINITION. The host transactions on the registers other than a write of CMD (`40_host_transactions.md` R96 to R104 and
R106 to R111). Each is one atomic step, legal in every state, and touches no buffer memory (R95). -/

namespace Sys2Proof.Machine

/-- RD_BUF_BASE (R96). -/
def execRdBufBase (s : State) : Host.Outcome State Fault Refusal := .next (respond (bufBaseValue s) s)

/-- WR_BUF_BASE: `BUF_BASE <- wdata[AW−1:0]` (R97). -/
def execWrBufBase (wdata : Word) (s : State) : Host.Outcome State Fault Refusal :=
  .next { s with bufBase := addrBits s.cfg wdata }

/-- RD_BUF_LEN (R98). -/
def execRdBufLen (s : State) : Host.Outcome State Fault Refusal := .next (respond s.bufLen s)

/-- WR_BUF_LEN (R99). -/
def execWrBufLen (wdata : Word) (s : State) : Host.Outcome State Fault Refusal :=
  .next { s with bufLen := wdata }

/-- RD_GAIN (R100). -/
def execRdGain (s : State) : Host.Outcome State Fault Refusal := .next (respond s.gain s)

/-- WR_GAIN: stored unchanged, no check (R101). -/
def execWrGain (wdata : Word) (s : State) : Host.Outcome State Fault Refusal :=
  .next { s with gain := wdata }

/-- RD_CTRL (R102). -/
def execRdCtrl (s : State) : Host.Outcome State Fault Refusal := .next (respond (ctrlValue s) s)

/-- WR_CTRL: `CTRL.BUF_VALID <- wdata[0]` (R103). -/
def execWrCtrl (wdata : Word) (s : State) : Host.Outcome State Fault Refusal :=
  .next { s with bufValid := ctrlOperand wdata }

/-- RD_CMD: CMD holds no state and reads 0 (R32, R104). -/
def execRdCmd (s : State) : Host.Outcome State Fault Refusal := .next (respond zeroValue s)

/-- RD_STATUS: reading clears nothing (R106). -/
def execRdStatus (s : State) : Host.Outcome State Fault Refusal := .next (respond (statusValue s) s)

/-- WR_STATUS: write 1 to clear (R107). -/
def execWrStatus (wdata : Word) (s : State) : Host.Outcome State Fault Refusal :=
  .next (clearStatus wdata s)

/-- RD_PROGRESS (R108). -/
def execRdProgress (s : State) : Host.Outcome State Fault Refusal := .next (respond (progressValue s) s)

/-- WR_PROGRESS: no effect (R109). -/
def execWrProgress (_wdata : Word) (s : State) : Host.Outcome State Fault Refusal := .next s

/-- RD_RSVD_7 (R110). -/
def execRdRsvd7 (s : State) : Host.Outcome State Fault Refusal := .next (respond zeroValue s)

/-- RD_RSVD_8_15 (R110). -/
def execRdRsvd8to15 (_rn : BitVec 4) (s : State) : Host.Outcome State Fault Refusal :=
  .next (respond zeroValue s)

/-- WR_RSVD_7: no effect (R111). -/
def execWrRsvd7 (_wdata : Word) (s : State) : Host.Outcome State Fault Refusal := .next s

/-- WR_RSVD_8_15: no effect (R111). -/
def execWrRsvd8to15 (_rn : BitVec 4) (_wdata : Word) (s : State) : Host.Outcome State Fault Refusal :=
  .next s

end Sys2Proof.Machine
end

