-- ==== Sys2Proof/Machine/Dispatch.lean ====
section
/-! DEFINITION. The dispatch: one arm per host transaction. -/

namespace Sys2Proof.Machine

def exec (i : Instr) (s : State) : Host.Outcome State Fault Refusal :=
  match i with
  | .rdBufBase => Sys2Proof.Machine.execRdBufBase s
  | .wrBufBase wdata => Sys2Proof.Machine.execWrBufBase wdata s
  | .rdBufLen => Sys2Proof.Machine.execRdBufLen s
  | .wrBufLen wdata => Sys2Proof.Machine.execWrBufLen wdata s
  | .rdGain => Sys2Proof.Machine.execRdGain s
  | .wrGain wdata => Sys2Proof.Machine.execWrGain wdata s
  | .rdCtrl => Sys2Proof.Machine.execRdCtrl s
  | .wrCtrl wdata => Sys2Proof.Machine.execWrCtrl wdata s
  | .rdCmd => Sys2Proof.Machine.execRdCmd s
  | .apply => Sys2Proof.Machine.execApply s
  | .wrCmdReserved wdata => Sys2Proof.Machine.execWrCmdReserved wdata s
  | .rdStatus => Sys2Proof.Machine.execRdStatus s
  | .wrStatus wdata => Sys2Proof.Machine.execWrStatus wdata s
  | .rdProgress => Sys2Proof.Machine.execRdProgress s
  | .wrProgress wdata => Sys2Proof.Machine.execWrProgress wdata s
  | .rdRsvd7 => Sys2Proof.Machine.execRdRsvd7 s
  | .rdRsvd8to15 rn => Sys2Proof.Machine.execRdRsvd8to15 rn s
  | .wrRsvd7 wdata => Sys2Proof.Machine.execWrRsvd7 wdata s
  | .wrRsvd8to15 rn wdata => Sys2Proof.Machine.execWrRsvd8to15 rn wdata s

end Sys2Proof.Machine
end

