-- ==== Sys2Proof/Machine/GainMultiply.lean ====
section
/-! DEFINITION. The middle of the window function: CVT_S16_F32, FMUL32 and FLOOR32 (`43_gain_multiply.md`). None of them
keeps a flag or traps (R154). -/

namespace Sys2Proof.Machine

/-- CVT_S16_F32 (R147), for a sample from −32768 to 32767. -/
def cvtS16F32 (s : Int) : Word :=
  if s = 0 then 0x00000000#32
  else
    let a := s.natAbs
    let k := Nat.log2 a
    mkPattern (decide (s < 0)) (127 + k) ((a - 2 ^ k) <<< (23 - k))

/-- The quiet NaN with zero payload (R150). -/
def quietNaN : Word := 0x7FC00000#32

/-- FMUL32: the exact product rounded once (R149), and the cases of a NaN or an infinity (R150). -/
def fmul32 (f g : Word) : Word :=
  let sign := signBit f ^^ signBit g
  if isFinite f && isFinite g then rne32 sign (significand f * significand g) (scale f + scale g)
  else if isNaN f || isNaN g then quietNaN
  else if (isFinite f && significand f == 0) || (isFinite g && significand g == 0) then quietNaN
  else mkPattern sign 255 0

/-- FLOOR32 by value (R155); an infinity or a NaN stays (R156). -/
def floor32 (p : Word) : Word :=
  if isFinite p then
    if significand p = 0 then p
    else
      let n := floorVal p
      if n = 0 then 0x00000000#32 else rne32 (decide (n < 0)) n.natAbs 0
  else p

/-- The encoding of an integer of magnitude up to `2^24 − 1` or a power of two, as R147's with a wider range (R155). -/
def encodeInt (n : Int) : Word :=
  let a := n.natAbs
  let k := Nat.log2 a
  mkPattern (decide (n < 0)) (127 + k) (a * 2 ^ (23 - k) - 2 ^ 23)

/-- FLOOR32 at bit level, the second block of R155, for a finite pattern. -/
def floor32Bits (p : Word) : Word :=
  let e := expField p
  let m := significand p
  if 150 ≤ e then p
  else if e < 127 then
    if m = 0 then p
    else if signBit p then 0xBF800000#32
    else 0x00000000#32
  else
    let sh := 150 - e
    let i : Int := (m >>> sh : Nat)
    let r := m % 2 ^ sh
    encodeInt (if signBit p then -(i + (if r ≠ 0 then 1 else 0)) else i)

end Sys2Proof.Machine
end

