-- ==== Sys2Proof/Machine/Unpack.lean ====
section
/-! DEFINITION. The sample unpacker, UNPACK16LE (`42_sample_unpack.md`). -/

namespace Sys2Proof.Machine

/-- `{b1, b0}`, the 16-bit pattern of a window (R52, R140). -/
def joinBytes (b0 b1 : Byte) : Half := b1 ++ b0

/-- UNPACK16LE: the pattern read as two's complement (R140, R15). -/
def unpack16le (b0 b1 : Byte) : Int := (joinBytes b0 b1).toInt

end Sys2Proof.Machine
end

