-- ==== Sys2Proof/Machine/NarrowPack.lean ====
section
/-! DEFINITION. The end of the window function, CVT_F32_S16W and PACK16LE, and the window function W itself
(`44_narrow_pack.md`). Nothing clamps (R170). -/

namespace Sys2Proof.Machine

/-- `wrap16(n)`: the 16-bit pattern congruent to `n` modulo 65536 (R15). -/
def wrap16 (n : Int) : Half := BitVec.ofInt 16 n

/-- CVT_F32_S16W. FLOOR32 yields integers alone, so `floorVal q` is `val(q)` (R157, R165); an infinity or a NaN gives
0 (R166, R167). On other operands it is the model's (DEDUCED, log entry 13). -/
def cvtF32S16w (q : Word) : Half :=
  if isFinite q then wrap16 (floorVal q) else 0x0000#16

/-- CVT_F32_S16W at bit level (R168). -/
def cvtF32S16wBits (q : Word) : Half :=
  let e := expField q
  let m : Nat := 2 ^ 23 + fracField q
  if e = 255 then 0x0000#16
  else if e < 127 then 0x0000#16
  else
    let mag : Half :=
      if 166 ≤ e then 0x0000#16
      else if 150 ≤ e then BitVec.ofNat 16 (m <<< (e - 150))
      else BitVec.ofNat 16 (m >>> (150 - e))
    if signBit q then 0x0000#16 - mag else mag

/-- PACK16LE: the low byte, for the lower address, and the high byte (R53, R172). -/
def pack16le (r : Half) : Byte × Byte := (r.extractLsb' 0 8, r.extractLsb' 8 8)

/-- The 16-bit result of a window: the five operations before PACK16LE (R176). -/
def windowResult (b0 b1 : Byte) (g : Word) : Half :=
  cvtF32S16w (floor32 (fmul32 (cvtS16F32 (unpack16le b0 b1)) g))

/-- W, the window function (R176). -/
def window (b0 b1 : Byte) (g : Word) : Byte × Byte := pack16le (windowResult b0 b1 g)

end Sys2Proof.Machine
end

