-- ==== Sys2Proof/Machine/Engine.lean ====
section
/-! DEFINITION. The engine: the window step, the finish step and the memory fault (`41_apply_command.md` R126, R127, R130). A
window step is one atomic step with four byte accesses in a fixed order (`20_memory.md` R58; DEDUCED, log entry 14). -/

namespace Sys2Proof.Machine

/-- The end of a window step: `IDX <- IDX + 1` (R126). -/
def advanceIdx (s : State) : State := { s with idx := s.idx + 1#31 }

/-- The write half of a window step: c0, then c1; the first write that faults raises MEM_FAULT (R126, R130). -/
def writeWindow (a : Nat) (c : Byte × Byte) (s : State) : State :=
  match storeByte .engine a c.1 s with
  | (false, s1) => raiseError .memFault s1
  | (true, s1) =>
    match storeByte .engine (a + 1) c.2 s1 with
    | (false, s2) => raiseError .memFault s2
    | (true, s2) => advanceIdx s2

/-- The window step (R126): read b0, read b1, apply W, write both bytes back. -/
def windowStep (s : State) : State :=
  match loadByte .engine (windowAddr s.wBase s.idx.toNat) s with
  | (none, s1) => raiseError .memFault s1
  | (some b0, s1) =>
    match loadByte .engine (windowAddr s.wBase s.idx.toNat + 1) s1 with
    | (none, s2) => raiseError .memFault s2
    | (some b1, s2) => writeWindow (windowAddr s.wBase s.idx.toNat) (window b0 b1 s.wGain) s2

/-- The finish step (R127). -/
def finishStep (s : State) : State := { s with busy := false, done := true }

/-- The engine's turn: its enabled step, or nothing where none is enabled (R126, R127, R207; DEDUCED, log entry 12). -/
def engineStep (s : State) : State :=
  if s.busy then
    if s.idx.toNat < s.wNwin.toNat then windowStep s
    else if s.idx = s.wNwin then finishStep s
    else s
  else s

end Sys2Proof.Machine
end

