-- ==== Sys2Proof/Machine/Inputs.lean ====
section
/-! DEFINITION. What one step of each agent does (`00_scope.md` R17): a host transaction, the engine's turn, a byte access
by another master (`10_state.md` R42), and reset (`70_reset_and_hazards.md` R215). -/

namespace Sys2Proof.Machine

/-- A byte read by another master: in the total order of accesses, and no other effect (R61, R66; DEDUCED, log entries 8
and 9). -/
def foreignRead (who : Master) (a : Nat) (s : State) : Host.Outcome State Fault Refusal :=
  if a < 2 ^ s.cfg.aw then .next (loadByte (.master who) a s).2 else .fault (.noSuchAddress a)

/-- A byte write by another master; the block does not lock the buffer (R66, R220; DEDUCED, log entries 8 and 9). -/
def foreignWrite (who : Master) (a : Nat) (v : Byte) (s : State) : Host.Outcome State Fault Refusal :=
  if a < 2 ^ s.cfg.aw then .next (storeByte (.master who) a v s).2 else .fault (.noSuchAddress a)

/-- One step of one agent. -/
def runInput (i : Input) (s : State) : Host.Outcome State Fault Refusal :=
  match i with
  | .transaction tw => exec (decode tw) s
  | .engine => .next (engineStep s)
  | .memRead who a => foreignRead who a s
  | .memWrite who a v => foreignWrite who a v s
  | .reset => .next (resetBlock s)

/-- The state with the step at hand taken off the list of steps to come. -/
def takePending (rest : List Input) (s : State) : State := { s with pending := rest }

/-- The state with one more step to come, before all others. -/
def pushPending (i : Input) (s : State) : State := { s with pending := i :: s.pending }

end Sys2Proof.Machine
end

