-- ==== Sys2Proof/Machine/Step.lean ====
section
/-! DEFINITION. One step of the machine: the next step the list names, and the engine's turn where the list is empty
(`00_scope.md` R17, `41_apply_command.md` R136). -/

namespace Sys2Proof.Machine

/-- The next step. A list that has run out leaves the engine alone to run, as weak fairness has it (R136; DESIGN CHOICE, log
entry 1). -/
def step (s : State) : Host.Outcome State Fault Refusal :=
  match s.pending with
  | [] => .next (engineStep s)
  | i :: rest => runInput i (takePending rest s)

/-- The state whose next step is the host transaction of a table word; where `w` is no transaction word there is none
to place and the state stays (log entries 1 and 2). -/
def State.withFetchWord (s : State) (nbits w : Nat) : State :=
  match tableTransWord nbits w with
  | some tw => pushPending (.transaction tw) s
  | none => s

end Sys2Proof.Machine
end

