-- ==== Sys2Proof/Safety.lean ====
section
/-! DEFINITION. The terms the statements use: the invariants of `10_state.md` R46 and of memory, the buffer of the call in
progress, the premises of `41_apply_command.md` R131, what a call leaves in memory, and the order of byte accesses. -/

namespace Sys2Proof.Machine

/-! ## Invariants -/

/-- The status record (R46): at most one of BUSY, DONE, ERR is 1; `ERRCODE ≠ 0` exactly when `ERR = 1`; `ERRCODE ≤ 5`. -/
def statusInv (s : State) : Prop :=
  ¬(s.busy = true ∧ s.done = true) ∧ ¬(s.busy = true ∧ s.err = true) ∧ ¬(s.done = true ∧ s.err = true) ∧
  (s.errCode ≠ 0#4 ↔ s.err = true) ∧ s.errCode.toNat ≤ 5

/-- The call in progress (R46): `IDX ≤ W_NWIN`, W_GAIN finite, `W_BASE + 2·W_NWIN ≤ 2^AW`. -/
def callInv (s : State) : Prop :=
  s.busy = true →
    s.idx.toNat ≤ s.wNwin.toNat ∧ isFinite s.wGain = true ∧
    s.wBase.toNat + 2 * s.wNwin.toNat ≤ 2 ^ s.cfg.aw

/-- What R46 says of every reachable state, but for its clause on ODD, which speaks of an earlier command. -/
def machineInv (s : State) : Prop := statusInv s ∧ callInv s

/-- Memory has its canonical form and lists existing addresses alone (R50). -/
def memoryInv (s : State) : Prop :=
  Memory.wf s.mem = true ∧ ∀ c ∈ s.mem, c.1 < 2 ^ s.cfg.aw

/-! ## The call in progress -/

/-- An address of the complete windows of the call in progress (R64). -/
def inWindows (base : Word) (n : Nat) (a : Nat) : Prop :=
  base.toNat ≤ a ∧ a < base.toNat + 2 * n

/-- No access of a call over these windows faults (R131). -/
def admitted (cfg : Config) (base : Word) (n : Nat) : Prop :=
  ∀ a, inWindows base n a → memOK cfg a .read = true ∧ memOK cfg a .write = true

/-- The engine takes the next step: it is its turn, or no other step is to come. -/
def engineTurn (s : State) : Prop :=
  s.pending = [] ∨ ∃ rest, s.pending = .engine :: rest

/-- The next step is the host's, a write of CMD (R105). -/
def cmdWriteNext (s : State) : Prop :=
  ∃ tw rest, s.pending = .transaction tw :: rest ∧ twWe tw = true ∧ twRn tw = 4#4

/-- The next step is the host's, a write of STATUS with a 1 in bit `k` (R107). -/
def statusClearNext (s : State) (k : Nat) : Prop :=
  ∃ tw rest, s.pending = .transaction tw :: rest ∧ twWe tw = true ∧ twRn tw = 5#4 ∧
    (twWdata tw).getLsbD k = true

/-- The next step is reset (R215). -/
def resetNext (s : State) : Prop := ∃ rest, s.pending = .reset :: rest

/-- The next step is neither reset nor another master's write into the windows of the call in progress (R67, R220).
Another master's read, which changes nothing, does not matter here. -/
def leavesWindows (s : State) : Prop :=
  ¬resetNext s ∧
  ∀ who a v rest, s.pending = .memWrite who a v :: rest → ¬inWindows s.wBase s.wNwin.toNat a

/-! ## What a call leaves in memory (R131) -/

/-- The byte at `a` once the first `k` windows from `base` are processed with gain `g`, where memory held `before`. -/
def processedByte (before : Nat → Byte) (base : Word) (k : Nat) (g : Word) (a : Nat) : Byte :=
  if base.toNat ≤ a ∧ a < base.toNat + 2 * k then
    let i := (a - base.toNat) / 2
    let c := window (before (windowAddr base i)) (before (windowAddr base i + 1)) g
    if (a - base.toNat) % 2 = 0 then c.1 else c.2
  else before a

/-- A call is in progress, and of its windows exactly the first IDX are processed. -/
def callPrefix (before : Nat → Byte) (s : State) : Prop :=
  s.busy = true ∧
  ∀ a, inWindows s.wBase s.wNwin.toNat a →
    s.mem.read a = processedByte before s.wBase s.idx.toNat s.wGain a

/-! ## The total order of byte accesses (R66) -/

/-- The byte at `a` after the accesses of a trace (the latest first), where memory held `before`: that of the latest
performed write to `a`, or the initial content. -/
def byteAfter (before : Nat → Byte) : List Access → Nat → Byte
  | [], a => before a
  | .read _ _ _ :: rest, a => byteAfter before rest a
  | .write _ k v performed :: rest, a =>
    if performed = true ∧ k = a then v else byteAfter before rest a

/-- Every read of the trace that was performed returned the byte that stood there. -/
def readsLatest (before : Nat → Byte) : List Access → Prop
  | [] => True
  | .read _ k (some v) :: rest => v = byteAfter before rest k ∧ readsLatest before rest
  | .read _ _ none :: rest => readsLatest before rest
  | .write _ _ _ _ :: rest => readsLatest before rest

/-- Memory is what the trace's writes make of `before`, and every read saw the latest write (R50, R66). -/
def accessesInOrder (before : Nat → Byte) (s : State) : Prop :=
  (∀ a, s.mem.read a = byteAfter before s.trace a) ∧ readsLatest before s.trace

end Sys2Proof.Machine
end

