-- ==== Sys2Proof/Certificates/Slice0/Obligations.lean ====
section
/-! DEFINITION. The statements for the provers, from the numbered rules of `spec/`. An equation `t = { s with … }` is the
whole frame of an instruction: every field it does not name is unchanged, every byte of memory among them. -/

open Sys2Proof Sys2Proof.Machine

/-! ## Reset -/

/-- R45: the value of every register, field and latch right after reset, for all that the rule gives a value. The rule
calls W_BASE, W_NWIN, W_GAIN and memory unspecified: nothing is stated of them. -/
def Obligations.ResetStateHasTheTableOfResetValues : Prop :=
  State.reset.bufBase = 0x00000000#32 ∧ State.reset.bufLen = 0x00000000#32 ∧
  State.reset.gain = 0x3F800000#32 ∧ State.reset.bufValid = false ∧
  ctrlValue State.reset = 0x00000000#32 ∧ State.reset.busy = false ∧ State.reset.done = false ∧
  State.reset.err = false ∧ State.reset.odd = false ∧ State.reset.errCode = 0#4 ∧
  statusValue State.reset = 0x00000000#32 ∧ State.reset.idx = 0#31 ∧
  progressValue State.reset = 0x00000000#32

/-- Reset, a step of its own from every state, leaves buffer memory as it is (R218) and every register at its reset value
(R215), in a call or not (R217). That the platform, the rest of the step order, the read data and the record of accesses stay
too is the model's inference (DEDUCED, log entry 10). -/
def Obligations.ResetStepKeepsBufferMemory : Prop :=
  ∀ (s : State) (rest : List Input), s.pending = .reset :: rest →
    ∃ t, step s = .next t ∧ t.mem = s.mem ∧ t.trace = s.trace ∧ t.cfg = s.cfg ∧ t.pending = rest ∧
      t.returned = s.returned ∧ t.bufBase = 0x00000000#32 ∧ t.bufLen = 0x00000000#32 ∧
      t.gain = 0x3F800000#32 ∧ t.bufValid = false ∧ statusValue t = 0x00000000#32 ∧ t.idx = 0#31

/-! ## Transaction words -/

/-- A step whose turn is the host's runs the instruction its word decodes to, a well-formed one, on the state with that
turn taken off the list; and the word that `withFetchWord` places is the one the next step runs. -/
def Obligations.StepRunsTheDecodedTransaction : Prop :=
  (∀ (s : State) (tw : TransWord) (rest : List Input), s.pending = .transaction tw :: rest →
    (decode tw).WellFormed ∧ step s = exec (decode tw) { s with pending := rest }) ∧
  (∀ (s : State) (tw : TransWord),
    decodeTableWord 40 tw.toNat = some (decode tw) ∧
    step (s.withFetchWord 40 tw.toNat) = exec (decode tw) s)

/-- Words of `95_test_vectors.md` section 9 and the one of each row of R89 that they leave out decode as listed. -/
def Obligations.ListedWordsDecodeAsListed : Prop :=
  decode 0x0000000000#37 = .rdBufBase ∧ decode 0x1000001000#37 = .wrBufBase 0x00001000#32 ∧
  decode 0x0100000000#37 = .rdBufLen ∧ decode 0x1100000007#37 = .wrBufLen 0x00000007#32 ∧
  decode 0x0200000000#37 = .rdGain ∧ decode 0x127FC12345#37 = .wrGain 0x7FC12345#32 ∧
  decode 0x0300000000#37 = .rdCtrl ∧ decode 0x13FFFFFFFF#37 = .wrCtrl 0xFFFFFFFF#32 ∧
  decode 0x0400000000#37 = .rdCmd ∧ decode 0x1400000001#37 = .apply ∧
  decode 0x14DEADBEEF#37 = .wrCmdReserved 0xDEADBEEF#32 ∧ decode 0x0500000000#37 = .rdStatus ∧
  decode 0x150000000E#37 = .wrStatus 0x0000000E#32 ∧ decode 0x0600000000#37 = .rdProgress ∧
  decode 0x1612345678#37 = .wrProgress 0x12345678#32 ∧ decode 0x0700000000#37 = .rdRsvd7 ∧
  decode 0x0F00000000#37 = .rdRsvd8to15 15#4 ∧ decode 0x1700000000#37 = .wrRsvd7 0x00000000#32 ∧
  decode 0x19FFFFFFFF#37 = .wrRsvd8to15 9#4 0xFFFFFFFF#32

/-- Decoding the word of a well-formed instruction gives the instruction back, every operand at every value. -/
def Obligations.DecodingAnEncodedInstructionGivesItBack : Prop :=
  ∀ i : Instr, i.WellFormed → decode (encode i) = i

/-- The other direction: every word decodes to a well-formed instruction, a write word is the encoding of its
instruction, and a read word is that encoding but for its wdata, which the hardware ignores. -/
def Obligations.EveryWordIsAnEncoding : Prop :=
  ∀ tw : TransWord, (decode tw).WellFormed ∧
    (twWe tw = true → encode (decode tw) = tw) ∧
    (twWe tw = false → encode (decode tw) = mkTransWord false (twRn tw) 0x00000000#32)

/-- R89: the table is total; the first row that matches a word is the row of the instruction it decodes to; and the only
two rows that match one word are APPLY and WR_CMD_RESERVED, APPLY first. -/
def Obligations.OpcodeTableSelectsTheDecodedRow : Prop :=
  ∀ tw : TransWord,
    (∃ row, tableRow tw = some row ∧ row.mnemonic = instrMnemonic (decode tw)) ∧
    (∀ (i j : Nat) (r r' : OpRow), opcodeTable[i]? = some r → opcodeTable[j]? = some r' → i < j →
      rowMatches r tw = true → rowMatches r' tw = true →
      r.mnemonic = "APPLY" ∧ r'.mnemonic = "WR_CMD_RESERVED")

/-- R83: the bits that R78 drops may hold any value: two words that agree on the bits that are read have one effect. -/
def Obligations.DroppedOperandBitsAreIgnored : Prop :=
  ∀ (s : State) (w w' : Word),
    (w.toNat % 2 ^ s.cfg.aw = w'.toNat % 2 ^ s.cfg.aw → exec (.wrBufBase w) s = exec (.wrBufBase w') s) ∧
    (w.getLsbD 0 = w'.getLsbD 0 → exec (.wrCtrl w) s = exec (.wrCtrl w') s) ∧
    (w.getLsbD 1 = w'.getLsbD 1 → w.getLsbD 2 = w'.getLsbD 2 → w.getLsbD 3 = w'.getLsbD 3 →
      exec (.wrStatus w) s = exec (.wrStatus w') s) ∧
    exec (.wrProgress w) s = exec (.wrProgress w') s ∧ exec (.wrRsvd7 w) s = exec (.wrRsvd7 w') s ∧
    (∀ rn, exec (.wrRsvd8to15 rn w) s = exec (.wrRsvd8to15 rn w') s) ∧
    (∀ rn, decode (mkTransWord false rn w) = decode (mkTransWord false rn w'))

/-- The assembler (R86) and the pseudo-instructions (R87): a line's word decodes to the transaction of its register, and a
pseudo-instruction stands for the listed transactions. -/
def Obligations.AssemblerLinesDecodeAsWritten : Prop :=
  (∀ r : Reg, r.WellFormed →
    twWe (assemble (.rd r)) = false ∧ twRn (assemble (.rd r)) = regNumber r ∧
    regByteOffset r = 4 * (twRn (assemble (.rd r))).toNat ∧
    ∀ imm, twWe (assemble (.wr r imm)) = true ∧ twRn (assemble (.wr r imm)) = regNumber r ∧
      twWdata (assemble (.wr r imm)) = imm) ∧
  (expandPseudo .apply).map (fun l => decode (assemble l)) = [.apply] ∧
  (∀ b l, (expandPseudo (.setbuf b l)).map (fun x => decode (assemble x)) =
    [.wrBufBase b, .wrBufLen l, .wrCtrl 0x00000001#32]) ∧
  (expandPseudo .nobuf).map (fun l => decode (assemble l)) = [.wrCtrl 0x00000000#32] ∧
  (∀ g, (expandPseudo (.setgain g)).map (fun l => decode (assemble l)) = [.wrGain g]) ∧
  (expandPseudo .ack).map (fun l => decode (assemble l)) = [.wrStatus 0x0000000E#32] ∧
  decode (assemble waitLine) = .rdStatus ∧
  (∀ s, waitEnds (statusValue s) = true ↔ s.busy = false)

/-! ## Register reads -/

/-- R96, R98, R100: the word of the read decodes to it, and in every state, a call in progress or not, the read returns
the register (BUF_BASE with its bits at and above AW reading 0) and changes nothing else. -/
def Obligations.BufferAndGainReadsReturnTheRegisters : Prop :=
  ∀ (tw : TransWord) (s : State),
    (tw &&& 0x1F00000000#37 = 0x0000000000#37 → decode tw = .rdBufBase ∧
      ∃ v : Word, exec .rdBufBase s = .next { s with returned := v :: s.returned } ∧
        v.toNat = s.bufBase.toNat % 2 ^ s.cfg.aw) ∧
    (tw &&& 0x1F00000000#37 = 0x0100000000#37 → decode tw = .rdBufLen ∧
      exec .rdBufLen s = .next { s with returned := s.bufLen :: s.returned }) ∧
    (tw &&& 0x1F00000000#37 = 0x0200000000#37 → decode tw = .rdGain ∧
      exec .rdGain s = .next { s with returned := s.gain :: s.returned })

/-- R102, R104, R108: CTRL reads as BUF_VALID in bit 0 and zeros, CMD as 0, PROGRESS as IDX with bit 31 zero. -/
def Obligations.CtrlCmdAndProgressReads : Prop :=
  ∀ (tw : TransWord) (s : State),
    (tw &&& 0x1F00000000#37 = 0x0300000000#37 → decode tw = .rdCtrl ∧
      exec .rdCtrl s =
        .next { s with returned := (if s.bufValid = true then 0x00000001#32 else 0x00000000#32) :: s.returned }) ∧
    (tw &&& 0x1F00000000#37 = 0x0400000000#37 → decode tw = .rdCmd ∧
      exec .rdCmd s = .next { s with returned := 0x00000000#32 :: s.returned }) ∧
    (tw &&& 0x1F00000000#37 = 0x0600000000#37 → decode tw = .rdProgress ∧
      ∃ v : Word, exec .rdProgress s = .next { s with returned := v :: s.returned } ∧
        v.toNat = s.idx.toNat)

/-- R106, with R33: the layout of STATUS bit by bit; a read of it clears nothing. -/
def Obligations.StatusReadShowsEveryFieldInItsPlace : Prop :=
  ∀ (tw : TransWord) (s : State), tw &&& 0x1F00000000#37 = 0x0500000000#37 → decode tw = .rdStatus ∧
    ∃ v : Word, exec .rdStatus s = .next { s with returned := v :: s.returned } ∧
      v.getLsbD 0 = s.busy ∧ v.getLsbD 1 = s.done ∧ v.getLsbD 2 = s.err ∧ v.getLsbD 3 = s.odd ∧
      v.extractLsb' 4 4 = s.errCode ∧ v.extractLsb' 8 24 = 0#24 ∧
      v.toNat = (if s.busy then 1 else 0) + (if s.done then 2 else 0) + (if s.err then 4 else 0) +
        (if s.odd then 8 else 0) + 16 * s.errCode.toNat

/-- R109, R110, R111: the reserved numbers read 0 and a write of them or of PROGRESS changes nothing at all. -/
def Obligations.ReservedRegistersReadZeroAndIgnoreWrites : Prop :=
  ∀ (tw : TransWord) (s : State),
    (tw &&& 0x1F00000000#37 = 0x1600000000#37 → decode tw = .wrProgress (twWdata tw) ∧
      exec (.wrProgress (twWdata tw)) s = .next s) ∧
    (tw &&& 0x1F00000000#37 = 0x0700000000#37 → decode tw = .rdRsvd7 ∧
      exec .rdRsvd7 s = .next { s with returned := 0x00000000#32 :: s.returned }) ∧
    (tw &&& 0x1800000000#37 = 0x0800000000#37 → decode tw = .rdRsvd8to15 (twRn tw) ∧
      exec (.rdRsvd8to15 (twRn tw)) s = .next { s with returned := 0x00000000#32 :: s.returned }) ∧
    (tw &&& 0x1F00000000#37 = 0x1700000000#37 → decode tw = .wrRsvd7 (twWdata tw) ∧
      exec (.wrRsvd7 (twWdata tw)) s = .next s) ∧
    (tw &&& 0x1800000000#37 = 0x1800000000#37 → decode tw = .wrRsvd8to15 (twRn tw) (twWdata tw) ∧
      exec (.wrRsvd8to15 (twRn tw) (twWdata tw)) s = .next s)

/-! ## Register writes -/

/-- R97, R99, R101, R103: a write sets its register, whatever the value and whether or not a call is in progress, and
changes nothing else; the read of the register then returns what the rule says it holds. -/
def Obligations.ConfigurationWritesSetTheirRegister : Prop :=
  ∀ (tw : TransWord) (s : State),
    (tw &&& 0x1F00000000#37 = 0x1000000000#37 → decode tw = .wrBufBase (twWdata tw) ∧
      ∃ t v, exec (.wrBufBase (twWdata tw)) s = .next t ∧ t = { s with bufBase := t.bufBase } ∧
        exec .rdBufBase t = .next { t with returned := v :: t.returned } ∧
        v.toNat = (twWdata tw).toNat % 2 ^ s.cfg.aw) ∧
    (tw &&& 0x1F00000000#37 = 0x1100000000#37 → decode tw = .wrBufLen (twWdata tw) ∧
      ∃ t, exec (.wrBufLen (twWdata tw)) s = .next t ∧ t = { s with bufLen := twWdata tw } ∧
        exec .rdBufLen t = .next { t with returned := twWdata tw :: t.returned }) ∧
    (tw &&& 0x1F00000000#37 = 0x1200000000#37 → decode tw = .wrGain (twWdata tw) ∧
      ∃ t, exec (.wrGain (twWdata tw)) s = .next t ∧ t = { s with gain := twWdata tw } ∧
        exec .rdGain t = .next { t with returned := twWdata tw :: t.returned }) ∧
    (tw &&& 0x1F00000000#37 = 0x1300000000#37 → decode tw = .wrCtrl (twWdata tw) ∧
      ∃ t v, exec (.wrCtrl (twWdata tw)) s = .next t ∧
        t = { s with bufValid := (twWdata tw).getLsbD 0 } ∧
        exec .rdCtrl t = .next { t with returned := v :: t.returned } ∧
        v.toNat = (twWdata tw).toNat % 2)

/-- R107: a write of STATUS clears DONE, ERR with ERRCODE, and ODD where its mask bit is 1, leaves each where the bit is
0, and changes nothing else: BUSY and IDX among the rest, in a call or not. -/
def Obligations.StatusWriteClearsByMask : Prop :=
  ∀ (tw : TransWord) (s : State), tw &&& 0x1F00000000#37 = 0x1500000000#37 →
    decode tw = .wrStatus (twWdata tw) ∧
    ∃ t, exec (.wrStatus (twWdata tw)) s = .next t ∧
      t = { s with done := t.done, err := t.err, errCode := t.errCode, odd := t.odd } ∧
      (tw.getLsbD 1 = true → t.done = false) ∧ (tw.getLsbD 1 = false → t.done = s.done) ∧
      (tw.getLsbD 2 = true → t.err = false ∧ t.errCode = 0#4) ∧
      (tw.getLsbD 2 = false → t.err = s.err ∧ t.errCode = s.errCode) ∧
      (tw.getLsbD 3 = true → t.odd = false) ∧ (tw.getLsbD 3 = false → t.odd = s.odd)

/-! ## The command register -/

/-- R121: a write of CMD while BUSY = 1 has no effect of any kind, whatever its data. -/
def Obligations.CommandWhileBusyIsDropped : Prop :=
  ∀ (tw : TransWord) (s : State), tw &&& 0x1F00000000#37 = 0x1400000000#37 → s.busy = true →
    (decode tw = .apply ∨ decode tw = .wrCmdReserved (twWdata tw)) ∧ exec (decode tw) s = .next s

/-- R122: while BUSY = 0 a write of CMD, of every word, first clears the record: it does what it would do had DONE, ERR,
ODD, ERRCODE and IDX been 0 before, and DONE and IDX are 0 after it. -/
def Obligations.CommandFirstClearsTheRecord : Prop :=
  ∀ (tw : TransWord) (s : State), tw &&& 0x1F00000000#37 = 0x1400000000#37 → s.busy = false →
    exec (decode tw) s =
      exec (decode tw) { s with done := false, err := false, odd := false, errCode := 0#4, idx := 0#31 } ∧
    ∃ t, exec (decode tw) s = .next t ∧ t.done = false ∧ t.idx = 0#31

/-- R81, R187: every word but 0x00000001 written while BUSY = 0 is refused with ILLEGAL_CMD and changes STATUS and IDX
alone. -/
def Obligations.ReservedCommandWordIsIllegal : Prop :=
  ∀ (tw : TransWord) (s : State), tw &&& 0x1F00000000#37 = 0x1400000000#37 → tw ≠ 0x1400000001#37 →
    s.busy = false →
    decode tw = .wrCmdReserved (twWdata tw) ∧
    exec (.wrCmdReserved (twWdata tw)) s =
      .next { s with done := false, err := true, odd := false, errCode := 1#4, busy := false, idx := 0#31 }

/-- R123: APPLY in an idle state is refused by the first check that fails, in the order absent handle, gain not finite,
range past the end; the refusal changes STATUS and IDX alone. -/
def Obligations.ApplyIsRefusedByTheFirstFailingCheck : Prop :=
  ∀ (s : State), s.busy = false →
    (s.bufValid = false →
      exec .apply s =
        .next { s with done := false, err := true, odd := false, errCode := 2#4, busy := false, idx := 0#31 }) ∧
    (s.bufValid = true → s.gain.extractLsb' 23 8 = 0xFF#8 →
      exec .apply s =
        .next { s with done := false, err := true, odd := false, errCode := 3#4, busy := false, idx := 0#31 }) ∧
    (s.bufValid = true → s.gain.extractLsb' 23 8 ≠ 0xFF#8 →
      2 ^ s.cfg.aw < s.bufBase.toNat % 2 ^ s.cfg.aw + s.bufLen.toNat →
      exec .apply s =
        .next { s with done := false, err := true, odd := false, errCode := 4#4, busy := false, idx := 0#31 })

/-- R124: where the checks pass, APPLY latches base, window count and gain, sets ODD to the length's bit 0 and BUSY to 1,
and makes no memory access. -/
def Obligations.ApplyIsAcceptedAndLatchesItsOperands : Prop :=
  ∀ (s : State), s.busy = false → s.bufValid = true → s.gain.extractLsb' 23 8 ≠ 0xFF#8 →
    s.bufBase.toNat % 2 ^ s.cfg.aw + s.bufLen.toNat ≤ 2 ^ s.cfg.aw →
    ∃ t, exec .apply s = .next t ∧
      t = { s with done := false, err := false, errCode := 0#4, busy := true, idx := 0#31,
                   wBase := t.wBase, wNwin := t.wNwin, wGain := s.gain, odd := t.odd } ∧
      t.wBase.toNat = s.bufBase.toNat % 2 ^ s.cfg.aw ∧ t.wNwin.toNat = s.bufLen.toNat / 2 ∧
      t.odd = decide (s.bufLen.toNat % 2 = 1)

/-- R128: with a length of 0 or 1 the call is accepted whatever the base, its first engine step is the finish step, and no
memory access is made; an absent handle is refused with NULL_BUFFER all the same. -/
def Obligations.ZeroWindowCallFinishesWithoutAccess : Prop :=
  ∀ (s : State), s.busy = false → s.bufLen.toNat ≤ 1 →
    (s.bufValid = true → s.gain.extractLsb' 23 8 ≠ 0xFF#8 →
      ∃ u, exec .apply s = .next u ∧ u.busy = true ∧ u.wNwin = 0#31 ∧
        ∃ t, t = engineStep u ∧ t.busy = false ∧ t.done = true ∧ t.err = false ∧ t.errCode = 0#4 ∧
          t.odd = decide (s.bufLen.toNat = 1) ∧ t.mem = s.mem ∧ t.trace = s.trace) ∧
    (s.bufValid = false → ∃ t, exec .apply s = .next t ∧ t.err = true ∧ t.errCode = 2#4 ∧ t.busy = false)

/-! ## The engine -/

/-- R126: a window step in which no access faults reads b0 and b1, writes both bytes of W back to the same two addresses,
the four accesses in that order and no other, and adds 1 to IDX; every other byte and field stays. Where an access is refused
it raises MEM_FAULT (R130), with IDX as it was. -/
def Obligations.WindowStepProcessesOneWindow : Prop :=
  ∀ (s : State) (a : Nat), s.pending = [] → s.busy = true → s.idx.toNat < s.wNwin.toNat →
    a = s.wBase.toNat + 2 * s.idx.toNat →
    (memOK s.cfg a .read = true → memOK s.cfg (a + 1) .read = true →
      memOK s.cfg a .write = true → memOK s.cfg (a + 1) .write = true →
      ∃ t c0 c1, (c0, c1) = window (s.mem.read a) (s.mem.read (a + 1)) s.wGain ∧ step s = .next t ∧
        t = { s with mem := t.mem, idx := t.idx, trace := t.trace } ∧
        t.idx.toNat = s.idx.toNat + 1 ∧
        t.trace = [.write .engine (a + 1) c1 true, .write .engine a c0 true,
                   .read .engine (a + 1) (some (s.mem.read (a + 1))),
                   .read .engine a (some (s.mem.read a))] ++ s.trace ∧
        ∀ x, t.mem.read x = if x = a then c0 else if x = a + 1 then c1 else s.mem.read x) ∧
    (memOK s.cfg a .read = false ∨ memOK s.cfg (a + 1) .read = false ∨
      memOK s.cfg a .write = false ∨ memOK s.cfg (a + 1) .write = false →
      ∃ t, step s = .next t ∧ t.busy = false ∧ t.err = true ∧ t.errCode = 5#4 ∧ t.idx = s.idx)

/-- R127: the finish step clears BUSY and sets DONE, and does nothing else. After it, and in every idle state, the engine
has no enabled step. -/
def Obligations.FinishStepEndsTheCall : Prop :=
  (∀ s : State, s.pending = [] → s.busy = true → s.idx = s.wNwin →
    step s = .next { s with busy := false, done := true }) ∧
  (∀ s : State, s.pending = [] → s.busy = false → step s = .next s)

/-- R198, R130, with R190: what each of the four possible memory faults of a window step leaves. The accesses before the
faulting one stay performed, the later ones are not issued, MEM_FAULT is recorded and the engine has no step after it; where the
windows below IDX were processed they stay so, and the later ones keep their bytes. -/
def Obligations.MemoryFaultLeavesTheTabulatedBytes : Prop :=
  ∀ (s : State) (a : Nat), s.pending = [] → s.busy = true → s.idx.toNat < s.wNwin.toNat →
    a = s.wBase.toNat + 2 * s.idx.toNat →
    ∃ t, step s = .next t ∧
      ((memOK s.cfg a .read = false →
          t = { s with busy := false, err := true, errCode := 5#4,
                       trace := .read .engine a none :: s.trace }) ∧
       (memOK s.cfg a .read = true → memOK s.cfg (a + 1) .read = false →
          t = { s with busy := false, err := true, errCode := 5#4,
                       trace := [.read .engine (a + 1) none,
                                 .read .engine a (some (s.mem.read a))] ++ s.trace }) ∧
       (∀ c0 c1, (c0, c1) = window (s.mem.read a) (s.mem.read (a + 1)) s.wGain →
          memOK s.cfg a .read = true → memOK s.cfg (a + 1) .read = true →
          (memOK s.cfg a .write = false →
            t = { s with busy := false, err := true, errCode := 5#4,
                         trace := [.write .engine a c0 false,
                                   .read .engine (a + 1) (some (s.mem.read (a + 1))),
                                   .read .engine a (some (s.mem.read a))] ++ s.trace }) ∧
          (memOK s.cfg a .write = true → memOK s.cfg (a + 1) .write = false →
            t = { s with busy := false, err := true, errCode := 5#4, mem := t.mem,
                         trace := [.write .engine (a + 1) c1 false, .write .engine a c0 true,
                                   .read .engine (a + 1) (some (s.mem.read (a + 1))),
                                   .read .engine a (some (s.mem.read a))] ++ s.trace } ∧
            ∀ x, t.mem.read x = if x = a then c0 else s.mem.read x)) ∧
       (memOK s.cfg a .read = false ∨ memOK s.cfg (a + 1) .read = false ∨
          memOK s.cfg a .write = false ∨ memOK s.cfg (a + 1) .write = false →
          step t = .next t ∧
          ∀ (before : Nat → Byte) (x : Nat), callPrefix before s → inWindows s.wBase s.wNwin.toNat x →
            x ≠ a → t.mem.read x = processedByte before s.wBase t.idx.toNat s.wGain x))

/-- R64, R57: from every state that meets the machine's invariant, each access the engine's turn issues is at an address
of the complete windows of the call, which exists; there are at most four; and no access at all where BUSY = 0. -/
def Obligations.EngineAccessesStayInTheWindows : Prop :=
  ∀ (s t : State), machineInv s → engineTurn s → step s = .next t →
    ∃ new : List Access, t.trace = new ++ s.trace ∧ new.length ≤ 4 ∧ (s.busy = false → new = []) ∧
      ∀ x ∈ new, ∃ a, inWindows s.wBase s.wNwin.toNat a ∧ a < 2 ^ s.cfg.aw ∧
        ((∃ r, x = .read .engine a r) ∨ (∃ v p, x = .write .engine a v p))

/-- R138: no turn of the engine changes BUF_BASE, BUF_LEN, GAIN, CTRL or a latch other than IDX, or a byte of memory
outside the complete windows of the call in progress. -/
def Obligations.EngineKeepsRegistersAndOtherMemory : Prop :=
  ∀ (s t : State), engineTurn s → step s = .next t →
    t.bufBase = s.bufBase ∧ t.bufLen = s.bufLen ∧ t.gain = s.gain ∧ t.bufValid = s.bufValid ∧
    t.wBase = s.wBase ∧ t.wNwin = s.wNwin ∧ t.wGain = s.wGain ∧ t.cfg = s.cfg ∧ t.odd = s.odd ∧
    t.returned = s.returned ∧
    ∀ x, ¬inWindows s.wBase s.wNwin.toNat x → t.mem.read x = s.mem.read x

/-! ## The datapath -/

/-- R140: the value of a window's two bytes, the low byte at the lower address, as two's complement. -/
def Obligations.UnpackReadsLittleEndianTwosComplement : Prop :=
  ∀ b0 b1 : Byte,
    (b1.toNat < 128 → unpack16le b0 b1 = 256 * (b1.toNat : Int) + b0.toNat) ∧
    (128 ≤ b1.toNat → unpack16le b0 b1 = 256 * (b1.toNat : Int) + b0.toNat - 65536)

/-- R142, R173: unpacking and packing are inverse to each other. -/
def Obligations.UnpackAndPackAreInverse : Prop :=
  (∀ b0 b1 : Byte, pack16le (wrap16 (unpack16le b0 b1)) = (b0, b1)) ∧
  (∀ b0 b1 : Byte, pack16le (b1 ++ b0) = (b0, b1)) ∧
  (∀ r : Half, unpack16le (pack16le r).1 (pack16le r).2 = r.toInt) ∧
  (∀ s : Int, -32768 ≤ s → s ≤ 32767 →
    unpack16le (pack16le (wrap16 s)).1 (pack16le (wrap16 s)).2 = s)

/-- R148: the conversion of a sample is exact; hence it is injective. -/
def Obligations.SampleConversionIsExact : Prop :=
  ∀ s : Int, -32768 ≤ s → s ≤ 32767 →
    isFinite (cvtS16F32 s) = true ∧ val (cvtS16F32 s) = (s : ℚ) ∧
    signBit (cvtS16F32 s) = decide (s < 0) ∧
    ∀ s' : Int, -32768 ≤ s' → s' ≤ 32767 → cvtS16F32 s = cvtS16F32 s' → s = s'

/-- R146 for every real `x = m · 2^e` (log entry 16): `rne32` is the binary32 pattern nearest to `±x`, a tie going to the even fraction;
it is an infinity exactly from `2^128 − 2^103` on, and has the sign given to it. -/
def Obligations.RoundingIsToNearestTiesToEven : Prop :=
  ∀ (sign : Bool) (m : Nat) (e : Int),
    ((2 : ℚ) ^ (128 : ℕ) - 2 ^ (103 : ℕ) ≤ (m : ℚ) * 2 ^ e →
      rne32 sign m e = if sign then 0xFF800000#32 else 0x7F800000#32) ∧
    ((m : ℚ) * 2 ^ e < (2 : ℚ) ^ (128 : ℕ) - 2 ^ (103 : ℕ) →
      isFinite (rne32 sign m e) = true ∧ signBit (rne32 sign m e) = sign ∧
      ∀ q : Word, isFinite q = true →
        |val (rne32 sign m e) - (if sign then -1 else 1) * ((m : ℚ) * 2 ^ e)| ≤
          |val q - (if sign then -1 else 1) * ((m : ℚ) * 2 ^ e)| ∧
        (|val (rne32 sign m e) - (if sign then -1 else 1) * ((m : ℚ) * 2 ^ e)| =
            |val q - (if sign then -1 else 1) * ((m : ℚ) * 2 ^ e)| →
          val q ≠ val (rne32 sign m e) → fracField (rne32 sign m e) % 2 = 0))

/-- R149, R151: the product of finite operands is the exact real product rounded once, whichever way that real is written
as `m · 2^e`, with the exclusive or of the signs, a zero product included. -/
def Obligations.ProductIsRoundedOnce : Prop :=
  ∀ f g : Word, isFinite f = true → isFinite g = true →
    (∀ (m : Nat) (e : Int), (m : ℚ) * 2 ^ e = |val f| * |val g| →
      fmul32 f g = rne32 (signBit f ^^ signBit g) m e) ∧
    (val f = 0 ∨ val g = 0 →
      fmul32 f g = if (signBit f ^^ signBit g) = true then 0x80000000#32 else 0x00000000#32)

/-- R150: the product where an operand is not finite. -/
def Obligations.ProductOfNonFiniteOperands : Prop :=
  ∀ f g : Word,
    (isNaN f = true ∨ isNaN g = true → fmul32 f g = 0x7FC00000#32) ∧
    ((isInf f = true ∧ isFinite g = true ∧ val g = 0) ∨ (isInf g = true ∧ isFinite f = true ∧ val f = 0) →
      fmul32 f g = 0x7FC00000#32) ∧
    (isNaN f = false → isNaN g = false →
      ¬(isInf f = true ∧ isFinite g = true ∧ val g = 0) →
      ¬(isInf g = true ∧ isFinite f = true ∧ val f = 0) →
      isInf f = true ∨ isInf g = true →
      fmul32 f g = if (signBit f ^^ signBit g) = true then 0xFF800000#32 else 0x7F800000#32)

/-- R157, R156: the floor of a finite pattern is exact and is the mathematical floor; a zero keeps its sign; an infinity or
a NaN stays as it is. -/
def Obligations.FloorIsExact : Prop :=
  ∀ p : Word,
    (isFinite p = true →
      isFinite (floor32 p) = true ∧ val (floor32 p) = ((⌊val p⌋ : ℤ) : ℚ) ∧ (val p = 0 → floor32 p = p)) ∧
    (isFinite p = false → floor32 p = p)

/-- R155: the floor by value and the floor at bit level are one function of finite patterns. -/
def Obligations.FloorByValueIsFloorByBits : Prop :=
  ∀ p : Word, isFinite p = true → floor32 p = floor32Bits p

/-- R165, R171, R169: an integral value narrows to its residue modulo 65536, whatever its magnitude; within the range of a
sample that is the value itself, and from `2^39` on it is 0. The bound is sharp: R169's example, and the greatest value below
`2^39`, do not give 0. -/
def Obligations.NarrowingIsModulo65536 : Prop :=
  (∀ (q : Word) (n : Int), isFinite q = true → val q = (n : ℚ) →
    ((cvtF32S16w q).toNat : Int) = n % 65536 ∧
    (-32768 ≤ n → n ≤ 32767 → (cvtF32S16w q).toInt = n) ∧
    ((2 : Int) ^ 39 ≤ |n| → cvtF32S16w q = 0x0000#16)) ∧
  (val 0x527FFFFF#32 = ((2 : ℚ) ^ (38 : ℕ) - 2 ^ (14 : ℕ)) ∧ cvtF32S16w 0x527FFFFF#32 = 0xC000#16) ∧
  (val 0x52FFFFFF#32 = ((2 : ℚ) ^ (39 : ℕ) - 2 ^ (15 : ℕ)) ∧ cvtF32S16w 0x52FFFFFF#32 = 0x8000#16)

/-- R166, R167: an infinity or a NaN narrows to 0. -/
def Obligations.InfinitiesAndNaNsNarrowToZero : Prop :=
  ∀ q : Word, isInf q = true ∨ isNaN q = true → cvtF32S16w q = 0x0000#16

/-- R168: the narrowing at bit level computes the same for every pattern whose value is an integer, an infinity or a NaN. -/
def Obligations.NarrowingByValueIsNarrowingByBits : Prop :=
  ∀ q : Word, isFinite q = false ∨ (∃ n : Int, val q = (n : ℚ)) → cvtF32S16w q = cvtF32S16wBits q

/-- R158 (a) to (g): the facts about the three stages together, for a sample and a finite gain. -/
def Obligations.StageFactsOfASampleAndAGain : Prop :=
  ∀ (s : Int) (g : Word), -32768 ≤ s → s ≤ 32767 → isFinite g = true →
    let f := cvtS16F32 s
    let p := fmul32 f g
    let q := floor32 p
    (g = 0x3F800000#32 → p = f ∧ q = f ∧ val q = (s : ℚ)) ∧
    (val g = 0 → isFinite p = true ∧ val p = 0 ∧ isFinite q = true ∧ val q = 0) ∧
    (s ≠ 0 → val g ≠ 0 → isFinite p = true → val p ≠ 0) ∧
    (isInf p = true ↔ (2 : ℚ) ^ (128 : ℕ) - 2 ^ (103 : ℕ) ≤ |(s : ℚ)| * |val g|) ∧
    (isInf p = true → 2 ≤ |s|) ∧
    (isNaN p = false ∧ isNaN q = false) ∧
    (∀ k : Int, |val g| = (2 : ℚ) ^ k → |(s : ℚ)| * |val g| < (2 : ℚ) ^ (128 : ℕ) - 2 ^ (103 : ℕ) →
      (2 : ℚ) ^ (-126 : ℤ) ≤ |(s : ℚ)| * |val g| → isFinite p = true ∧ val p = (s : ℚ) * val g) ∧
    (g = 0xBF800000#32 → val q = -(s : ℚ))

/-- R176: the window function in one line: where the product is finite, the sample written is the floor of the rounded
product modulo 65536; where the product overflows, it is 0. -/
def Obligations.WindowIsTheFloorOfTheProductModulo65536 : Prop :=
  ∀ (b0 b1 : Byte) (g : Word), isFinite g = true →
    ∃ p, p = fmul32 (cvtS16F32 (unpack16le b0 b1)) g ∧
      (isFinite p = true →
        unpack16le (window b0 b1 g).1 (window b0 b1 g).2 % 65536 = ⌊val p⌋ % 65536) ∧
      (isFinite p = false → window b0 b1 g = (0x00#8, 0x00#8))

/-- R178, R179, R180: gain 1.0 is the identity, a zero gain of either sign silences, gain −1.0 negates modulo 2^16. -/
def Obligations.UnitZeroAndNegatingGains : Prop :=
  ∀ b0 b1 : Byte,
    window b0 b1 0x3F800000#32 = (b0, b1) ∧
    window b0 b1 0x00000000#32 = (0x00#8, 0x00#8) ∧ window b0 b1 0x80000000#32 = (0x00#8, 0x00#8) ∧
    (unpack16le b0 b1 ≠ -32768 → (windowResult b0 b1 0xBF800000#32).toInt = -unpack16le b0 b1) ∧
    (unpack16le b0 b1 = -32768 → windowResult b0 b1 0xBF800000#32 = 0x8000#16)

/-- R182: the values FLOOR32 reaches: an infinity, or an integer of bounded magnitude; every result is reached at gain 1.0;
with `|val(g)| ≤ 1` no product leaves −32768 to 32768, and only −32768 under gain −1 reaches 32768. -/
def Obligations.ReachableWindowValues : Prop :=
  (∀ (s : Int) (g : Word), -32768 ≤ s → s ≤ 32767 → isFinite g = true →
    let p := fmul32 (cvtS16F32 s) g
    let q := floor32 p
    (isInf q = true ∨
      (isFinite q = true ∧ ∃ n : Int, val q = (n : ℚ) ∧ |n| ≤ (2 ^ 24 - 1) * 2 ^ 104)) ∧
    (|val g| ≤ 1 → isFinite p = true ∧ -32768 ≤ val p ∧ val p ≤ 32768 ∧
      (val p = 32768 ↔ s = -32768 ∧ val g = -1))) ∧
  (∀ r : Half, ∃ b0 b1 : Byte, windowResult b0 b1 0x3F800000#32 = r)

/-- R181: two passes are not one pass: the two examples of the rule. -/
def Obligations.TwoPassesAreNotOnePass : Prop :=
  (∃ c, window 0x01#8 0x00#8 0x3F000000#32 = c ∧ window c.1 c.2 0x40000000#32 = (0x00#8, 0x00#8) ∧
    window 0x01#8 0x00#8 0x3F800000#32 = (0x01#8, 0x00#8)) ∧
  (∃ c d, window 0x20#8 0x4E#8 0x40000000#32 = c ∧ window c.1 c.2 0x3F000000#32 = d ∧
    unpack16le d.1 d.2 = -12768 ∧ unpack16le 0x20#8 0x4E#8 = 20000 ∧
    window 0x20#8 0x4E#8 0x3F800000#32 = (0x20#8, 0x4E#8))

/-! ## The machine as a whole -/

/-- The invariants of R46 (but for its clause on ODD) and of memory hold right after reset. -/
def Obligations.ResetMeetsTheInvariants : Prop :=
  machineInv State.reset ∧ memoryInv State.reset ∧
  accessesInOrder (fun a => State.reset.mem.read a) State.reset

/-- R46, but for its clause on ODD: every step of every agent keeps the invariant. -/
def Obligations.EveryStepKeepsTheMachineInvariant : Prop :=
  ∀ s t : State, machineInv s → step s = .next t → machineInv t

/-- Every step keeps memory in canonical form, with existing addresses alone (R50; the form is the model's, log entry 3). -/
def Obligations.EveryStepKeepsMemoryCanonical : Prop :=
  ∀ s t : State, memoryInv s → step s = .next t → memoryInv t

/-- R66, R50: every step keeps the total order of accesses in accord with memory: a read returns the latest byte written
before it, by whichever agent, and memory holds what the writes made of its content `before`. -/
def Obligations.EveryStepKeepsAccessesSequentiallyConsistent : Prop :=
  ∀ (before : Nat → Byte) (s t : State), accessesInOrder before s → step s = .next t →
    accessesInOrder before t

/-- R95: every transaction completes in every state and touches no buffer memory; no step is refused, and the one step
that stops is another master's access to an address that does not exist. -/
def Obligations.TransactionsAlwaysComplete : Prop :=
  (∀ (i : Instr) (s : State), ∃ t, exec i s = .next t ∧ t.mem = s.mem ∧ t.trace = s.trace ∧
    t.cfg = s.cfg ∧ t.pending = s.pending ∧
    (t.returned = s.returned ∨ ∃ v, t = { s with returned := v :: s.returned })) ∧
  (∀ s : State, (∃ t, step s = .next t) ∨
    ∃ a, step s = .fault (.noSuchAddress a) ∧ 2 ^ s.cfg.aw ≤ a ∧
      ((∃ who rest, s.pending = .memRead who a :: rest) ∨
       (∃ who v rest, s.pending = .memWrite who a v :: rest)))

/-- R112, R135: while BUSY = 1 no transaction reaches the call in progress: the latches, IDX, BUSY, memory and the accesses
stay, and the engine's next turn does to memory, IDX and the order of accesses what it would have done without it. -/
def Obligations.TransactionsDoNotReachTheCallInProgress : Prop :=
  ∀ (i : Instr) (s : State), s.busy = true →
    ∃ t, exec i s = .next t ∧ t.busy = true ∧ t.idx = s.idx ∧ t.wBase = s.wBase ∧ t.wNwin = s.wNwin ∧
      t.wGain = s.wGain ∧ t.mem = s.mem ∧ t.trace = s.trace ∧
      (engineStep t).mem = (engineStep s).mem ∧ (engineStep t).trace = (engineStep s).trace ∧
      (engineStep t).idx = (engineStep s).idx ∧ (engineStep t).busy = (engineStep s).busy

/-- R34: BUSY is set by the acceptance of an APPLY and by nothing else; it is cleared by the finish step, by a memory fault
in a window step and by reset, and by nothing else. -/
def Obligations.BusyChangesOnlyAsStated : Prop :=
  ∀ s t : State, step s = .next t →
    (s.busy = false → t.busy = true →
      (∃ tw rest, s.pending = .transaction tw :: rest ∧ decode tw = .apply) ∧ s.bufValid = true ∧
        isFinite s.gain = true ∧ s.bufBase.toNat % 2 ^ s.cfg.aw + s.bufLen.toNat ≤ 2 ^ s.cfg.aw) ∧
    (s.busy = true → t.busy = false →
      resetNext s ∨
      (engineTurn s ∧ s.idx = s.wNwin ∧ t.done = true ∧ t.mem = s.mem ∧ t.trace = s.trace) ∨
      (engineTurn s ∧ s.idx.toNat < s.wNwin.toNat ∧ t.err = true ∧ t.errCode = 5#4 ∧ t.idx = s.idx ∧
        t.done = s.done))

/-- R35, R36, R37: what sets and what clears DONE, ERR and ODD, and nothing else does. -/
def Obligations.RecordBitsChangeOnlyAsStated : Prop :=
  ∀ s t : State, step s = .next t →
    (s.done = false → t.done = true → engineTurn s ∧ s.busy = true ∧ s.idx = s.wNwin) ∧
    (s.done = true → t.done = false →
      (cmdWriteNext s ∧ s.busy = false) ∨ statusClearNext s 1 ∨ resetNext s) ∧
    (s.err = false → t.err = true →
      (cmdWriteNext s ∧ s.busy = false) ∨ (engineTurn s ∧ s.busy = true ∧ s.idx.toNat < s.wNwin.toNat)) ∧
    (s.err = true → t.err = false →
      (cmdWriteNext s ∧ s.busy = false) ∨ statusClearNext s 2 ∨ resetNext s) ∧
    (s.odd = false → t.odd = true → cmdWriteNext s ∧ s.busy = false ∧ t.busy = true ∧
      s.bufLen.toNat % 2 = 1) ∧
    (s.odd = true → t.odd = false →
      (cmdWriteNext s ∧ s.busy = false) ∨ statusClearNext s 3 ∨ resetNext s)

/-- The other masters' byte accesses (R42, R50, R66, R73): a read by a master changes nothing but the order of accesses,
where it stands with the byte it returned; an admitted write changes the one byte; a refused one changes none. -/
def Obligations.OtherMastersAccessOneByte : Prop :=
  ∀ (s : State) (who : Master) (a : Nat) (v : Byte) (rest : List Input), a < 2 ^ s.cfg.aw →
    (s.pending = .memRead who a :: rest →
      step s = .next { s with
        pending := rest
        trace := .read (.master who) a
          (if memOK s.cfg a .read = true then some (s.mem.read a) else none) :: s.trace }) ∧
    (s.pending = .memWrite who a v :: rest →
      ∃ t, step s = .next t ∧ t = { s with mem := t.mem, pending := rest, trace := t.trace } ∧
        t.trace = .write (.master who) a v (memOK s.cfg a .write) :: s.trace ∧
        (memOK s.cfg a .write = true → ∀ x, t.mem.read x = if x = a then v else s.mem.read x) ∧
        (memOK s.cfg a .write = false → t.mem = s.mem))

/-! ## The call -/

/-- R131, with R124 to R127 and R137: from an idle state, APPLY on an admitted buffer that fits, with no other agent's
step to come, runs to the end in `BUF_LEN/2 + 2` steps. Memory is then the window function mapped over the complete windows, a
byte elsewhere (the odd trailing one among them) unchanged; DONE is set, ERR is not, ODD tells the odd length. -/
def Obligations.CallMapsTheWindowFunctionOverTheBuffer : Prop :=
  ∀ (s : State), s.busy = false → s.pending = [.transaction 0x1400000001#37] → s.bufValid = true →
    isFinite s.gain = true → s.bufBase.toNat % 2 ^ s.cfg.aw + s.bufLen.toNat ≤ 2 ^ s.cfg.aw →
    admitted s.cfg (bufBaseValue s) (s.bufLen.toNat / 2) →
    ∃ t : State, Sys2Proof.core.run (s.bufLen.toNat / 2 + 2) s = .next t ∧
      t.busy = false ∧ t.done = true ∧ t.err = false ∧ t.errCode = 0#4 ∧
      t.odd = decide (s.bufLen.toNat % 2 = 1) ∧ t.idx.toNat = s.bufLen.toNat / 2 ∧
      t.bufBase = s.bufBase ∧ t.bufLen = s.bufLen ∧ t.gain = s.gain ∧ t.bufValid = s.bufValid ∧
      t.trace.length = 4 * (s.bufLen.toNat / 2) + s.trace.length ∧
      ∀ a, t.mem.read a =
        processedByte (fun x => s.mem.read x) (bufBaseValue s) (s.bufLen.toNat / 2) s.gain a

/-- R67, R131, R132 for every interleaving: while a call is in progress, whatever agent steps next, so long as it is
neither reset nor another master writing into the windows, exactly the windows below IDX are processed and the latches stay,
until the finish step ends the call with all of them processed. -/
def Obligations.InterleavedCallKeepsItsProcessedPrefix : Prop :=
  ∀ (before : Nat → Byte) (s t : State), machineInv s → callPrefix before s →
    admitted s.cfg s.wBase s.wNwin.toNat → leavesWindows s → step s = .next t →
    (callPrefix before t ∧ t.cfg = s.cfg ∧ t.wBase = s.wBase ∧ t.wNwin = s.wNwin ∧ t.wGain = s.wGain ∧
      s.idx.toNat ≤ t.idx.toNat) ∨
    (t.busy = false ∧ t.done = true ∧ t.err = false ∧ t.idx = t.wNwin ∧ t.wNwin = s.wNwin ∧
      ∀ a, inWindows s.wBase s.wNwin.toNat a →
        t.mem.read a = processedByte before s.wBase s.wNwin.toNat s.wGain a)

/-- R136: left to itself the engine ends a call in at most one step for each window left and one more, whatever the
platform refuses; it ends with DONE, all windows counted, or with MEM_FAULT, and never with both. -/
def Obligations.CallEndsInBoundedSteps : Prop :=
  ∀ (s : State), machineInv s → s.busy = true → s.pending = [] →
    ∃ (k : Nat) (t : State), k ≤ s.wNwin.toNat - s.idx.toNat + 1 ∧ Sys2Proof.core.run k s = .next t ∧
      t.busy = false ∧
      ((t.done = true ∧ t.err = false ∧ t.idx = s.wNwin ∧ k = s.wNwin.toNat - s.idx.toNat + 1) ∨
       (t.done = false ∧ t.err = true ∧ t.errCode = 5#4 ∧ t.idx.toNat + 1 = s.idx.toNat + k))

/-- R137, R44, R177: two calls that agree on the platform, the latches, IDX and the bytes of the windows do the same to
IDX, BUSY, DONE, ERR and those bytes at every number of the engine's steps, whatever else differs. -/
def Obligations.CallDependsOnItsOperandsAlone : Prop :=
  ∀ (k : Nat) (s u : State), s.pending = [] → u.pending = [] → s.busy = true → u.busy = true →
    machineInv s → machineInv u → s.cfg = u.cfg → s.wBase = u.wBase → s.wNwin = u.wNwin → s.wGain = u.wGain →
    s.idx = u.idx →
    (∀ a, inWindows s.wBase s.wNwin.toNat a → s.mem.read a = u.mem.read a) →
    ∃ s' u' : State, Sys2Proof.core.run k s = .next s' ∧ Sys2Proof.core.run k u = .next u' ∧
      s'.idx = u'.idx ∧ s'.busy = u'.busy ∧ s'.done = u'.done ∧ s'.err = u'.err ∧
      s'.errCode = u'.errCode ∧
      ∀ a, inWindows s.wBase s.wNwin.toNat a → s'.mem.read a = u'.mem.read a
end

