-- ==== Sys2Proof/Laws/Memory.lean ====
section
/-! SUPPORT. The laws of buffer memory: a read after a write, and the canonical form, which every operation keeps. -/

namespace Sys2Proof.Machine

/-! ## Reading after a change -/

@[simp] theorem read_nil (a : Nat) : Memory.read [] a = unlistedByte := rfl

theorem read_erase (m : Memory) (a x : Nat) :
    (Memory.erase m a).read x = if x = a then unlistedByte else Memory.read m x := by
  induction m with
  | nil => simp [Memory.erase]
  | cons c rest ih =>
    obtain ⟨k, v⟩ := c
    by_cases hk : k = a
    · by_cases hx : x = a
      · subst hx; simpa [Memory.erase, hk] using ih
      · simp [Memory.erase, Memory.read, hk, ih, hx, Ne.symm hx]
    · by_cases hx : k = x
      · subst hx; simp [Memory.erase, Memory.read, hk]
      · simp [Memory.erase, Memory.read, hk, hx, ih]

theorem read_insert (m : Memory) (a x : Nat) (b : Byte) :
    (Memory.insert m a b).read x = if x = a then b else Memory.read m x := by
  induction m with
  | nil =>
    by_cases hx : x = a
    · simp [Memory.insert, Memory.read, hx]
    · simp [Memory.insert, Memory.read, hx, Ne.symm hx]
  | cons c rest ih =>
    obtain ⟨k, v⟩ := c
    unfold Memory.insert
    by_cases hx : x = a
    · subst hx
      split
      · simp [Memory.read]
      · split
        · simp [Memory.read]
        · rename_i h1 h2
          simp [Memory.read, Ne.symm h2, ih]
    · split
      · simp [Memory.read, Ne.symm hx]
      · split
        · rename_i h1 h2
          subst h2
          simp [Memory.read, Ne.symm hx]
        · simp [Memory.read, hx, ih]

/-- A read after a write gives the byte written there, and every other address as before. -/
theorem read_write (m : Memory) (a x : Nat) (b : Byte) :
    (Memory.write m a b).read x = if x = a then b else Memory.read m x := by
  unfold Memory.write
  split
  · rename_i h; rw [read_erase, h]
  · exact read_insert m a x b

@[simp] theorem read_write_same (m : Memory) (a : Nat) (b : Byte) : (Memory.write m a b).read a = b := by
  simp [read_write]

theorem read_write_other (m : Memory) (a x : Nat) (b : Byte) (h : x ≠ a) :
    (Memory.write m a b).read x = Memory.read m x := by
  simp [read_write, h]

/-! ## The canonical form -/

theorem wfFrom_cons {lo k : Nat} {v : Byte} {rest : Memory} :
    Memory.wfFrom lo ((k, v) :: rest) = true ↔
      lo ≤ k ∧ v ≠ unlistedByte ∧ Memory.wfFrom (k + 1) rest = true := by
  simp [Memory.wfFrom, and_assoc]

theorem wfFrom_mono {m : Memory} {lo hi : Nat} (h : lo ≤ hi) (hm : Memory.wfFrom hi m = true) :
    Memory.wfFrom lo m = true := by
  cases m with
  | nil => rfl
  | cons c rest =>
    obtain ⟨k, v⟩ := c
    rw [wfFrom_cons] at hm ⊢
    exact ⟨by omega, hm.2⟩

theorem erase_keeps_wfFrom (m : Memory) (a lo : Nat) (h : Memory.wfFrom lo m = true) :
    Memory.wfFrom lo (m.erase a) = true := by
  induction m generalizing lo with
  | nil => rfl
  | cons c rest ih =>
    obtain ⟨k, v⟩ := c
    rw [wfFrom_cons] at h
    unfold Memory.erase
    split
    · exact ih lo (wfFrom_mono (by omega) h.2.2)
    · rw [wfFrom_cons]; exact ⟨h.1, h.2.1, ih (k + 1) h.2.2⟩

theorem insert_keeps_wfFrom (m : Memory) (a lo : Nat) (b : Byte) (hb : b ≠ unlistedByte) (hlo : lo ≤ a)
    (h : Memory.wfFrom lo m = true) : Memory.wfFrom lo (m.insert a b) = true := by
  induction m generalizing lo with
  | nil => exact wfFrom_cons.2 ⟨hlo, hb, rfl⟩
  | cons c rest ih =>
    obtain ⟨k, v⟩ := c
    have hc := wfFrom_cons.1 h
    unfold Memory.insert
    split
    · rename_i hk
      exact wfFrom_cons.2 ⟨hlo, hb, wfFrom_cons.2 ⟨by omega, hc.2⟩⟩
    · split
      · rename_i hk
        exact wfFrom_cons.2 ⟨hlo, hb, hk ▸ hc.2.2⟩
      · exact wfFrom_cons.2 ⟨hc.1, hc.2.1, ih (k + 1) (by omega) hc.2.2⟩

/-- A write keeps the canonical form. -/
theorem write_keeps_wf (m : Memory) (a : Nat) (b : Byte) (h : m.wf = true) : (m.write a b).wf = true := by
  unfold Memory.write
  split
  · exact erase_keeps_wfFrom m a 0 h
  · rename_i hb
    exact insert_keeps_wfFrom m a 0 b hb (Nat.zero_le a) h

/-- Memory after reset has the canonical form. -/
theorem reset_mem_wf : State.reset.mem.wf = true := rfl

/-! ## Which addresses are listed -/

theorem erase_lists {m : Memory} {a : Nat} {c : Host.Cell} (h : c ∈ m.erase a) : c ∈ m := by
  induction m with
  | nil => exact h
  | cons d rest ih =>
    obtain ⟨k, v⟩ := d
    unfold Memory.erase at h
    split at h
    · exact List.mem_cons_of_mem _ (ih h)
    · rcases List.mem_cons.1 h with rfl | h
      · exact List.mem_cons_self
      · exact List.mem_cons_of_mem _ (ih h)

theorem insert_lists {m : Memory} {a : Nat} {b : Byte} {c : Host.Cell} (h : c ∈ m.insert a b) :
    c = (a, b) ∨ c ∈ m := by
  induction m with
  | nil => exact .inl (List.mem_singleton.1 h)
  | cons d rest ih =>
    obtain ⟨k, v⟩ := d
    unfold Memory.insert at h
    split at h
    · exact List.mem_cons.1 h
    · split at h
      · rcases List.mem_cons.1 h with rfl | h
        · exact .inl rfl
        · exact .inr (List.mem_cons_of_mem _ h)
      · rcases List.mem_cons.1 h with rfl | h
        · exact .inr List.mem_cons_self
        · exact (ih h).imp id (List.mem_cons_of_mem _)

/-- A write lists no address but its own anew. -/
theorem write_lists {m : Memory} {a : Nat} {b : Byte} {c : Host.Cell} (h : c ∈ m.write a b) :
    c = (a, b) ∨ c ∈ m := by
  unfold Memory.write at h
  split at h
  · exact .inr (erase_lists h)
  · exact insert_lists h

/-! ## Equal memories are equal lists -/

theorem read_below {m : Memory} {lo a : Nat} (h : Memory.wfFrom lo m = true) (ha : a < lo) :
    m.read a = unlistedByte := by
  induction m generalizing lo with
  | nil => rfl
  | cons c rest ih =>
    obtain ⟨k, v⟩ := c
    have hc := wfFrom_cons.1 h
    have hk : k ≠ a := by omega
    simp [Memory.read, hk, ih hc.2.2 (by omega)]

theorem ext_of_read {m m' : Memory} {lo : Nat} (h : Memory.wfFrom lo m = true)
    (h' : Memory.wfFrom lo m' = true) (hr : ∀ a, m.read a = m'.read a) : m = m' := by
  induction m generalizing m' lo with
  | nil =>
    cases m' with
    | nil => rfl
    | cons c rest =>
      obtain ⟨k, v⟩ := c
      have := hr k
      simp [Memory.read] at this
      exact absurd this.symm (wfFrom_cons.1 h').2.1
  | cons c rest ih =>
    obtain ⟨k, v⟩ := c
    have hc := wfFrom_cons.1 h
    cases m' with
    | nil =>
      have := hr k
      simp [Memory.read] at this
      exact absurd this hc.2.1
    | cons c' rest' =>
      obtain ⟨k', v'⟩ := c'
      have hc' := wfFrom_cons.1 h'
      rcases Nat.lt_trichotomy k k' with hlt | heq | hgt
      · have := hr k
        rw [read_below (lo := k') (wfFrom_cons.2 ⟨le_refl _, hc'.2⟩) hlt] at this
        simp [Memory.read] at this
        exact absurd this hc.2.1
      · subst heq
        have hv : v = v' := by simpa [Memory.read] using hr k
        subst hv
        have : rest = rest' := by
          refine ih (lo := k + 1) hc.2.2 hc'.2.2 (fun a => ?_)
          by_cases ha : k = a
          · subst ha
            rw [read_below hc.2.2 (Nat.lt_succ_self k), read_below hc'.2.2 (Nat.lt_succ_self k)]
          · simpa [Memory.read, ha] using hr a
        rw [this]
      · have := hr k'
        rw [read_below (lo := k) (wfFrom_cons.2 ⟨le_refl _, hc.2⟩) hgt] at this
        simp [Memory.read] at this
        exact absurd this.symm hc'.2.1

/-- Two canonical memories that read alike everywhere are equal. -/
theorem mem_ext {m m' : Memory} (h : m.wf = true) (h' : m'.wf = true) (hr : ∀ a, m.read a = m'.read a) :
    m = m' :=
  ext_of_read h h' hr

end Sys2Proof.Machine
end

