-- ==== Sys2Proof/Laws/Access.lean ====
section
/-! SUPPORT. What one byte access can do: it is admitted and performed, or refused with memory unchanged (R73). -/

namespace Sys2Proof.Machine

theorem memOK_exists {cfg : Config} {a : Nat} {k : AccessKind} (h : memOK cfg a k = true) : a < 2 ^ cfg.aw := by
  simp [memOK] at h
  exact h.1

/-- Everything a byte read can do. -/
theorem loadByte_cases (who : Agent) (a : Nat) (s : State) :
    (memOK s.cfg a .read = true ∧
      loadByte who a s =
        (some (s.mem.read a), { s with trace := .read who a (some (s.mem.read a)) :: s.trace })) ∨
    (memOK s.cfg a .read = false ∧
      loadByte who a s = (none, { s with trace := .read who a none :: s.trace })) := by
  unfold loadByte
  cases h : memOK s.cfg a .read <;> simp

/-- Everything a byte write can do. -/
theorem storeByte_cases (who : Agent) (a : Nat) (v : Byte) (s : State) :
    (memOK s.cfg a .write = true ∧
      storeByte who a v s =
        (true, { s with mem := s.mem.write a v, trace := .write who a v true :: s.trace })) ∨
    (memOK s.cfg a .write = false ∧
      storeByte who a v s = (false, { s with trace := .write who a v false :: s.trace })) := by
  unfold storeByte
  cases h : memOK s.cfg a .write <;> simp

end Sys2Proof.Machine
end

