-- ==== Sys2Proof/Laws/Binary32.lean ====
section
/-! SUPPORT. The fields of a binary32 pattern (`43_gain_multiply.md` R145). -/

namespace Sys2Proof.Machine

/-- Each bit of a pattern made of fields. -/
theorem getLsbD_mkPattern (sg : Bool) (e f i : Nat) :
    (mkPattern sg e f).getLsbD i =
      if i < 23 then f.testBit i else if i < 31 then e.testBit (i - 23) else (decide (i = 31) && sg) := by
  change (((BitVec.ofBool sg ++ BitVec.ofNat 8 e) ++ BitVec.ofNat 23 f : BitVec (1 + 8 + 23))).getLsbD i = _
  rw [BitVec.getLsbD_append, BitVec.getLsbD_append, BitVec.getLsbD_ofBool, BitVec.getLsbD_ofNat, BitVec.getLsbD_ofNat]
  by_cases h : i < 23
  · simp [h]
  · by_cases h2 : i < 31
    · have : i - 23 < 8 := by omega
      simp [h, h2, this]
    · have : ¬ i - 23 < 8 := by omega
      have h3 : i - 23 - 8 = 0 ↔ i = 31 := by omega
      simp [h, h2, this, h3]

/-- Its sign. -/
@[simp] theorem signBit_mkPattern (sg : Bool) (e f : Nat) : signBit (mkPattern sg e f) = sg := by
  simp only [signBit, getLsbD_mkPattern]; simp

/-- Its fraction. -/
@[simp] theorem fracField_mkPattern (sg : Bool) (e f : Nat) : fracField (mkPattern sg e f) = f % 2 ^ 23 := by
  unfold fracField
  rw [← BitVec.toNat_ofNat]
  congr 1
  apply BitVec.eq_of_getLsbD_eq
  intro i hi
  simp only [BitVec.getLsbD_extractLsb', getLsbD_mkPattern, hi, BitVec.getLsbD_ofNat]; simp [hi]

/-- Its exponent field. -/
@[simp] theorem expField_mkPattern (sg : Bool) (e f : Nat) : expField (mkPattern sg e f) = e % 2 ^ 8 := by
  unfold expField
  rw [← BitVec.toNat_ofNat]
  congr 1
  apply BitVec.eq_of_getLsbD_eq
  intro i hi
  have h1 : ¬ 23 + i < 23 := by omega
  have h2 : 23 + i < 31 := by omega
  simp only [BitVec.getLsbD_extractLsb', getLsbD_mkPattern, hi, BitVec.getLsbD_ofNat, h1, h2]; simp

/-- A pattern is made of its three fields. -/
theorem mkPattern_fields (p : Word) : mkPattern (signBit p) (expField p) (fracField p) = p := by
  apply BitVec.eq_of_getLsbD_eq
  intro i hi
  rw [getLsbD_mkPattern]
  split
  · rename_i h
    change (p.extractLsb' 0 23).getLsbD i = _
    simp only [BitVec.getLsbD_extractLsb', h]; simp
  · split
    · rename_i h h2
      have h3 : i - 23 < 8 := by omega
      have h4 : 23 + (i - 23) = i := by omega
      change (p.extractLsb' 23 8).getLsbD (i - 23) = _
      simp only [BitVec.getLsbD_extractLsb', h3, h4]; simp
    · have : i = 31 := by omega
      subst this; simp [signBit]

/-- A finite pattern's exponent field is not 255. -/
theorem isFinite_iff (p : Word) : isFinite p = true ↔ expField p ≠ 255 := by
  simp [isFinite]

/-- A pattern is finite, an infinity or a NaN. -/
theorem finite_or_inf_or_nan (p : Word) : isFinite p = true ∨ isInf p = true ∨ isNaN p = true := by
  by_cases h : expField p = 255 <;> by_cases h' : fracField p = 0 <;> simp [isFinite, isInf, isNaN, h, h']

/-- The floor of what is not finite is itself. -/
theorem floor32_of_not_finite (p : Word) (h : isFinite p = false) : floor32 p = p := by
  simp [floor32, h]

/-- The narrowing of what is not finite is 0. -/
theorem cvtF32S16w_of_not_finite (q : Word) (h : isFinite q = false) : cvtF32S16w q = 0x0000#16 := by
  simp [cvtF32S16w, h]

end Sys2Proof.Machine
end

