-- ==== Sys2Proof/Laws/State.lean ====
section
/-! SUPPORT. One lemma per field for each named update of the state, and for reset. -/

namespace Sys2Proof.Machine

/-! ## respond -/

@[simp] theorem respond_cfg (rdata : Word) (s : State) :
    (respond rdata s).cfg = s.cfg := rfl
@[simp] theorem respond_bufBase (rdata : Word) (s : State) :
    (respond rdata s).bufBase = s.bufBase := rfl
@[simp] theorem respond_bufLen (rdata : Word) (s : State) :
    (respond rdata s).bufLen = s.bufLen := rfl
@[simp] theorem respond_gain (rdata : Word) (s : State) :
    (respond rdata s).gain = s.gain := rfl
@[simp] theorem respond_bufValid (rdata : Word) (s : State) :
    (respond rdata s).bufValid = s.bufValid := rfl
@[simp] theorem respond_busy (rdata : Word) (s : State) :
    (respond rdata s).busy = s.busy := rfl
@[simp] theorem respond_done (rdata : Word) (s : State) :
    (respond rdata s).done = s.done := rfl
@[simp] theorem respond_err (rdata : Word) (s : State) :
    (respond rdata s).err = s.err := rfl
@[simp] theorem respond_odd (rdata : Word) (s : State) :
    (respond rdata s).odd = s.odd := rfl
@[simp] theorem respond_errCode (rdata : Word) (s : State) :
    (respond rdata s).errCode = s.errCode := rfl
@[simp] theorem respond_idx (rdata : Word) (s : State) :
    (respond rdata s).idx = s.idx := rfl
@[simp] theorem respond_wBase (rdata : Word) (s : State) :
    (respond rdata s).wBase = s.wBase := rfl
@[simp] theorem respond_wNwin (rdata : Word) (s : State) :
    (respond rdata s).wNwin = s.wNwin := rfl
@[simp] theorem respond_wGain (rdata : Word) (s : State) :
    (respond rdata s).wGain = s.wGain := rfl
@[simp] theorem respond_mem (rdata : Word) (s : State) :
    (respond rdata s).mem = s.mem := rfl
@[simp] theorem respond_pending (rdata : Word) (s : State) :
    (respond rdata s).pending = s.pending := rfl
@[simp] theorem respond_returned (rdata : Word) (s : State) :
    (respond rdata s).returned = rdata :: s.returned := rfl
@[simp] theorem respond_trace (rdata : Word) (s : State) :
    (respond rdata s).trace = s.trace := rfl

/-! ## raiseError -/

@[simp] theorem raiseError_cfg (e : ErrorKind) (s : State) :
    (raiseError e s).cfg = s.cfg := rfl
@[simp] theorem raiseError_bufBase (e : ErrorKind) (s : State) :
    (raiseError e s).bufBase = s.bufBase := rfl
@[simp] theorem raiseError_bufLen (e : ErrorKind) (s : State) :
    (raiseError e s).bufLen = s.bufLen := rfl
@[simp] theorem raiseError_gain (e : ErrorKind) (s : State) :
    (raiseError e s).gain = s.gain := rfl
@[simp] theorem raiseError_bufValid (e : ErrorKind) (s : State) :
    (raiseError e s).bufValid = s.bufValid := rfl
@[simp] theorem raiseError_busy (e : ErrorKind) (s : State) :
    (raiseError e s).busy = false := rfl
@[simp] theorem raiseError_done (e : ErrorKind) (s : State) :
    (raiseError e s).done = s.done := rfl
@[simp] theorem raiseError_err (e : ErrorKind) (s : State) :
    (raiseError e s).err = true := rfl
@[simp] theorem raiseError_odd (e : ErrorKind) (s : State) :
    (raiseError e s).odd = s.odd := rfl
@[simp] theorem raiseError_errCode (e : ErrorKind) (s : State) :
    (raiseError e s).errCode = errorCode e := rfl
@[simp] theorem raiseError_idx (e : ErrorKind) (s : State) :
    (raiseError e s).idx = s.idx := rfl
@[simp] theorem raiseError_wBase (e : ErrorKind) (s : State) :
    (raiseError e s).wBase = s.wBase := rfl
@[simp] theorem raiseError_wNwin (e : ErrorKind) (s : State) :
    (raiseError e s).wNwin = s.wNwin := rfl
@[simp] theorem raiseError_wGain (e : ErrorKind) (s : State) :
    (raiseError e s).wGain = s.wGain := rfl
@[simp] theorem raiseError_mem (e : ErrorKind) (s : State) :
    (raiseError e s).mem = s.mem := rfl
@[simp] theorem raiseError_pending (e : ErrorKind) (s : State) :
    (raiseError e s).pending = s.pending := rfl
@[simp] theorem raiseError_returned (e : ErrorKind) (s : State) :
    (raiseError e s).returned = s.returned := rfl
@[simp] theorem raiseError_trace (e : ErrorKind) (s : State) :
    (raiseError e s).trace = s.trace := rfl

/-! ## clearRecord -/

@[simp] theorem clearRecord_cfg (s : State) :
    (clearRecord s).cfg = s.cfg := rfl
@[simp] theorem clearRecord_bufBase (s : State) :
    (clearRecord s).bufBase = s.bufBase := rfl
@[simp] theorem clearRecord_bufLen (s : State) :
    (clearRecord s).bufLen = s.bufLen := rfl
@[simp] theorem clearRecord_gain (s : State) :
    (clearRecord s).gain = s.gain := rfl
@[simp] theorem clearRecord_bufValid (s : State) :
    (clearRecord s).bufValid = s.bufValid := rfl
@[simp] theorem clearRecord_busy (s : State) :
    (clearRecord s).busy = s.busy := rfl
@[simp] theorem clearRecord_done (s : State) :
    (clearRecord s).done = false := rfl
@[simp] theorem clearRecord_err (s : State) :
    (clearRecord s).err = false := rfl
@[simp] theorem clearRecord_odd (s : State) :
    (clearRecord s).odd = false := rfl
@[simp] theorem clearRecord_errCode (s : State) :
    (clearRecord s).errCode = 0#4 := rfl
@[simp] theorem clearRecord_idx (s : State) :
    (clearRecord s).idx = 0#31 := rfl
@[simp] theorem clearRecord_wBase (s : State) :
    (clearRecord s).wBase = s.wBase := rfl
@[simp] theorem clearRecord_wNwin (s : State) :
    (clearRecord s).wNwin = s.wNwin := rfl
@[simp] theorem clearRecord_wGain (s : State) :
    (clearRecord s).wGain = s.wGain := rfl
@[simp] theorem clearRecord_mem (s : State) :
    (clearRecord s).mem = s.mem := rfl
@[simp] theorem clearRecord_pending (s : State) :
    (clearRecord s).pending = s.pending := rfl
@[simp] theorem clearRecord_returned (s : State) :
    (clearRecord s).returned = s.returned := rfl
@[simp] theorem clearRecord_trace (s : State) :
    (clearRecord s).trace = s.trace := rfl

/-! ## clearStatus -/

@[simp] theorem clearStatus_cfg (mask : Word) (s : State) :
    (clearStatus mask s).cfg = s.cfg := rfl
@[simp] theorem clearStatus_bufBase (mask : Word) (s : State) :
    (clearStatus mask s).bufBase = s.bufBase := rfl
@[simp] theorem clearStatus_bufLen (mask : Word) (s : State) :
    (clearStatus mask s).bufLen = s.bufLen := rfl
@[simp] theorem clearStatus_gain (mask : Word) (s : State) :
    (clearStatus mask s).gain = s.gain := rfl
@[simp] theorem clearStatus_bufValid (mask : Word) (s : State) :
    (clearStatus mask s).bufValid = s.bufValid := rfl
@[simp] theorem clearStatus_busy (mask : Word) (s : State) :
    (clearStatus mask s).busy = s.busy := rfl
@[simp] theorem clearStatus_done (mask : Word) (s : State) :
    (clearStatus mask s).done = (s.done && !mask.getLsbD 1) := rfl
@[simp] theorem clearStatus_err (mask : Word) (s : State) :
    (clearStatus mask s).err = (s.err && !mask.getLsbD 2) := rfl
@[simp] theorem clearStatus_odd (mask : Word) (s : State) :
    (clearStatus mask s).odd = (s.odd && !mask.getLsbD 3) := rfl
@[simp] theorem clearStatus_errCode (mask : Word) (s : State) :
    (clearStatus mask s).errCode = if mask.getLsbD 2 then 0#4 else s.errCode := rfl
@[simp] theorem clearStatus_idx (mask : Word) (s : State) :
    (clearStatus mask s).idx = s.idx := rfl
@[simp] theorem clearStatus_wBase (mask : Word) (s : State) :
    (clearStatus mask s).wBase = s.wBase := rfl
@[simp] theorem clearStatus_wNwin (mask : Word) (s : State) :
    (clearStatus mask s).wNwin = s.wNwin := rfl
@[simp] theorem clearStatus_wGain (mask : Word) (s : State) :
    (clearStatus mask s).wGain = s.wGain := rfl
@[simp] theorem clearStatus_mem (mask : Word) (s : State) :
    (clearStatus mask s).mem = s.mem := rfl
@[simp] theorem clearStatus_pending (mask : Word) (s : State) :
    (clearStatus mask s).pending = s.pending := rfl
@[simp] theorem clearStatus_returned (mask : Word) (s : State) :
    (clearStatus mask s).returned = s.returned := rfl
@[simp] theorem clearStatus_trace (mask : Word) (s : State) :
    (clearStatus mask s).trace = s.trace := rfl

/-! ## acceptCall -/

@[simp] theorem acceptCall_cfg (s : State) :
    (acceptCall s).cfg = s.cfg := rfl
@[simp] theorem acceptCall_bufBase (s : State) :
    (acceptCall s).bufBase = s.bufBase := rfl
@[simp] theorem acceptCall_bufLen (s : State) :
    (acceptCall s).bufLen = s.bufLen := rfl
@[simp] theorem acceptCall_gain (s : State) :
    (acceptCall s).gain = s.gain := rfl
@[simp] theorem acceptCall_bufValid (s : State) :
    (acceptCall s).bufValid = s.bufValid := rfl
@[simp] theorem acceptCall_busy (s : State) :
    (acceptCall s).busy = true := rfl
@[simp] theorem acceptCall_done (s : State) :
    (acceptCall s).done = s.done := rfl
@[simp] theorem acceptCall_err (s : State) :
    (acceptCall s).err = s.err := rfl
@[simp] theorem acceptCall_odd (s : State) :
    (acceptCall s).odd = oddLength s.bufLen := rfl
@[simp] theorem acceptCall_errCode (s : State) :
    (acceptCall s).errCode = s.errCode := rfl
@[simp] theorem acceptCall_idx (s : State) :
    (acceptCall s).idx = s.idx := rfl
@[simp] theorem acceptCall_wBase (s : State) :
    (acceptCall s).wBase = bufBaseValue s := rfl
@[simp] theorem acceptCall_wNwin (s : State) :
    (acceptCall s).wNwin = windowCount s.bufLen := rfl
@[simp] theorem acceptCall_wGain (s : State) :
    (acceptCall s).wGain = s.gain := rfl
@[simp] theorem acceptCall_mem (s : State) :
    (acceptCall s).mem = s.mem := rfl
@[simp] theorem acceptCall_pending (s : State) :
    (acceptCall s).pending = s.pending := rfl
@[simp] theorem acceptCall_returned (s : State) :
    (acceptCall s).returned = s.returned := rfl
@[simp] theorem acceptCall_trace (s : State) :
    (acceptCall s).trace = s.trace := rfl

/-! ## finishStep -/

@[simp] theorem finishStep_cfg (s : State) :
    (finishStep s).cfg = s.cfg := rfl
@[simp] theorem finishStep_bufBase (s : State) :
    (finishStep s).bufBase = s.bufBase := rfl
@[simp] theorem finishStep_bufLen (s : State) :
    (finishStep s).bufLen = s.bufLen := rfl
@[simp] theorem finishStep_gain (s : State) :
    (finishStep s).gain = s.gain := rfl
@[simp] theorem finishStep_bufValid (s : State) :
    (finishStep s).bufValid = s.bufValid := rfl
@[simp] theorem finishStep_busy (s : State) :
    (finishStep s).busy = false := rfl
@[simp] theorem finishStep_done (s : State) :
    (finishStep s).done = true := rfl
@[simp] theorem finishStep_err (s : State) :
    (finishStep s).err = s.err := rfl
@[simp] theorem finishStep_odd (s : State) :
    (finishStep s).odd = s.odd := rfl
@[simp] theorem finishStep_errCode (s : State) :
    (finishStep s).errCode = s.errCode := rfl
@[simp] theorem finishStep_idx (s : State) :
    (finishStep s).idx = s.idx := rfl
@[simp] theorem finishStep_wBase (s : State) :
    (finishStep s).wBase = s.wBase := rfl
@[simp] theorem finishStep_wNwin (s : State) :
    (finishStep s).wNwin = s.wNwin := rfl
@[simp] theorem finishStep_wGain (s : State) :
    (finishStep s).wGain = s.wGain := rfl
@[simp] theorem finishStep_mem (s : State) :
    (finishStep s).mem = s.mem := rfl
@[simp] theorem finishStep_pending (s : State) :
    (finishStep s).pending = s.pending := rfl
@[simp] theorem finishStep_returned (s : State) :
    (finishStep s).returned = s.returned := rfl
@[simp] theorem finishStep_trace (s : State) :
    (finishStep s).trace = s.trace := rfl

/-! ## advanceIdx -/

@[simp] theorem advanceIdx_cfg (s : State) :
    (advanceIdx s).cfg = s.cfg := rfl
@[simp] theorem advanceIdx_bufBase (s : State) :
    (advanceIdx s).bufBase = s.bufBase := rfl
@[simp] theorem advanceIdx_bufLen (s : State) :
    (advanceIdx s).bufLen = s.bufLen := rfl
@[simp] theorem advanceIdx_gain (s : State) :
    (advanceIdx s).gain = s.gain := rfl
@[simp] theorem advanceIdx_bufValid (s : State) :
    (advanceIdx s).bufValid = s.bufValid := rfl
@[simp] theorem advanceIdx_busy (s : State) :
    (advanceIdx s).busy = s.busy := rfl
@[simp] theorem advanceIdx_done (s : State) :
    (advanceIdx s).done = s.done := rfl
@[simp] theorem advanceIdx_err (s : State) :
    (advanceIdx s).err = s.err := rfl
@[simp] theorem advanceIdx_odd (s : State) :
    (advanceIdx s).odd = s.odd := rfl
@[simp] theorem advanceIdx_errCode (s : State) :
    (advanceIdx s).errCode = s.errCode := rfl
@[simp] theorem advanceIdx_idx (s : State) :
    (advanceIdx s).idx = s.idx + 1#31 := rfl
@[simp] theorem advanceIdx_wBase (s : State) :
    (advanceIdx s).wBase = s.wBase := rfl
@[simp] theorem advanceIdx_wNwin (s : State) :
    (advanceIdx s).wNwin = s.wNwin := rfl
@[simp] theorem advanceIdx_wGain (s : State) :
    (advanceIdx s).wGain = s.wGain := rfl
@[simp] theorem advanceIdx_mem (s : State) :
    (advanceIdx s).mem = s.mem := rfl
@[simp] theorem advanceIdx_pending (s : State) :
    (advanceIdx s).pending = s.pending := rfl
@[simp] theorem advanceIdx_returned (s : State) :
    (advanceIdx s).returned = s.returned := rfl
@[simp] theorem advanceIdx_trace (s : State) :
    (advanceIdx s).trace = s.trace := rfl

/-! ## takePending -/

@[simp] theorem takePending_cfg (rest : List Input) (s : State) :
    (takePending rest s).cfg = s.cfg := rfl
@[simp] theorem takePending_bufBase (rest : List Input) (s : State) :
    (takePending rest s).bufBase = s.bufBase := rfl
@[simp] theorem takePending_bufLen (rest : List Input) (s : State) :
    (takePending rest s).bufLen = s.bufLen := rfl
@[simp] theorem takePending_gain (rest : List Input) (s : State) :
    (takePending rest s).gain = s.gain := rfl
@[simp] theorem takePending_bufValid (rest : List Input) (s : State) :
    (takePending rest s).bufValid = s.bufValid := rfl
@[simp] theorem takePending_busy (rest : List Input) (s : State) :
    (takePending rest s).busy = s.busy := rfl
@[simp] theorem takePending_done (rest : List Input) (s : State) :
    (takePending rest s).done = s.done := rfl
@[simp] theorem takePending_err (rest : List Input) (s : State) :
    (takePending rest s).err = s.err := rfl
@[simp] theorem takePending_odd (rest : List Input) (s : State) :
    (takePending rest s).odd = s.odd := rfl
@[simp] theorem takePending_errCode (rest : List Input) (s : State) :
    (takePending rest s).errCode = s.errCode := rfl
@[simp] theorem takePending_idx (rest : List Input) (s : State) :
    (takePending rest s).idx = s.idx := rfl
@[simp] theorem takePending_wBase (rest : List Input) (s : State) :
    (takePending rest s).wBase = s.wBase := rfl
@[simp] theorem takePending_wNwin (rest : List Input) (s : State) :
    (takePending rest s).wNwin = s.wNwin := rfl
@[simp] theorem takePending_wGain (rest : List Input) (s : State) :
    (takePending rest s).wGain = s.wGain := rfl
@[simp] theorem takePending_mem (rest : List Input) (s : State) :
    (takePending rest s).mem = s.mem := rfl
@[simp] theorem takePending_pending (rest : List Input) (s : State) :
    (takePending rest s).pending = rest := rfl
@[simp] theorem takePending_returned (rest : List Input) (s : State) :
    (takePending rest s).returned = s.returned := rfl
@[simp] theorem takePending_trace (rest : List Input) (s : State) :
    (takePending rest s).trace = s.trace := rfl

/-! ## pushPending -/

@[simp] theorem pushPending_cfg (i : Input) (s : State) :
    (pushPending i s).cfg = s.cfg := rfl
@[simp] theorem pushPending_bufBase (i : Input) (s : State) :
    (pushPending i s).bufBase = s.bufBase := rfl
@[simp] theorem pushPending_bufLen (i : Input) (s : State) :
    (pushPending i s).bufLen = s.bufLen := rfl
@[simp] theorem pushPending_gain (i : Input) (s : State) :
    (pushPending i s).gain = s.gain := rfl
@[simp] theorem pushPending_bufValid (i : Input) (s : State) :
    (pushPending i s).bufValid = s.bufValid := rfl
@[simp] theorem pushPending_busy (i : Input) (s : State) :
    (pushPending i s).busy = s.busy := rfl
@[simp] theorem pushPending_done (i : Input) (s : State) :
    (pushPending i s).done = s.done := rfl
@[simp] theorem pushPending_err (i : Input) (s : State) :
    (pushPending i s).err = s.err := rfl
@[simp] theorem pushPending_odd (i : Input) (s : State) :
    (pushPending i s).odd = s.odd := rfl
@[simp] theorem pushPending_errCode (i : Input) (s : State) :
    (pushPending i s).errCode = s.errCode := rfl
@[simp] theorem pushPending_idx (i : Input) (s : State) :
    (pushPending i s).idx = s.idx := rfl
@[simp] theorem pushPending_wBase (i : Input) (s : State) :
    (pushPending i s).wBase = s.wBase := rfl
@[simp] theorem pushPending_wNwin (i : Input) (s : State) :
    (pushPending i s).wNwin = s.wNwin := rfl
@[simp] theorem pushPending_wGain (i : Input) (s : State) :
    (pushPending i s).wGain = s.wGain := rfl
@[simp] theorem pushPending_mem (i : Input) (s : State) :
    (pushPending i s).mem = s.mem := rfl
@[simp] theorem pushPending_pending (i : Input) (s : State) :
    (pushPending i s).pending = i :: s.pending := rfl
@[simp] theorem pushPending_returned (i : Input) (s : State) :
    (pushPending i s).returned = s.returned := rfl
@[simp] theorem pushPending_trace (i : Input) (s : State) :
    (pushPending i s).trace = s.trace := rfl

/-! ## resetBlock -/

@[simp] theorem resetBlock_cfg (s : State) :
    (resetBlock s).cfg = s.cfg := rfl
@[simp] theorem resetBlock_bufBase (s : State) :
    (resetBlock s).bufBase = 0#32 := rfl
@[simp] theorem resetBlock_bufLen (s : State) :
    (resetBlock s).bufLen = 0#32 := rfl
@[simp] theorem resetBlock_gain (s : State) :
    (resetBlock s).gain = 0x3F800000#32 := rfl
@[simp] theorem resetBlock_bufValid (s : State) :
    (resetBlock s).bufValid = false := rfl
@[simp] theorem resetBlock_busy (s : State) :
    (resetBlock s).busy = false := rfl
@[simp] theorem resetBlock_done (s : State) :
    (resetBlock s).done = false := rfl
@[simp] theorem resetBlock_err (s : State) :
    (resetBlock s).err = false := rfl
@[simp] theorem resetBlock_odd (s : State) :
    (resetBlock s).odd = false := rfl
@[simp] theorem resetBlock_errCode (s : State) :
    (resetBlock s).errCode = 0#4 := rfl
@[simp] theorem resetBlock_idx (s : State) :
    (resetBlock s).idx = 0#31 := rfl
@[simp] theorem resetBlock_wBase (s : State) :
    (resetBlock s).wBase = 0#32 := rfl
@[simp] theorem resetBlock_wNwin (s : State) :
    (resetBlock s).wNwin = 0#31 := rfl
@[simp] theorem resetBlock_wGain (s : State) :
    (resetBlock s).wGain = 0#32 := rfl
@[simp] theorem resetBlock_mem (s : State) :
    (resetBlock s).mem = s.mem := rfl
@[simp] theorem resetBlock_pending (s : State) :
    (resetBlock s).pending = s.pending := rfl
@[simp] theorem resetBlock_returned (s : State) :
    (resetBlock s).returned = s.returned := rfl
@[simp] theorem resetBlock_trace (s : State) :
    (resetBlock s).trace = s.trace := rfl

end Sys2Proof.Machine
end

