-- ==== Sys2Proof/Laws/Command.lean ====
section
/-! SUPPORT. What a write of CMD can do, said once: dropped, refused, or accepted (R105, R121 to R124). -/

namespace Sys2Proof.Machine

/-- The checks of APPLY pass exactly when the handle is present, the gain is finite and the range fits. -/
theorem applyError_none (s : State) :
    applyError s = none ↔ s.bufValid = true ∧ isFinite s.gain = true ∧ rangeFits s = true := by
  unfold applyError
  cases s.bufValid <;> cases isFinite s.gain <;> cases rangeFits s <;> simp

/-- The checks of APPLY read nothing that the clearing of the record writes. -/
@[simp] theorem applyError_clearRecord (s : State) : applyError (clearRecord s) = applyError s := rfl

/-- Everything a write of CMD can do. -/
theorem writeCmd_cases (w : Word) (s : State) :
    (s.busy = true ∧ writeCmd w s = s) ∨
    (s.busy = false ∧ w ≠ applyWord ∧ writeCmd w s = raiseError .illegalCmd (clearRecord s)) ∨
    (s.busy = false ∧ w = applyWord ∧
      ∃ e, applyError s = some e ∧ writeCmd w s = raiseError e (clearRecord s)) ∨
    (s.busy = false ∧ w = applyWord ∧ applyError s = none ∧ writeCmd w s = acceptCall (clearRecord s)) := by
  unfold writeCmd tryApply
  cases hb : s.busy with
  | true => simp
  | false =>
    by_cases hw : w = applyWord
    · cases he : applyError s <;> simp [hw, he]
    · simp [hw]

end Sys2Proof.Machine
end

