-- ==== Sys2Proof/Laws/Decode.lean ====
section
/-! SUPPORT. The fields of a transaction word, and what decoding a word made of fields gives (`30_encoding.md` R76, R77). -/

namespace Sys2Proof

/-- Each bit of a transaction word (R76). -/
theorem getLsbD_mkTransWord (we : Bool) (rn : BitVec 4) (w : Word) (i : Nat) :
    (mkTransWord we rn w).getLsbD i =
      if i < 32 then w.getLsbD i else if i < 36 then rn.getLsbD (i - 32) else (decide (i = 36) && we) := by
  change (((BitVec.ofBool we ++ rn) ++ w : BitVec (1 + 4 + 32))).getLsbD i = _
  rw [BitVec.getLsbD_append, BitVec.getLsbD_append, BitVec.getLsbD_ofBool]
  by_cases h : i < 32
  · simp [h]
  · by_cases h2 : i < 36
    · have : i - 32 < 4 := by omega
      simp [h, h2, this]
    · have : ¬ i - 32 < 4 := by omega
      have h3 : i - 32 - 4 = 0 ↔ i = 36 := by omega
      simp [h, h2, this, h3]

/-- The `we` of a word made of fields. -/
@[simp] theorem twWe_mk (we : Bool) (rn : BitVec 4) (w : Word) : twWe (mkTransWord we rn w) = we := by
  simp only [twWe, getLsbD_mkTransWord]; simp

/-- The `rn` of a word made of fields. -/
@[simp] theorem twRn_mk (we : Bool) (rn : BitVec 4) (w : Word) : twRn (mkTransWord we rn w) = rn := by
  apply BitVec.eq_of_getLsbD_eq
  intro i hi
  have h1 : ¬ 32 + i < 32 := by omega
  have h2 : 32 + i < 36 := by omega
  simp only [twRn, BitVec.getLsbD_extractLsb', getLsbD_mkTransWord, hi, h1, h2]; simp

/-- The `wdata` of a word made of fields. -/
@[simp] theorem twWdata_mk (we : Bool) (rn : BitVec 4) (w : Word) : twWdata (mkTransWord we rn w) = w := by
  apply BitVec.eq_of_getLsbD_eq
  intro i hi
  simp only [twWdata, BitVec.getLsbD_extractLsb', getLsbD_mkTransWord, hi]; simp [hi]

/-- A word is made of its three fields. -/
theorem mkTransWord_fields (tw : TransWord) : mkTransWord (twWe tw) (twRn tw) (twWdata tw) = tw := by
  apply BitVec.eq_of_getLsbD_eq
  intro i hi
  rw [getLsbD_mkTransWord]
  split
  · rename_i h; simp only [twWdata, BitVec.getLsbD_extractLsb', h]; simp
  · split
    · rename_i h h2
      have h3 : i - 32 < 4 := by omega
      have h4 : 32 + (i - 32) = i := by omega
      simp only [twRn, BitVec.getLsbD_extractLsb', h3, h4]; simp
    · have : i = 36 := by omega
      subst this; simp [twWe]

/-- Decoding a word made of fields. -/
@[simp] theorem decode_mkTransWord (we : Bool) (rn : BitVec 4) (w : Word) :
    decode (mkTransWord we rn w) = if we then decodeWrite rn w else decodeRead rn := by
  simp [decode]

/-- A register number is one of the eight below 8, or has bit 3 set. -/
theorem rn_cases (rn : BitVec 4) :
    rn = 0#4 ∨ rn = 1#4 ∨ rn = 2#4 ∨ rn = 3#4 ∨ rn = 4#4 ∨ rn = 5#4 ∨ rn = 6#4 ∨ rn = 7#4 ∨
      (rn.getLsbD 3 = true ∧ 7 < rn.toNat) := by
  revert rn
  decide

/-- A read of a number with bit 3 set. -/
theorem decodeRead_high (rn : BitVec 4) (h : 7 < rn.toNat) : decodeRead rn = .rdRsvd8to15 rn := by
  unfold decodeRead
  split <;> first | rfl | omega

/-- A write of a number with bit 3 set. -/
theorem decodeWrite_high (rn : BitVec 4) (w : Word) (h : 7 < rn.toNat) :
    decodeWrite rn w = .wrRsvd8to15 rn w := by
  unfold decodeWrite
  split <;> first | rfl | omega

end Sys2Proof
end

