-- ==== Sys2Proof/Laws/Engine.lean ====
section
/-! SUPPORT. What the engine's turn can do, said once: one of five window steps, the finish step, or nothing. -/

namespace Sys2Proof.Machine

/-- The state an admitted window step leaves, where `a` is the window's address and `c` its packed result. -/
theorem windowStep_performed (s : State) (a : Nat) (c : Byte × Byte)
    (ha : a = windowAddr s.wBase s.idx.toNat)
    (hc : c = window (s.mem.read a) (s.mem.read (a + 1)) s.wGain)
    (r0 : memOK s.cfg a .read = true) (r1 : memOK s.cfg (a + 1) .read = true)
    (w0 : memOK s.cfg a .write = true) (w1 : memOK s.cfg (a + 1) .write = true) :
    windowStep s =
      { s with
        mem := (s.mem.write a c.1).write (a + 1) c.2
        idx := s.idx + 1#31
        trace := .write .engine (a + 1) c.2 true :: .write .engine a c.1 true ::
          .read .engine (a + 1) (some (s.mem.read (a + 1))) ::
          .read .engine a (some (s.mem.read a)) :: s.trace } := by
  subst ha hc
  simp [windowStep, writeWindow, loadByte, storeByte, advanceIdx, r0, r1, w0, w1]

/-- The read of b0 faults. -/
theorem windowStep_faultRead0 (s : State) (a : Nat) (ha : a = windowAddr s.wBase s.idx.toNat)
    (r0 : memOK s.cfg a .read = false) :
    windowStep s = raiseError .memFault { s with trace := .read .engine a none :: s.trace } := by
  subst ha
  simp [windowStep, loadByte, r0]

/-- The read of b1 faults. -/
theorem windowStep_faultRead1 (s : State) (a : Nat) (ha : a = windowAddr s.wBase s.idx.toNat)
    (r0 : memOK s.cfg a .read = true) (r1 : memOK s.cfg (a + 1) .read = false) :
    windowStep s = raiseError .memFault
      { s with trace := .read .engine (a + 1) none :: .read .engine a (some (s.mem.read a)) :: s.trace } := by
  subst ha
  simp [windowStep, loadByte, r0, r1]

/-- The write of c0 faults. -/
theorem windowStep_faultWrite0 (s : State) (a : Nat) (c : Byte × Byte)
    (ha : a = windowAddr s.wBase s.idx.toNat)
    (hc : c = window (s.mem.read a) (s.mem.read (a + 1)) s.wGain)
    (r0 : memOK s.cfg a .read = true) (r1 : memOK s.cfg (a + 1) .read = true)
    (w0 : memOK s.cfg a .write = false) :
    windowStep s = raiseError .memFault
      { s with
        trace := .write .engine a c.1 false ::
          .read .engine (a + 1) (some (s.mem.read (a + 1))) ::
          .read .engine a (some (s.mem.read a)) :: s.trace } := by
  subst ha hc
  simp [windowStep, writeWindow, loadByte, storeByte, r0, r1, w0]

/-- The write of c1 faults: the byte c0 is in memory already. -/
theorem windowStep_faultWrite1 (s : State) (a : Nat) (c : Byte × Byte)
    (ha : a = windowAddr s.wBase s.idx.toNat)
    (hc : c = window (s.mem.read a) (s.mem.read (a + 1)) s.wGain)
    (r0 : memOK s.cfg a .read = true) (r1 : memOK s.cfg (a + 1) .read = true)
    (w0 : memOK s.cfg a .write = true) (w1 : memOK s.cfg (a + 1) .write = false) :
    windowStep s = raiseError .memFault
      { s with
        mem := s.mem.write a c.1
        trace := .write .engine (a + 1) c.2 false :: .write .engine a c.1 true ::
          .read .engine (a + 1) (some (s.mem.read (a + 1))) ::
          .read .engine a (some (s.mem.read a)) :: s.trace } := by
  subst ha hc
  simp [windowStep, writeWindow, loadByte, storeByte, r0, r1, w0, w1]

/-- Everything a window step can do: it is performed, or one of its four accesses faults (R126, R198). -/
theorem windowStep_cases (s : State) (a : Nat) (c : Byte × Byte) (ha : a = windowAddr s.wBase s.idx.toNat)
    (hc : c = window (s.mem.read a) (s.mem.read (a + 1)) s.wGain) :
    (memOK s.cfg a .read = false ∧
      windowStep s = raiseError .memFault { s with trace := .read .engine a none :: s.trace }) ∨
    (memOK s.cfg a .read = true ∧ memOK s.cfg (a + 1) .read = false ∧
      windowStep s = raiseError .memFault
        { s with trace := .read .engine (a + 1) none :: .read .engine a (some (s.mem.read a)) :: s.trace }) ∨
    (memOK s.cfg a .read = true ∧ memOK s.cfg (a + 1) .read = true ∧ memOK s.cfg a .write = false ∧
      windowStep s = raiseError .memFault
        { s with
          trace := .write .engine a c.1 false ::
            .read .engine (a + 1) (some (s.mem.read (a + 1))) ::
            .read .engine a (some (s.mem.read a)) :: s.trace }) ∨
    (memOK s.cfg a .read = true ∧ memOK s.cfg (a + 1) .read = true ∧ memOK s.cfg a .write = true ∧
      memOK s.cfg (a + 1) .write = false ∧
      windowStep s = raiseError .memFault
        { s with
          mem := s.mem.write a c.1
          trace := .write .engine (a + 1) c.2 false :: .write .engine a c.1 true ::
            .read .engine (a + 1) (some (s.mem.read (a + 1))) ::
            .read .engine a (some (s.mem.read a)) :: s.trace }) ∨
    (memOK s.cfg a .read = true ∧ memOK s.cfg (a + 1) .read = true ∧ memOK s.cfg a .write = true ∧
      memOK s.cfg (a + 1) .write = true ∧
      windowStep s =
        { s with
          mem := (s.mem.write a c.1).write (a + 1) c.2
          idx := s.idx + 1#31
          trace := .write .engine (a + 1) c.2 true :: .write .engine a c.1 true ::
            .read .engine (a + 1) (some (s.mem.read (a + 1))) ::
            .read .engine a (some (s.mem.read a)) :: s.trace }) := by
  cases r0 : memOK s.cfg a .read
  · exact .inl ⟨rfl, windowStep_faultRead0 s a ha r0⟩
  cases r1 : memOK s.cfg (a + 1) .read
  · exact .inr (.inl ⟨rfl, rfl, windowStep_faultRead1 s a ha r0 r1⟩)
  cases w0 : memOK s.cfg a .write
  · exact .inr (.inr (.inl ⟨rfl, rfl, rfl, windowStep_faultWrite0 s a c ha hc r0 r1 w0⟩))
  cases w1 : memOK s.cfg (a + 1) .write
  · exact .inr (.inr (.inr (.inl ⟨rfl, rfl, rfl, rfl, windowStep_faultWrite1 s a c ha hc r0 r1 w0 w1⟩)))
  · exact .inr (.inr (.inr (.inr ⟨rfl, rfl, rfl, rfl, windowStep_performed s a c ha hc r0 r1 w0 w1⟩)))

/-- IDX does not wrap in a window step (R24). -/
theorem idx_add_one_toNat (s : State) (h : s.idx.toNat < s.wNwin.toNat) :
    (s.idx + 1#31).toNat = s.idx.toNat + 1 := by
  have := s.wNwin.isLt
  simp
  omega

/-- Everything the engine's turn can do. -/
theorem engineStep_cases (s : State) :
    (s.busy = true ∧ s.idx.toNat < s.wNwin.toNat ∧ engineStep s = windowStep s) ∨
    (s.busy = true ∧ s.idx = s.wNwin ∧ engineStep s = finishStep s) ∨
    ((s.busy = false ∨ s.wNwin.toNat < s.idx.toNat) ∧ engineStep s = s) := by
  unfold engineStep
  cases hb : s.busy with
  | false => simp
  | true =>
    by_cases hlt : s.idx.toNat < s.wNwin.toNat
    · simp [hlt]
    · by_cases heq : s.idx = s.wNwin
      · simp [heq]
      · have hne : s.idx.toNat ≠ s.wNwin.toNat := fun h => heq (BitVec.eq_of_toNat_eq h)
        have : s.wNwin.toNat < s.idx.toNat := by omega
        simp [hlt, heq, this]

end Sys2Proof.Machine
end

