-- ==== Sys2Proof/Laws/Exec.lean ====
section
/-! SUPPORT. What a host transaction can do, said once: it returns read data, sets a configuration register, clears
status bits, or is a write of CMD; and it always completes (R95). -/

namespace Sys2Proof.Machine

/-- Everything a transaction can do. -/
theorem exec_cases (i : Instr) (s : State) : ∃ t, exec i s = .next t ∧
    ((∃ v, t = respond v s) ∨
     (∃ b l g v, t = { s with bufBase := b, bufLen := l, gain := g, bufValid := v }) ∨
     (∃ w, i = .wrStatus w ∧ t = clearStatus w s) ∨
     (i = .apply ∧ t = writeCmd applyWord s) ∨
     (∃ w, i = .wrCmdReserved w ∧ t = writeCmd w s)) := by
  cases i
  case wrStatus w => exact ⟨_, rfl, .inr (.inr (.inl ⟨w, rfl, rfl⟩))⟩
  case apply => exact ⟨_, rfl, .inr (.inr (.inr (.inl ⟨rfl, rfl⟩)))⟩
  case wrCmdReserved w => exact ⟨_, rfl, .inr (.inr (.inr (.inr ⟨w, rfl, rfl⟩)))⟩
  all_goals first
    | exact ⟨_, rfl, .inl ⟨_, rfl⟩⟩
    | exact ⟨_, rfl, .inr (.inl ⟨_, _, _, _, rfl⟩)⟩

end Sys2Proof.Machine
end

