-- ==== Sys2Proof/Laws/Operands.lean ====
section
/-! SUPPORT. The values of the registers and the operands of a call as numbers (`30_encoding.md` R78, R106, R125). -/

namespace Sys2Proof.Machine

/-- The address a register holds is its value modulo `2^AW` (R28). -/
theorem addrBits_toNat (c : Config) (w : Word) : (addrBits c w).toNat = w.toNat % 2 ^ c.aw := by
  have h := Nat.mod_le w.toNat (2 ^ c.aw)
  have := w.isLt
  simp only [addrBits, BitVec.toNat_ofNat]
  omega

/-- BUF_BASE as a number (R96). -/
theorem bufBaseValue_toNat (s : State) : (bufBaseValue s).toNat = s.bufBase.toNat % 2 ^ s.cfg.aw :=
  addrBits_toNat s.cfg s.bufBase

/-- The number of windows is half the length, rounded down (R125). -/
theorem windowCount_toNat (len : Word) : (windowCount len).toNat = len.toNat / 2 := by
  have := len.isLt
  simp [windowCount, Nat.shiftRight_eq_div_pow]
  omega

/-- The odd-length bit tells an odd length (R37). -/
theorem oddLength_eq (len : Word) : oddLength len = decide (len.toNat % 2 = 1) := by
  simp [oddLength, BitVec.getLsbD, Nat.testBit]
  rcases Nat.mod_two_eq_zero_or_one len.toNat with h | h <;> simp [h]

/-- The range check in ℕ (R123). -/
theorem rangeFits_iff (s : State) :
    rangeFits s = true ↔ s.bufBase.toNat % 2 ^ s.cfg.aw + s.bufLen.toNat ≤ 2 ^ s.cfg.aw := by
  simp [rangeFits, bufBaseValue_toNat]

/-- Bits 3:0 of STATUS (R33). -/
theorem statusValue_getLsbD (s : State) :
    (statusValue s).getLsbD 0 = s.busy ∧ (statusValue s).getLsbD 1 = s.done ∧
    (statusValue s).getLsbD 2 = s.err ∧ (statusValue s).getLsbD 3 = s.odd := by
  unfold statusValue
  generalize s.busy = a
  generalize s.done = b
  generalize s.err = c
  generalize s.odd = d
  generalize s.errCode = e
  revert a b c d e
  decide

end Sys2Proof.Machine
end

