-- ==== Sys2Proof/Laws/PerInstr.lean ====
section
/-! SUPPORT. The family EncodeFitsRow: the word of a well-formed instruction has, under the mask of the instruction's own
row of the opcode table, the row's match value (`30_encoding.md` R89). -/

namespace Sys2Proof.Laws.EncodeFitsRow

/-- The word of `i` matches the rows that bear the name of `i`. -/
def Statement (i : Instr) : Prop :=
  i.WellFormed → ∀ row ∈ opcodeTable, row.mnemonic = instrMnemonic i → rowMatches row (encode i) = true

/-- A table row matches a word when the word's bits under the mask are the row's value. -/
theorem row_matches_of_and {row : OpRow} {tw : TransWord} (h : tw &&& row.mask = row.value) :
    rowMatches row tw = true := by
  simp [rowMatches, h]

/-- The conjunction of two words is that of their fields. -/
theorem and_mkTransWord (we we' : Bool) (rn rn' : BitVec 4) (w w' : Word) :
    mkTransWord we rn w &&& mkTransWord we' rn' w' = mkTransWord (we && we') (rn &&& rn') (w &&& w') := by
  unfold mkTransWord
  erw [BitVec.and_append, BitVec.and_append]
  simp

/-- Under the mask of `we` and `rn` a word keeps those two fields alone. -/
theorem and_fieldMask (we : Bool) (rn : BitVec 4) (wdata : Word) :
    mkTransWord we rn wdata &&& 0x1F00000000#37 = mkTransWord we rn 0#32 := by
  have hrn : rn &&& 15#4 = rn := by revert rn; decide
  have h := and_mkTransWord we true rn 15#4 wdata 0#32
  rwa [hrn, Bool.and_true, BitVec.and_zero] at h

/-- Under the mask of `we` and `rn[3]` a word keeps those two bits alone. -/
theorem and_highMask (we : Bool) (rn : BitVec 4) (wdata : Word) (hb : rn.getLsbD 3 = true) :
    mkTransWord we rn wdata &&& 0x1800000000#37 = mkTransWord we 8#4 0#32 := by
  have hrn : rn &&& 8#4 = 8#4 := by revert rn; decide
  have h := and_mkTransWord we true rn 8#4 wdata 0#32
  rwa [hrn, Bool.and_true, BitVec.and_zero] at h

/-- One row alone bears the name `i` has in the table, and the word of `i` matches it. -/
theorem of_only_row {i : Instr} {r : OpRow} (hn : instrMnemonic i = r.mnemonic)
    (hr : opcodeTable.filter (fun x => x.mnemonic == r.mnemonic) = [r])
    (hw : i.WellFormed → encode i &&& r.mask = r.value) : Statement i := by
  intro hi row hrow hm
  have hmem : row ∈ opcodeTable.filter (fun x => x.mnemonic == r.mnemonic) :=
    List.mem_filter.2 ⟨hrow, by simp [hm, hn]⟩
  rw [hr, List.mem_singleton] at hmem
  subst hmem
  exact row_matches_of_and (hw hi)

theorem rdBufBase : Statement (.rdBufBase) :=
  of_only_row (r := ⟨"RD_BUF_BASE", 0x0000000000#37, 0x1F00000000#37⟩) rfl (by decide)
    (fun _ => (and_fieldMask false 0#4 0#32).trans (by decide))

theorem wrBufBase (wdata : Word) : Statement (.wrBufBase wdata) :=
  of_only_row (r := ⟨"WR_BUF_BASE", 0x1000000000#37, 0x1F00000000#37⟩) rfl (by decide)
    (fun _ => (and_fieldMask true 0#4 wdata).trans (by decide))

theorem rdBufLen : Statement (.rdBufLen) :=
  of_only_row (r := ⟨"RD_BUF_LEN", 0x0100000000#37, 0x1F00000000#37⟩) rfl (by decide)
    (fun _ => (and_fieldMask false 1#4 0#32).trans (by decide))

theorem wrBufLen (wdata : Word) : Statement (.wrBufLen wdata) :=
  of_only_row (r := ⟨"WR_BUF_LEN", 0x1100000000#37, 0x1F00000000#37⟩) rfl (by decide)
    (fun _ => (and_fieldMask true 1#4 wdata).trans (by decide))

theorem rdGain : Statement (.rdGain) :=
  of_only_row (r := ⟨"RD_GAIN", 0x0200000000#37, 0x1F00000000#37⟩) rfl (by decide)
    (fun _ => (and_fieldMask false 2#4 0#32).trans (by decide))

theorem wrGain (wdata : Word) : Statement (.wrGain wdata) :=
  of_only_row (r := ⟨"WR_GAIN", 0x1200000000#37, 0x1F00000000#37⟩) rfl (by decide)
    (fun _ => (and_fieldMask true 2#4 wdata).trans (by decide))

theorem rdCtrl : Statement (.rdCtrl) :=
  of_only_row (r := ⟨"RD_CTRL", 0x0300000000#37, 0x1F00000000#37⟩) rfl (by decide)
    (fun _ => (and_fieldMask false 3#4 0#32).trans (by decide))

theorem wrCtrl (wdata : Word) : Statement (.wrCtrl wdata) :=
  of_only_row (r := ⟨"WR_CTRL", 0x1300000000#37, 0x1F00000000#37⟩) rfl (by decide)
    (fun _ => (and_fieldMask true 3#4 wdata).trans (by decide))

theorem rdCmd : Statement (.rdCmd) :=
  of_only_row (r := ⟨"RD_CMD", 0x0400000000#37, 0x1F00000000#37⟩) rfl (by decide)
    (fun _ => (and_fieldMask false 4#4 0#32).trans (by decide))

theorem apply : Statement (.apply) :=
  of_only_row (r := ⟨"APPLY", 0x1400000001#37, 0x1FFFFFFFFF#37⟩) rfl (by decide)
    (fun _ => by decide)

theorem wrCmdReserved (wdata : Word) : Statement (.wrCmdReserved wdata) :=
  of_only_row (r := ⟨"WR_CMD_RESERVED", 0x1400000000#37, 0x1F00000000#37⟩) rfl (by decide)
    (fun _ => (and_fieldMask true 4#4 wdata).trans (by decide))

theorem rdStatus : Statement (.rdStatus) :=
  of_only_row (r := ⟨"RD_STATUS", 0x0500000000#37, 0x1F00000000#37⟩) rfl (by decide)
    (fun _ => (and_fieldMask false 5#4 0#32).trans (by decide))

theorem wrStatus (wdata : Word) : Statement (.wrStatus wdata) :=
  of_only_row (r := ⟨"WR_STATUS", 0x1500000000#37, 0x1F00000000#37⟩) rfl (by decide)
    (fun _ => (and_fieldMask true 5#4 wdata).trans (by decide))

theorem rdProgress : Statement (.rdProgress) :=
  of_only_row (r := ⟨"RD_PROGRESS", 0x0600000000#37, 0x1F00000000#37⟩) rfl (by decide)
    (fun _ => (and_fieldMask false 6#4 0#32).trans (by decide))

theorem wrProgress (wdata : Word) : Statement (.wrProgress wdata) :=
  of_only_row (r := ⟨"WR_PROGRESS", 0x1600000000#37, 0x1F00000000#37⟩) rfl (by decide)
    (fun _ => (and_fieldMask true 6#4 wdata).trans (by decide))

theorem rdRsvd7 : Statement (.rdRsvd7) :=
  of_only_row (r := ⟨"RD_RSVD_7", 0x0700000000#37, 0x1F00000000#37⟩) rfl (by decide)
    (fun _ => (and_fieldMask false 7#4 0#32).trans (by decide))

theorem rdRsvd8to15 (rn : BitVec 4) : Statement (.rdRsvd8to15 rn) :=
  of_only_row (r := ⟨"RD_RSVD_8_15", 0x0800000000#37, 0x1800000000#37⟩) rfl (by decide)
    (fun h => (and_highMask false rn 0#32 h).trans (by decide))

theorem wrRsvd7 (wdata : Word) : Statement (.wrRsvd7 wdata) :=
  of_only_row (r := ⟨"WR_RSVD_7", 0x1700000000#37, 0x1F00000000#37⟩) rfl (by decide)
    (fun _ => (and_fieldMask true 7#4 wdata).trans (by decide))

theorem wrRsvd8to15 (rn : BitVec 4) (wdata : Word) : Statement (.wrRsvd8to15 rn wdata) :=
  of_only_row (r := ⟨"WR_RSVD_8_15", 0x1800000000#37, 0x1800000000#37⟩) rfl (by decide)
    (fun h => (and_highMask true rn wdata h).trans (by decide))

end Sys2Proof.Laws.EncodeFitsRow
end

