-- ==== Sys2Proof/Laws/Step.lean ====
section
/-! SUPPORT. What one step can do, said once: one lemma per kind of step to come. -/

namespace Sys2Proof.Machine

@[simp] theorem step_nil (s : State) (h : s.pending = []) : step s = .next (engineStep s) := by
  simp [step, h]

theorem step_cons (s : State) (i : Input) (rest : List Input) (h : s.pending = i :: rest) :
    step s = runInput i (takePending rest s) := by
  simp [step, h]

theorem step_transaction (s : State) (tw : TransWord) (rest : List Input)
    (h : s.pending = .transaction tw :: rest) : step s = exec (decode tw) (takePending rest s) := by
  simp [step, h, runInput]

/-- The addresses a master may access exist; elsewhere the step stops. -/
theorem foreignWrite_cases (who : Master) (a : Nat) (v : Byte) (s : State) :
    (a < 2 ^ s.cfg.aw ∧ foreignWrite who a v s = .next (storeByte (.master who) a v s).2) ∨
    (2 ^ s.cfg.aw ≤ a ∧ foreignWrite who a v s = .fault (.noSuchAddress a)) := by
  unfold foreignWrite
  by_cases h : a < 2 ^ s.cfg.aw
  · exact .inl ⟨h, if_pos h⟩
  · exact .inr ⟨by omega, if_neg h⟩

theorem foreignRead_cases (who : Master) (a : Nat) (s : State) :
    (a < 2 ^ s.cfg.aw ∧ foreignRead who a s = .next (loadByte (.master who) a s).2) ∨
    (2 ^ s.cfg.aw ≤ a ∧ foreignRead who a s = .fault (.noSuchAddress a)) := by
  unfold foreignRead
  by_cases h : a < 2 ^ s.cfg.aw
  · exact .inl ⟨h, if_pos h⟩
  · exact .inr ⟨by omega, if_neg h⟩

/-- Everything a step can do, by the head of the list of steps to come. -/
theorem step_cases {s t : State} (h : step s = .next t) :
    (s.pending = [] ∧ t = engineStep s) ∨
    (∃ rest, s.pending = .engine :: rest ∧ t = engineStep (takePending rest s)) ∨
    (∃ tw rest, s.pending = .transaction tw :: rest ∧ exec (decode tw) (takePending rest s) = .next t) ∨
    (∃ who a rest, s.pending = .memRead who a :: rest ∧ a < 2 ^ s.cfg.aw ∧
      t = (loadByte (.master who) a (takePending rest s)).2) ∨
    (∃ who a v rest, s.pending = .memWrite who a v :: rest ∧ a < 2 ^ s.cfg.aw ∧
      t = (storeByte (.master who) a v (takePending rest s)).2) ∨
    (∃ rest, s.pending = .reset :: rest ∧ t = resetBlock (takePending rest s)) := by
  cases hp : s.pending with
  | nil =>
    rw [step_nil s hp] at h
    injection h with h
    exact .inl ⟨rfl, h.symm⟩
  | cons i rest =>
    rw [step_cons s i rest hp] at h
    cases i with
    | transaction tw => exact .inr (.inr (.inl ⟨tw, rest, rfl, h⟩))
    | engine =>
      simp only [runInput] at h
      injection h with h
      exact .inr (.inl ⟨rest, rfl, h.symm⟩)
    | memRead who a =>
      simp only [runInput] at h
      rcases foreignRead_cases who a (takePending rest s) with ⟨ha, he⟩ | ⟨ha, he⟩
      · rw [he] at h
        injection h with h
        exact .inr (.inr (.inr (.inl ⟨who, a, rest, rfl, ha, h.symm⟩)))
      · rw [he] at h
        cases h
    | memWrite who a v =>
      simp only [runInput] at h
      rcases foreignWrite_cases who a v (takePending rest s) with ⟨ha, he⟩ | ⟨ha, he⟩
      · rw [he] at h
        injection h with h
        exact .inr (.inr (.inr (.inr (.inl ⟨who, a, v, rest, rfl, ha, h.symm⟩))))
      · rw [he] at h
        cases h
    | reset =>
      simp only [runInput] at h
      injection h with h
      exact .inr (.inr (.inr (.inr (.inr ⟨rest, rfl, h.symm⟩))))

/-- A run whose first step answers a next state is the run from there. -/
theorem coreRun_succ (M : Host.Core) (k : Nat) (s t : M.State) (h : M.step s = .next t) :
    M.run (k + 1) s = M.run k t := by
  rw [Host.Core.run, h]

end Sys2Proof.Machine
end

