-- ==== Sys2Proof/Tests/Slice0.lean ====
section
/-! SUPPORT. Tests by hand calculation and from `95_test_vectors.md`, and a witness for the hypotheses of each statement that
has some. Every machine state here is a small variation of `idle`. -/

namespace Sys2Proof.Tests

open Sys2Proof Sys2Proof.Machine

/-! ## Small states -/

/-- An idle machine with a 16-byte address space, a buffer of `len` bytes at `base` and a gain. -/
def idle (base len gain : Word) (mem : Memory) : State :=
  { State.reset with
    cfg := { aw := 4, denied := [] }, bufBase := base, bufLen := len, gain := gain, bufValid := true, mem := mem }

/-- A call in progress at window `i` of `n` from address 4, gain 2.0, the bytes of X1 at 4 and of X2 at 6. -/
def running (i n : WinCount) (denied : List Denial) : State :=
  { idle 4#32 4#32 0x40000000#32 [(5, 0x01#8), (6, 0xFF#8), (7, 0x7F#8)] with
    cfg := { aw := 4, denied := denied }, busy := true, idx := i, wBase := 4#32, wNwin := n,
    wGain := 0x40000000#32 }

/-- The step's next state meets a check. -/
def stepMeets (check : State → Bool) (s : State) : Bool :=
  match step s with
  | .next t => check t
  | _ => false

/-- The transaction's next state meets a check. -/
def execMeets (i : Instr) (check : State → Bool) (s : State) : Bool :=
  match exec i s with
  | .next t => check t
  | _ => false

/-! ## WellFormed refuses the ill-formed terms -/

theorem test_wellFormed_command_word_of_apply : Instr.wellFormed (.wrCmdReserved 0x00000001#32) = false := by decide
theorem test_wellFormed_read_of_low_number : Instr.wellFormed (.rdRsvd8to15 7#4) = false := by decide
theorem test_wellFormed_write_of_low_number : Instr.wellFormed (.wrRsvd8to15 3#4 0#32) = false := by decide
theorem test_wellFormed_register_name : Reg.wellFormed (.reserved 6#4) = false := by decide
theorem test_wellFormed_accepts_the_bounds :
    Instr.wellFormed (.rdRsvd8to15 8#4) = true ∧ Instr.wellFormed (.wrRsvd8to15 15#4 0#32) = true ∧
    Instr.wellFormed (.wrCmdReserved 0#32) = true ∧ Reg.wellFormed (.reserved 7#4) = true := by decide

/-! ## Decoding: a word of every constructor, its fields written out (R76: we, rn, wdata) -/

theorem test_decode_rdBufBase : decode 0b0000000000000000000000000000000000000#37 = .rdBufBase := by decide
theorem test_decode_wrBufBase :
    decode 0b1000000000000000000000001000000000000#37 = .wrBufBase 0x00001000#32 := by decide
theorem test_decode_rdBufLen : decode 0b0000100000000000000000000000000000000#37 = .rdBufLen := by decide
theorem test_decode_wrBufLen :
    decode 0b1000100000000000000000000000000000111#37 = .wrBufLen 0x00000007#32 := by decide
theorem test_decode_rdGain : decode 0b0001000000000000000000000000000000000#37 = .rdGain := by decide
theorem test_decode_wrGain :
    decode 0b1001001000000000000000000000000000000#37 = .wrGain 0x40000000#32 := by decide
theorem test_decode_rdCtrl : decode 0b0001100000000000000000000000000000000#37 = .rdCtrl := by decide
theorem test_decode_wrCtrl :
    decode 0b1001100000000000000000000000000000001#37 = .wrCtrl 0x00000001#32 := by decide
theorem test_decode_rdCmd : decode 0b0010000000000000000000000000000000000#37 = .rdCmd := by decide
theorem test_decode_apply : decode 0b1010000000000000000000000000000000001#37 = .apply := by decide
theorem test_decode_wrCmdReserved :
    decode 0b1010010000000000000000000000000000001#37 = .wrCmdReserved 0x80000001#32 := by decide
theorem test_decode_rdStatus : decode 0b0010100000000000000000000000000000000#37 = .rdStatus := by decide
theorem test_decode_wrStatus :
    decode 0b1010100000000000000000000000000001110#37 = .wrStatus 0x0000000E#32 := by decide
theorem test_decode_rdProgress : decode 0b0011000000000000000000000000000000000#37 = .rdProgress := by decide
theorem test_decode_wrProgress :
    decode 0b1011000000000000000000000000000000011#37 = .wrProgress 0x00000003#32 := by decide
theorem test_decode_rdRsvd7 : decode 0b0011100000000000000000000000000000000#37 = .rdRsvd7 := by decide
theorem test_decode_rdRsvd8to15 :
    decode 0b0111100000000000000000000000000000000#37 = .rdRsvd8to15 15#4 := by decide
theorem test_decode_wrRsvd7 :
    decode 0b1011100000000000000000000000000000001#37 = .wrRsvd7 0x00000001#32 := by decide
theorem test_decode_wrRsvd8to15 :
    decode 0b1100011111111111111111111111111111111#37 = .wrRsvd8to15 8#4 0xFFFFFFFF#32 := by decide

/-- A read ignores its data bits (R76). -/
theorem test_decode_read_ignores_wdata : decode 0x02DEADBEEF#37 = .rdGain := by decide

theorem test_decodeBytes_apply :
    decodeBytes [0x01#8, 0x00#8, 0x00#8, 0x00#8, 0x14#8] = .ok .apply := by decide
theorem test_decodeBytes_short :
    decodeBytes [0x01#8, 0x00#8, 0x00#8, 0x00#8] = .error .wrongLength := by decide
theorem test_decodeBytes_bits_above_word :
    decodeBytes [0x01#8, 0x00#8, 0x00#8, 0x00#8, 0x34#8] = .error .bitsAboveWord := by decide
theorem test_decodeTableWord : decodeTableWord 40 0x1400000001 = some .apply := by decide
theorem test_decodeTableWord_above : decodeTableWord 40 0x2400000001 = none := by decide

/-! ## The datapath (`95_test_vectors.md` sections 1 to 7) -/

theorem test_window_X1 : window 0x00#8 0x01#8 0x40000000#32 = (0x00#8, 0x02#8) := by decide
theorem test_window_X2_wraps : window 0xFF#8 0x7F#8 0x40000000#32 = (0xFE#8, 0xFF#8) := by decide
theorem test_window_overflow_to_infinity : window 0x02#8 0x00#8 0x7F7FFFFF#32 = (0x00#8, 0x00#8) := by decide
theorem test_fmul32_rounds_up_R153 : fmul32 0x41200000#32 0x3F333333#32 = 0x40E00000#32 := by decide
theorem test_fmul32_tie_to_even : fmul32 0x40400000#32 0x3F800001#32 = 0x40400002#32 := by decide
theorem test_fmul32_keeps_subnormal_R152 : fmul32 0xBF800000#32 0x00000001#32 = 0x80000001#32 := by decide
theorem test_fmul32_subnormal_to_normal : fmul32 0x40400000#32 0x00400001#32 = 0x00C00003#32 := by decide
theorem test_floor32_is_not_truncation : floor32 0xBFC00000#32 = 0xC0000000#32 := by decide
theorem test_floor32_largest_fraction : floor32 0xCAFFFFFF#32 = 0xCB000000#32 := by decide
theorem test_cvtF32S16w_wraps : cvtF32S16w 0xC7000100#32 = 0x7FFF#16 := by decide

/-! ## One transaction or one engine step -/

theorem test_wrBufBase_drops_high_bits :
    execMeets (.wrBufBase 0xFFFFFFF5#32) (fun t => t.bufBase == 5#32) (idle 0#32 0#32 0#32 []) = true := by decide
theorem test_wrCtrl_reads_bit_0_alone :
    execMeets (.wrCtrl 0xFFFFFFFE#32) (fun t => t.bufValid == false) (idle 0#32 0#32 0#32 []) = true := by decide
theorem test_wrStatus_clears_err_and_code :
    execMeets (.wrStatus 0x00000004#32) (fun t => t.err == false && t.errCode == 0#4 && t.odd)
      { idle 0#32 0#32 0#32 [] with err := true, errCode := 4#4, odd := true } = true := by decide
theorem test_rdStatus_layout :
    execMeets .rdStatus (fun t => t.returned == [0x0000004C#32])
      { idle 0#32 0#32 0#32 [] with err := true, errCode := 4#4, odd := true } = true := by decide
theorem test_rdProgress_in_a_call :
    execMeets .rdProgress (fun t => t.returned == [0x00000001#32]) (running 1#31 2#31 []) = true := by decide
theorem test_apply_latches :
    execMeets .apply (fun t => t.busy && t.odd && t.wBase == 4#32 && t.wNwin == 2#31 && t.idx == 0#31)
      (idle 0x00000034#32 5#32 0x40000000#32 []) = true := by decide
theorem test_apply_refuses_infinite_gain :
    execMeets .apply (fun t => t.err && t.errCode == 3#4 && !t.busy)
      (idle 4#32 99#32 0x7F800000#32 []) = true := by decide
theorem test_apply_range_bound :
    execMeets .apply (fun t => t.busy) (idle 12#32 4#32 0#32 []) = true ∧
    execMeets .apply (fun t => t.errCode == 4#4) (idle 12#32 5#32 0#32 []) = true := by decide
theorem test_wrCmdReserved_idle :
    execMeets (.wrCmdReserved 0#32) (fun t => t.err && t.errCode == 1#4 && !t.done)
      { idle 0#32 0#32 0#32 [] with done := true } = true := by decide
theorem test_wrCmdReserved_dropped :
    execMeets (.wrCmdReserved 0#32) (fun t => t == running 1#31 2#31 []) (running 1#31 2#31 []) = true := by decide
theorem test_window_step_X1 :
    stepMeets (fun t => t.idx == 1#31 && t.mem == [(5, 0x02#8), (6, 0xFF#8), (7, 0x7F#8)])
      (running 0#31 2#31 []) = true := by decide
theorem test_finish_step :
    stepMeets (fun t => !t.busy && t.done && t.mem.read 7 == 0x7F#8) (running 2#31 2#31 []) = true := by decide
theorem test_write_fault_leaves_first_byte :
    stepMeets (fun t => t.errCode == 5#4 && t.idx == 1#31 && t.mem == [(5, 0x01#8), (6, 0xFE#8), (7, 0x7F#8)])
      (running 1#31 2#31 [⟨.write, 7, 7⟩]) = true := by decide
theorem test_reset_in_a_call :
    stepMeets (fun t => !t.busy && t.gain == 0x3F800000#32 && t.mem == (running 1#31 2#31 []).mem)
      { running 1#31 2#31 [] with pending := [.reset] } = true := by decide
theorem test_foreign_access_outside :
    step { running 1#31 2#31 [] with pending := [.memWrite .host 16 1#8] } = .fault (.noSuchAddress 16) := by
  rfl
theorem test_withFetchWord_runs_next :
    stepMeets (fun t => t.busy && t.pending == []) ((idle 4#32 4#32 0#32 []).withFetchWord 40 0x1400000001) = true := by
  decide

/-! ## Witnesses: concrete values that meet the hypotheses of each statement that has some -/

/-- The engine has a window to process and it is the engine's turn. -/
def midCall : State := running 1#31 2#31 []

/-- All windows are processed and it is the engine's turn. -/
def endCall : State := running 2#31 2#31 []

theorem witness_ResetStepKeepsBufferMemory :
    ({ midCall with pending := [.reset, .engine] } : State).pending = .reset :: [.engine] := rfl

theorem witness_StepRunsTheDecodedTransaction :
    ({ midCall with pending := [.transaction 0x1400000001#37] } : State).pending =
      .transaction 0x1400000001#37 :: [] := rfl

theorem witness_DecodingAnEncodedInstructionGivesItBack :
    (Instr.rdRsvd8to15 8#4).WellFormed ∧ (Instr.wrRsvd8to15 15#4 0xFFFFFFFF#32).WellFormed ∧
    (Instr.wrCmdReserved 0x00000000#32).WellFormed ∧ Instr.apply.WellFormed := by decide

theorem witness_EveryWordIsAnEncoding :
    twWe 0x1000000000#37 = true ∧ twWe 0x0FFFFFFFFF#37 = false := by decide

theorem witness_OpcodeTableSelectsTheDecodedRow :
    ∃ r r', opcodeTable[9]? = some r ∧ opcodeTable[10]? = some r' ∧ (9 : Nat) < 10 ∧
      rowMatches r 0x1400000001#37 = true ∧ rowMatches r' 0x1400000001#37 = true :=
  ⟨_, _, rfl, rfl, by decide, by decide, by decide⟩

theorem witness_DroppedOperandBitsAreIgnored :
    (0x00000015#32).toNat % 2 ^ (idle 0#32 0#32 0#32 []).cfg.aw =
      (0xFFFFFFF5#32).toNat % 2 ^ (idle 0#32 0#32 0#32 []).cfg.aw ∧
    (0x00000001#32).getLsbD 0 = (0xFFFFFFFF#32).getLsbD 0 ∧
    (0x0000000E#32).getLsbD 1 = (0xFFFFFFFF#32).getLsbD 1 ∧
    (0x0000000E#32).getLsbD 2 = (0xFFFFFFFF#32).getLsbD 2 ∧
    (0x0000000E#32).getLsbD 3 = (0xFFFFFFFF#32).getLsbD 3 := by decide

theorem witness_AssemblerLinesDecodeAsWritten :
    (Reg.reserved 7#4).WellFormed ∧ (Reg.reserved 15#4).WellFormed ∧ Reg.bufBase.WellFormed := by decide

theorem witness_BufferAndGainReadsReturnTheRegisters :
    0x00FFFFFFFF#37 &&& 0x1F00000000#37 = 0x0000000000#37 ∧
    0x01FFFFFFFF#37 &&& 0x1F00000000#37 = 0x0100000000#37 ∧
    0x0200000000#37 &&& 0x1F00000000#37 = 0x0200000000#37 := by decide

theorem witness_CtrlCmdAndProgressReads :
    0x03FFFFFFFF#37 &&& 0x1F00000000#37 = 0x0300000000#37 ∧
    0x0400000001#37 &&& 0x1F00000000#37 = 0x0400000000#37 ∧
    0x0600000000#37 &&& 0x1F00000000#37 = 0x0600000000#37 := by decide

theorem witness_StatusReadShowsEveryFieldInItsPlace :
    0x05FFFFFFFF#37 &&& 0x1F00000000#37 = 0x0500000000#37 := by decide

theorem witness_ReservedRegistersReadZeroAndIgnoreWrites :
    0x16FFFFFFFF#37 &&& 0x1F00000000#37 = 0x1600000000#37 ∧
    0x07FFFFFFFF#37 &&& 0x1F00000000#37 = 0x0700000000#37 ∧
    0x0800000000#37 &&& 0x1800000000#37 = 0x0800000000#37 ∧
    0x0FFFFFFFFF#37 &&& 0x1800000000#37 = 0x0800000000#37 ∧
    0x1700000000#37 &&& 0x1F00000000#37 = 0x1700000000#37 ∧
    0x1800000000#37 &&& 0x1800000000#37 = 0x1800000000#37 ∧
    0x1FFFFFFFFF#37 &&& 0x1800000000#37 = 0x1800000000#37 := by decide

theorem witness_ConfigurationWritesSetTheirRegister :
    0x10FFFFFFFF#37 &&& 0x1F00000000#37 = 0x1000000000#37 ∧
    0x1100000000#37 &&& 0x1F00000000#37 = 0x1100000000#37 ∧
    0x127FC12345#37 &&& 0x1F00000000#37 = 0x1200000000#37 ∧
    0x1300000001#37 &&& 0x1F00000000#37 = 0x1300000000#37 := by decide

theorem witness_StatusWriteClearsByMask :
    0x150000000A#37 &&& 0x1F00000000#37 = 0x1500000000#37 ∧
    (0x150000000A#37 : TransWord).getLsbD 1 = true ∧ (0x150000000A#37 : TransWord).getLsbD 2 = false ∧
    (0x150000000A#37 : TransWord).getLsbD 3 = true ∧
    0x1500000004#37 &&& 0x1F00000000#37 = 0x1500000000#37 ∧
    (0x1500000004#37 : TransWord).getLsbD 1 = false ∧ (0x1500000004#37 : TransWord).getLsbD 2 = true ∧
    (0x1500000004#37 : TransWord).getLsbD 3 = false := by decide

theorem witness_CommandWhileBusyIsDropped :
    0x1400000001#37 &&& 0x1F00000000#37 = 0x1400000000#37 ∧ midCall.busy = true := by decide

theorem witness_CommandFirstClearsTheRecord :
    0x14FFFFFFFF#37 &&& 0x1F00000000#37 = 0x1400000000#37 ∧ (idle 4#32 4#32 0#32 []).busy = false := by decide

theorem witness_ReservedCommandWordIsIllegal :
    0x1400000000#37 &&& 0x1F00000000#37 = 0x1400000000#37 ∧ 0x1400000000#37 ≠ 0x1400000001#37 ∧
    (idle 4#32 4#32 0#32 []).busy = false := by decide

theorem witness_ApplyIsRefusedByTheFirstFailingCheck :
    (∃ s : State, s.busy = false ∧ s.bufValid = false) ∧
    (∃ s : State, s.busy = false ∧ s.bufValid = true ∧ s.gain.extractLsb' 23 8 = 0xFF#8) ∧
    (∃ s : State, s.busy = false ∧ s.bufValid = true ∧ s.gain.extractLsb' 23 8 ≠ 0xFF#8 ∧
      2 ^ s.cfg.aw < s.bufBase.toNat % 2 ^ s.cfg.aw + s.bufLen.toNat) :=
  ⟨⟨State.reset, by decide⟩, ⟨idle 0#32 0#32 0x7F800000#32 [], by decide⟩,
   ⟨idle 12#32 5#32 0x7F7FFFFF#32 [], by decide⟩⟩

theorem witness_ApplyIsAcceptedAndLatchesItsOperands :
    ∃ s : State, s.busy = false ∧ s.bufValid = true ∧ s.gain.extractLsb' 23 8 ≠ 0xFF#8 ∧
      s.bufBase.toNat % 2 ^ s.cfg.aw + s.bufLen.toNat ≤ 2 ^ s.cfg.aw :=
  ⟨idle 12#32 4#32 0x7F7FFFFF#32 [], by decide⟩

theorem witness_ZeroWindowCallFinishesWithoutAccess :
    (∃ s : State, s.busy = false ∧ s.bufLen.toNat ≤ 1 ∧ s.bufValid = true ∧
      s.gain.extractLsb' 23 8 ≠ 0xFF#8) ∧
    (∃ s : State, s.busy = false ∧ s.bufLen.toNat ≤ 1 ∧ s.bufValid = false) :=
  ⟨⟨idle 15#32 1#32 0#32 [], by decide⟩, ⟨State.reset, by decide⟩⟩

theorem witness_WindowStepProcessesOneWindow :
    midCall.pending = [] ∧ midCall.busy = true ∧ midCall.idx.toNat < midCall.wNwin.toNat ∧
    6 = midCall.wBase.toNat + 2 * midCall.idx.toNat ∧
    memOK midCall.cfg 6 .read = true ∧ memOK midCall.cfg (6 + 1) .read = true ∧
    memOK midCall.cfg 6 .write = true ∧ memOK midCall.cfg (6 + 1) .write = true ∧
    memOK (running 1#31 2#31 [⟨.write, 7, 7⟩]).cfg (6 + 1) .write = false := by decide

theorem witness_FinishStepEndsTheCall :
    (endCall.pending = [] ∧ endCall.busy = true ∧ endCall.idx = endCall.wNwin) ∧
    (State.reset.pending = [] ∧ State.reset.busy = false) := by decide

/-- At window 0 nothing of the buffer is processed. -/
theorem atFirstWindow_callPrefix (d : List Denial) :
    callPrefix (fun x => (running 0#31 2#31 d).mem.read x) (running 0#31 2#31 d) := by
  refine ⟨rfl, fun a _ => ?_⟩
  unfold processedByte
  rw [if_neg]
  rintro ⟨lo, hi⟩
  change 4 ≤ a at lo
  change a < 4 at hi
  omega

/-- One platform for each clause, and the windows below IDX processed: it refuses the read of b0, of b1, the write of c0, of c1. -/
theorem witness_MemoryFaultLeavesTheTabulatedBytes :
    (∀ d, (running 1#31 2#31 d).pending = [] ∧ (running 1#31 2#31 d).busy = true ∧
      (running 1#31 2#31 d).idx.toNat < (running 1#31 2#31 d).wNwin.toNat ∧
      6 = (running 1#31 2#31 d).wBase.toNat + 2 * (running 1#31 2#31 d).idx.toNat) ∧
    memOK (running 1#31 2#31 [⟨.read, 6, 6⟩]).cfg 6 .read = false ∧
    (memOK (running 1#31 2#31 [⟨.read, 7, 7⟩]).cfg 6 .read = true ∧
      memOK (running 1#31 2#31 [⟨.read, 7, 7⟩]).cfg (6 + 1) .read = false) ∧
    (memOK (running 1#31 2#31 [⟨.write, 6, 6⟩]).cfg 6 .read = true ∧
      memOK (running 1#31 2#31 [⟨.write, 6, 6⟩]).cfg (6 + 1) .read = true ∧
      memOK (running 1#31 2#31 [⟨.write, 6, 6⟩]).cfg 6 .write = false) ∧
    (memOK (running 1#31 2#31 [⟨.write, 7, 7⟩]).cfg 6 .read = true ∧
      memOK (running 1#31 2#31 [⟨.write, 7, 7⟩]).cfg (6 + 1) .read = true ∧
      memOK (running 1#31 2#31 [⟨.write, 7, 7⟩]).cfg 6 .write = true ∧
      memOK (running 1#31 2#31 [⟨.write, 7, 7⟩]).cfg (6 + 1) .write = false) ∧
    (callPrefix (fun x => (running 0#31 2#31 [⟨.read, 4, 4⟩]).mem.read x) (running 0#31 2#31 [⟨.read, 4, 4⟩]) ∧
      memOK (running 0#31 2#31 [⟨.read, 4, 4⟩]).cfg 4 .read = false ∧
      inWindows (running 0#31 2#31 [⟨.read, 4, 4⟩]).wBase (running 0#31 2#31 [⟨.read, 4, 4⟩]).wNwin.toNat 7) :=
  ⟨fun _ => ⟨rfl, rfl, (by decide : (1#31).toNat < (2#31).toNat), rfl⟩, by decide, by decide, by decide, by decide,
   atFirstWindow_callPrefix _, by decide, by unfold inWindows; decide⟩

theorem midCall_machineInv : machineInv midCall := by
  unfold machineInv statusInv callInv
  decide

theorem endCall_machineInv : machineInv endCall := by
  unfold machineInv statusInv callInv
  decide

theorem midCall_admitted : admitted midCall.cfg midCall.wBase midCall.wNwin.toNat := by
  rintro a ⟨lo, hi⟩
  change 4 ≤ a at lo
  change a < 8 at hi
  interval_cases a <;> decide

theorem witness_EngineAccessesStayInTheWindows :
    machineInv midCall ∧ engineTurn midCall ∧ (∃ t, step midCall = .next t) ∧
    engineTurn State.reset ∧ State.reset.busy = false :=
  ⟨midCall_machineInv, .inl rfl, ⟨_, rfl⟩, .inl rfl, rfl⟩

theorem witness_EngineKeepsRegistersAndOtherMemory :
    engineTurn midCall ∧ (∃ t, step midCall = .next t) ∧
    ¬inWindows midCall.wBase midCall.wNwin.toNat 3 ∧ ¬inWindows midCall.wBase midCall.wNwin.toNat 8 := by
  refine ⟨.inl rfl, ⟨_, rfl⟩, ?_, ?_⟩ <;> unfold inWindows <;> decide

theorem witness_UnpackReadsLittleEndianTwosComplement :
    (0x7F#8).toNat < 128 ∧ 128 ≤ (0x80#8).toNat := by decide

theorem witness_UnpackAndPackAreInverse :
    ((-32768 : Int) ≤ -32768 ∧ (-32768 : Int) ≤ 32767) ∧ ((-32768 : Int) ≤ 32767 ∧ (32767 : Int) ≤ 32767) := by
  decide

theorem witness_SampleConversionIsExact :
    (-32768 : Int) ≤ -32768 ∧ (-32768 : Int) ≤ 32767 ∧
    cvtS16F32 (-32768) = cvtS16F32 (-32768) := by decide

/-- The least product that overflows, the greatest finite one, and a tie. -/
theorem witness_RoundingIsToNearestTiesToEven :
    (2 : ℚ) ^ (128 : ℕ) - 2 ^ (103 : ℕ) ≤ ((2 ^ 25 - 1 : ℕ) : ℚ) * 2 ^ (103 : ℤ) ∧
    (((2 ^ 24 - 1 : ℕ) : ℚ) * 2 ^ (104 : ℤ) < (2 : ℚ) ^ (128 : ℕ) - 2 ^ (103 : ℕ) ∧
      isFinite 0x7F7FFFFF#32 = true) ∧
    (|val (rne32 false (2 ^ 24 + 1) 0) - 1 * (((2 ^ 24 + 1 : ℕ) : ℚ) * 2 ^ (0 : ℤ))| =
        |val 0x4B800001#32 - 1 * (((2 ^ 24 + 1 : ℕ) : ℚ) * 2 ^ (0 : ℤ))| ∧
      val 0x4B800001#32 ≠ val (rne32 false (2 ^ 24 + 1) 0)) := by
  have r : rne32 false (2 ^ 24 + 1) 0 = 0x4B800000#32 := by decide
  have a : val 0x4B800000#32 = 16777216 := by
    rw [val, show signedSignificand 0x4B800000#32 = 8388608 by decide, show scale 0x4B800000#32 = 1 by decide]
    norm_num
  have b : val 0x4B800001#32 = 16777218 := by
    rw [val, show signedSignificand 0x4B800001#32 = 8388609 by decide, show scale 0x4B800001#32 = 1 by decide]
    norm_num
  refine ⟨by norm_num, ⟨by norm_num, by decide⟩, ?_, ?_⟩
  · rw [r, a, b]
    norm_num
  · rw [r, a, b]
    norm_num

theorem val_one : val 0x3F800000#32 = 1 := by
  rw [val, show signedSignificand 0x3F800000#32 = 8388608 by decide, show scale 0x3F800000#32 = -23 by decide]
  norm_num

theorem val_neg_one : val 0xBF800000#32 = -1 := by
  rw [val, show signedSignificand 0xBF800000#32 = -8388608 by decide, show scale 0xBF800000#32 = -23 by decide]
  norm_num

theorem val_three : val 0x40400000#32 = 3 := by
  rw [val, show signedSignificand 0x40400000#32 = 12582912 by decide, show scale 0x40400000#32 = -22 by decide]
  norm_num

theorem val_neg_zero : val 0x80000000#32 = 0 := by
  rw [val, show signedSignificand 0x80000000#32 = 0 by decide]
  norm_num

theorem val_two_pow_39 : val 0x53000000#32 = ((2 ^ 39 : Int) : ℚ) := by
  rw [val, show signedSignificand 0x53000000#32 = 8388608 by decide, show scale 0x53000000#32 = 16 by decide]
  norm_num

theorem val_max_sample : val 0x46FFFE00#32 = ((32767 : Int) : ℚ) := by
  rw [val, show signedSignificand 0x46FFFE00#32 = 16776704 by decide, show scale 0x46FFFE00#32 = -9 by decide]
  norm_num

theorem witness_ProductIsRoundedOnce :
    isFinite 0x3F800000#32 = true ∧ isFinite 0x40400000#32 = true ∧
    ((6 : ℕ) : ℚ) * 2 ^ (-1 : ℤ) = |val 0x3F800000#32| * |val 0x40400000#32| ∧
    isFinite 0x80000000#32 = true ∧ val 0x80000000#32 = 0 := by
  refine ⟨by decide, by decide, ?_, by decide, val_neg_zero⟩
  rw [val_one, val_three]
  norm_num

theorem witness_ProductOfNonFiniteOperands :
    isNaN 0x7FC00001#32 = true ∧
    (isInf 0x7F800000#32 = true ∧ isFinite 0x80000000#32 = true ∧ val 0x80000000#32 = 0) ∧
    (isNaN 0x7F800000#32 = false ∧ isNaN 0x3F800000#32 = false ∧
      ¬(isInf 0x7F800000#32 = true ∧ isFinite 0x3F800000#32 = true ∧ val 0x3F800000#32 = 0) ∧
      ¬(isInf 0x3F800000#32 = true ∧ isFinite 0x7F800000#32 = true ∧ val 0x7F800000#32 = 0) ∧
      isInf 0x7F800000#32 = true) := by
  refine ⟨by decide, ⟨by decide, by decide, val_neg_zero⟩, by decide, by decide, ?_, ?_, by decide⟩
  · rintro ⟨_, _, h⟩
    rw [val_one] at h
    norm_num at h
  · rintro ⟨h, _, _⟩
    revert h
    decide

theorem witness_FloorIsExact :
    (isFinite 0x80000000#32 = true ∧ val 0x80000000#32 = 0) ∧ isFinite 0x7F7FFFFF#32 = true ∧
    isFinite 0xFF800000#32 = false := ⟨⟨by decide, val_neg_zero⟩, by decide, by decide⟩

theorem witness_FloorByValueIsFloorByBits : isFinite 0x80000001#32 = true := by decide

theorem witness_NarrowingIsModulo65536 :
    (isFinite 0x46FFFE00#32 = true ∧ val 0x46FFFE00#32 = ((32767 : Int) : ℚ) ∧
      (-32768 : Int) ≤ 32767 ∧ (32767 : Int) ≤ 32767) ∧
    (isFinite 0x53000000#32 = true ∧ val 0x53000000#32 = ((2 ^ 39 : Int) : ℚ) ∧
      (2 : Int) ^ 39 ≤ |(2 ^ 39 : Int)|) :=
  ⟨⟨by decide, val_max_sample, by decide, by decide⟩, ⟨by decide, val_two_pow_39, by norm_num⟩⟩

theorem witness_InfinitiesAndNaNsNarrowToZero :
    isInf 0xFF800000#32 = true ∧ isNaN 0x7FC00000#32 = true := by decide

theorem witness_NarrowingByValueIsNarrowingByBits :
    isFinite 0x7F800000#32 = false ∧ ∃ n : Int, val 0x46FFFE00#32 = (n : ℚ) :=
  ⟨by decide, _, val_max_sample⟩

/-- The greatest sample and gain 1, a zero gain, gain −1; the sample −32768 and a gain that overflows. -/
theorem witness_StageFactsOfASampleAndAGain :
    ((-32768 : Int) ≤ 32767 ∧ (32767 : Int) ≤ 32767 ∧ (32767 : Int) ≠ 0) ∧
    (isFinite 0x3F800000#32 = true ∧ val 0x3F800000#32 ≠ 0 ∧
      isFinite (fmul32 (cvtS16F32 32767) 0x3F800000#32) = true ∧ |val 0x3F800000#32| = (2 : ℚ) ^ (0 : Int) ∧
      |((32767 : Int) : ℚ)| * |val 0x3F800000#32| < (2 : ℚ) ^ (128 : ℕ) - 2 ^ (103 : ℕ) ∧
      (2 : ℚ) ^ (-126 : ℤ) ≤ |((32767 : Int) : ℚ)| * |val 0x3F800000#32|) ∧
    (isFinite 0x80000000#32 = true ∧ val 0x80000000#32 = 0) ∧ isFinite 0xBF800000#32 = true ∧
    (isFinite 0x7F7FFFFF#32 = true ∧ isInf (fmul32 (cvtS16F32 (-32768)) 0x7F7FFFFF#32) = true) := by
  refine ⟨by decide, ⟨by decide, ?_, by decide, ?_, ?_, ?_⟩, ⟨by decide, val_neg_zero⟩, by decide, by decide,
    by decide⟩ <;> rw [val_one] <;> norm_num

theorem witness_WindowIsTheFloorOfTheProductModulo65536 :
    isFinite 0x3F800000#32 = true ∧
    isFinite (fmul32 (cvtS16F32 (unpack16le 0xFF#8 0x7F#8)) 0x3F800000#32) = true ∧
    isFinite 0x7F7FFFFF#32 = true ∧
    isFinite (fmul32 (cvtS16F32 (unpack16le 0x02#8 0x00#8)) 0x7F7FFFFF#32) = false := by decide

theorem witness_UnitZeroAndNegatingGains :
    unpack16le 0x01#8 0x80#8 ≠ -32768 ∧ unpack16le 0x00#8 0x80#8 = -32768 := by decide

theorem witness_ReachableWindowValues :
    (-32768 : Int) ≤ -32768 ∧ (-32768 : Int) ≤ 32767 ∧ isFinite 0xBF800000#32 = true ∧
    |val 0xBF800000#32| ≤ 1 ∧ val 0xBF800000#32 = -1 := by
  refine ⟨by decide, by decide, by decide, ?_, val_neg_one⟩
  rw [val_neg_one]
  norm_num

theorem witness_EveryStepKeepsTheMachineInvariant :
    machineInv midCall ∧ ∃ t, step midCall = .next t := ⟨midCall_machineInv, _, rfl⟩

theorem witness_EveryStepKeepsMemoryCanonical : memoryInv midCall ∧ ∃ t, step midCall = .next t := by
  refine ⟨⟨rfl, ?_⟩, _, rfl⟩
  unfold midCall running
  decide

theorem witness_EveryStepKeepsAccessesSequentiallyConsistent :
    accessesInOrder (fun a => midCall.mem.read a) midCall ∧ ∃ t, step midCall = .next t :=
  ⟨⟨fun _ => rfl, trivial⟩, _, rfl⟩

theorem witness_TransactionsDoNotReachTheCallInProgress : midCall.busy = true := rfl

/-- The acceptance of a call, its finish step, a memory fault in it, and reset in it. -/
theorem witness_BusyChangesOnlyAsStated :
    (∃ s t, step s = .next t ∧ s.busy = false ∧ t.busy = true) ∧
    (∃ t, step endCall = .next t ∧ endCall.busy = true ∧ t.busy = false) ∧
    (∃ t, step (running 1#31 2#31 [⟨.read, 6, 6⟩]) = .next t ∧ t.busy = false) ∧
    (∃ t, step { midCall with pending := [.reset] } = .next t ∧ t.busy = false) :=
  ⟨⟨{ idle 4#32 5#32 0#32 [] with pending := [.transaction 0x1400000001#37] }, _, rfl, rfl, rfl⟩,
   ⟨_, rfl, rfl, rfl⟩, ⟨_, rfl, rfl⟩, ⟨_, rfl, rfl⟩⟩

theorem witness_RecordBitsChangeOnlyAsStated :
    (∃ t, step endCall = .next t ∧ endCall.done = false ∧ t.done = true) ∧
    (∃ s t, step s = .next t ∧ s.done = true ∧ t.done = false) ∧
    (∃ s t, step s = .next t ∧ s.err = false ∧ t.err = true) ∧
    (∃ s t, step s = .next t ∧ s.err = true ∧ t.err = false) ∧
    (∃ s t, step s = .next t ∧ s.odd = false ∧ t.odd = true) ∧
    (∃ s t, step s = .next t ∧ s.odd = true ∧ t.odd = false) :=
  ⟨⟨_, rfl, rfl, rfl⟩,
   ⟨{ State.reset with done := true, pending := [.transaction 0x1500000002#37] }, _, rfl, rfl, rfl⟩,
   ⟨{ State.reset with pending := [.transaction 0x1400000000#37] }, _, rfl, rfl, rfl⟩,
   ⟨{ State.reset with err := true, pending := [.transaction 0x1500000004#37] }, _, rfl, rfl, rfl⟩,
   ⟨{ idle 4#32 5#32 0#32 [] with pending := [.transaction 0x1400000001#37] }, _, rfl, rfl, rfl⟩,
   ⟨{ State.reset with odd := true, pending := [.transaction 0x1500000008#37] }, _, rfl, rfl, rfl⟩⟩

theorem witness_OtherMastersAccessOneByte :
    15 < 2 ^ midCall.cfg.aw ∧
    ({ midCall with pending := [.memRead .host 15] } : State).pending = .memRead .host 15 :: [] ∧
    ({ midCall with pending := [.memWrite (.other 0) 15 1#8] } : State).pending =
      .memWrite (.other 0) 15 1#8 :: [] ∧
    memOK midCall.cfg 15 .write = true ∧ memOK (running 1#31 2#31 [⟨.write, 15, 15⟩]).cfg 15 .write = false :=
  ⟨by decide, rfl, rfl, by decide, by decide⟩

/-- A buffer of two windows and an odd byte that ends at the last address. -/
theorem witness_CallMapsTheWindowFunctionOverTheBuffer :
    ∃ s : State, s.busy = false ∧ s.pending = [.transaction 0x1400000001#37] ∧ s.bufValid = true ∧
      isFinite s.gain = true ∧ s.bufBase.toNat % 2 ^ s.cfg.aw + s.bufLen.toNat ≤ 2 ^ s.cfg.aw ∧
      admitted s.cfg (bufBaseValue s) (s.bufLen.toNat / 2) := by
  refine ⟨{ idle 11#32 5#32 0x40000000#32 [] with pending := [.transaction 0x1400000001#37] },
    rfl, rfl, rfl, by decide, by decide, ?_⟩
  rintro a ⟨lo, hi⟩
  change 11 ≤ a at lo
  change a < 15 at hi
  interval_cases a <;> decide

/-- A call at its first window, which nothing has changed yet, and another master about to write past the windows. -/
theorem witness_InterleavedCallKeepsItsProcessedPrefix :
    ∃ s : State, machineInv s ∧ callPrefix (fun a => s.mem.read a) s ∧
      admitted s.cfg s.wBase s.wNwin.toNat ∧ leavesWindows s ∧ ∃ t, step s = .next t := by
  refine ⟨{ running 0#31 2#31 [] with pending := [.memWrite .host 8 1#8] }, ?_, atFirstWindow_callPrefix [],
    midCall_admitted, ⟨?_, ?_⟩, _, rfl⟩
  · unfold machineInv statusInv callInv
    decide
  · rintro ⟨rest, h⟩
    exact absurd h (by simp)
  · intro who a v rest h
    cases h
    unfold inWindows
    decide

theorem witness_CallEndsInBoundedSteps :
    machineInv midCall ∧ midCall.busy = true ∧ midCall.pending = [] := ⟨midCall_machineInv, rfl, rfl⟩

theorem witness_CallDependsOnItsOperandsAlone :
    ∃ s u : State, s ≠ u ∧ s.pending = [] ∧ u.pending = [] ∧ s.busy = true ∧ u.busy = true ∧
      machineInv s ∧ machineInv u ∧ s.cfg = u.cfg ∧ s.wBase = u.wBase ∧ s.wNwin = u.wNwin ∧
      s.wGain = u.wGain ∧ s.idx = u.idx ∧
      ∀ a, inWindows s.wBase s.wNwin.toNat a → s.mem.read a = u.mem.read a :=
  ⟨midCall, { midCall with gain := 0#32, odd := true }, by decide, rfl, rfl, rfl, rfl, midCall_machineInv,
   midCall_machineInv, rfl, rfl, rfl, rfl, rfl, fun _ _ => rfl⟩

end Sys2Proof.Tests
end

section
/-! The state right after reset (`10_state.md` R45). The registers and latches are fields of `State.reset`; CTRL, STATUS and
PROGRESS are words laid out from fields (R102, R106, R108), so each has a lemma that says when it reads zero. -/

namespace Sys2Proof.Proofs

open Sys2Proof.Machine

/-- CTRL reads zero when there is no buffer handle: its other bits are reserved (R102). -/
theorem ctrlValue_eq_zero {s : State} (hvalid : s.bufValid = false) : ctrlValue s = 0x00000000#32 := by
  simp [ctrlValue, hvalid]

/-- STATUS reads zero when each of its five fields is clear: its other bits are reserved (R106). -/
theorem statusValue_eq_zero {s : State} (hbusy : s.busy = false) (hdone : s.done = false)
    (herr : s.err = false) (hodd : s.odd = false) (hcode : s.errCode = 0#4) :
    statusValue s = 0x00000000#32 := by
  simp [statusValue, hbusy, hdone, herr, hodd, hcode]

/-- PROGRESS reads zero when no window is processed (R108). -/
theorem progressValue_eq_zero {s : State} (hidx : s.idx = 0#31) : progressValue s = 0x00000000#32 := by
  simp [progressValue, hidx]

/-- Settles O1: the fields are those `State.reset` lists, and the three laid-out words are zero because their fields are. -/
theorem resetStateHasTheTableOfResetValues : Obligations.ResetStateHasTheTableOfResetValues := by
  have hctrl : ctrlValue State.reset = 0x00000000#32 := ctrlValue_eq_zero rfl
  have hstatus : statusValue State.reset = 0x00000000#32 := statusValue_eq_zero rfl rfl rfl rfl rfl
  have hprogress : progressValue State.reset = 0x00000000#32 := progressValue_eq_zero rfl
  exact ⟨rfl, rfl, rfl, rfl, hctrl, rfl, rfl, rfl, rfl, rfl, hstatus, rfl, hprogress⟩

end Sys2Proof.Proofs
end

section
/-! The engine's accesses (`20_memory.md` R64): the window at hand lies in the buffer of the call, the buffer exists, and a
turn of the engine touches the two bytes of that window alone. -/

namespace Sys2Proof.Proofs

open Sys2Proof.Machine

/-- The access is the engine's and of the byte at this address, whatever its kind and its result. -/
def engineAccessAt (a : Nat) (x : Access) : Prop :=
  (∃ r, x = .read .engine a r) ∨ (∃ v p, x = .write .engine a v p)

@[simp] theorem engineAccessAt_read (a a' : Nat) (r : Option Byte) :
    engineAccessAt a (.read .engine a' r) ↔ a' = a := by
  simp [engineAccessAt]

@[simp] theorem engineAccessAt_write (a a' : Nat) (v : Byte) (p : Bool) :
    engineAccessAt a (.write .engine a' v p) ↔ a' = a := by
  simp [engineAccessAt]

/-- Both bytes of the window at hand are in the buffer of the call, as long as a window is left. -/
theorem inWindows_windowAddr (base : Word) {i n : Nat} (h : i < n) :
    inWindows base n (windowAddr base i) ∧ inWindows base n (windowAddr base i + 1) := by
  unfold inWindows windowAddr
  omega

/-- The buffer of a call in progress lies below `2^AW` (R46). -/
theorem exists_of_inWindows {s : State} (hinv : callInv s) (hbusy : s.busy = true) {a : Nat}
    (ha : inWindows s.wBase s.wNwin.toNat a) : a < 2 ^ s.cfg.aw := by
  obtain ⟨_, _, hrange⟩ := hinv hbusy
  exact lt_of_lt_of_le ha.2 hrange

/-- A window step, performed or faulted, adds at most four accesses to the order, all of the window's two bytes. -/
theorem windowStep_trace (s : State) :
    ∃ new : List Access, (windowStep s).trace = new ++ s.trace ∧ new.length ≤ 4 ∧
      ∀ x ∈ new, ∃ a, (a = windowAddr s.wBase s.idx.toNat ∨ a = windowAddr s.wBase s.idx.toNat + 1) ∧
        engineAccessAt a x := by
  generalize ha : windowAddr s.wBase s.idx.toNat = a
  generalize hc : window (s.mem.read a) (s.mem.read (a + 1)) s.wGain = c
  rcases windowStep_cases s a c ha.symm hc.symm with
    ⟨_, h⟩ | ⟨_, _, h⟩ | ⟨_, _, _, h⟩ | ⟨_, _, _, _, h⟩ | ⟨_, _, _, _, h⟩
  case inl => -- the read of b0 faults
    exact ⟨[_], by rw [h]; rfl, by simp, by simp⟩
  case inr.inl => -- the read of b1 faults
    exact ⟨[_, _], by rw [h]; rfl, by simp, by simp⟩
  case inr.inr.inl => -- the write of c0 faults
    exact ⟨[_, _, _], by rw [h]; rfl, by simp, by simp⟩
  case inr.inr.inr.inl => -- the write of c1 faults
    exact ⟨[_, _, _, _], by rw [h]; rfl, by simp, by simp⟩
  case inr.inr.inr.inr => -- all four are performed
    exact ⟨[_, _, _, _], by rw [h]; rfl, by simp, by simp⟩

/-- Of the engine's steps only the window step accesses memory, and only while a window of the call is left. -/
theorem engineStep_trace {s : State} (hinv : machineInv s) :
    ∃ new : List Access, (engineStep s).trace = new ++ s.trace ∧ new.length ≤ 4 ∧
      (s.busy = false → new = []) ∧
      ∀ x ∈ new, ∃ a, inWindows s.wBase s.wNwin.toNat a ∧ a < 2 ^ s.cfg.aw ∧ engineAccessAt a x := by
  rcases engineStep_cases s with ⟨hbusy, hleft, h⟩ | ⟨_, _, h⟩ | ⟨_, h⟩
  · obtain ⟨new, htrace, hlen, hnew⟩ := windowStep_trace s
    refine ⟨new, by rw [h, htrace], hlen, by simp [hbusy], fun x hx => ?_⟩
    obtain ⟨a, ha, hat⟩ := hnew x hx
    obtain ⟨hlo, hhi⟩ := inWindows_windowAddr s.wBase hleft
    have hin : inWindows s.wBase s.wNwin.toNat a := by
      rcases ha with rfl | rfl
      · exact hlo
      · exact hhi
    exact ⟨a, hin, exists_of_inWindows hinv.2 hbusy hin, hat⟩
  · exact ⟨[], by simp [h], by simp⟩
  · exact ⟨[], by simp [h], by simp⟩

/-- Where it is the engine's turn, the step is the engine's; whether the turn was listed shows in the list of steps to come
alone. -/
theorem eq_engineStep_of_engineTurn {s t : State} (hturn : engineTurn s) (hstep : step s = .next t) :
    ∃ rest, t = engineStep (takePending rest s) := by
  rcases hturn with hnil | ⟨rest, hcons⟩
  · rw [step_nil s hnil] at hstep
    injection hstep with hstep
    exact ⟨s.pending, hstep.symm⟩
  · rw [step_cons s _ rest hcons] at hstep
    injection hstep with hstep
    exact ⟨rest, hstep.symm⟩

/-- Settles O25: taking the engine's turn off the list leaves the invariant and the call as they are, so the accesses are
those of the engine's step. -/
theorem engineAccessesStayInTheWindows : Obligations.EngineAccessesStayInTheWindows := by
  intro s t hinv hturn hstep
  obtain ⟨rest, rfl⟩ := eq_engineStep_of_engineTurn hturn hstep
  have hinv' : machineInv (takePending rest s) := hinv
  exact engineStep_trace hinv'

end Sys2Proof.Proofs
end

section
/-! The opcode table (`30_encoding.md` R89): a word matches the row of the instruction it decodes to, two rows that match one
word agree where both masks look, and in the table only APPLY and WR_CMD_RESERVED agree so. -/

namespace Sys2Proof.Proofs

open Sys2Proof.Laws

/-! ## Encoding what was decoded -/

theorem wellFormed_decodeRead (rn : BitVec 4) : (decodeRead rn).WellFormed := by
  revert rn
  decide

theorem wellFormed_decodeWrite (rn : BitVec 4) (w : Word) : (decodeWrite rn w).WellFormed := by
  rcases rn_cases rn with rfl | rfl | rfl | rfl | rfl | rfl | rfl | rfl | ⟨hbit, hhigh⟩
  case inr.inr.inr.inr.inl => -- CMD: the command word is compared with that of APPLY
    by_cases hw : w = applyWord <;> simp [decodeWrite, hw, Instr.WellFormed, Instr.wellFormed]
  case inr.inr.inr.inr.inr.inr.inr.inr => -- numbers 8 to 15
    rw [decodeWrite_high rn w hhigh]
    exact hbit
  all_goals rfl

/-- The decoder gives transactions of the table alone. -/
theorem wellFormed_decode (tw : TransWord) : (decode tw).WellFormed := by
  cases h : twWe tw
  · simpa [decode, h] using wellFormed_decodeRead (twRn tw)
  · simpa [decode, h] using wellFormed_decodeWrite (twRn tw) (twWdata tw)

theorem encode_decodeRead (rn : BitVec 4) : encode (decodeRead rn) = mkTransWord false rn 0#32 := by
  revert rn
  decide

theorem encode_decodeWrite (rn : BitVec 4) (w : Word) : encode (decodeWrite rn w) = mkTransWord true rn w := by
  rcases rn_cases rn with rfl | rfl | rfl | rfl | rfl | rfl | rfl | rfl | ⟨_, hhigh⟩
  case inr.inr.inr.inr.inl => -- CMD: the command word is compared with that of APPLY
    by_cases hw : w = applyWord <;> simp [decodeWrite, hw, encode]
  case inr.inr.inr.inr.inr.inr.inr.inr => -- numbers 8 to 15
    rw [decodeWrite_high rn w hhigh, encode]
  all_goals rfl

/-- A read word is the encoding of its instruction but for wdata (R76). -/
theorem encode_decode_of_read {tw : TransWord} (h : twWe tw = false) :
    encode (decode tw) = mkTransWord false (twRn tw) 0#32 := by
  simpa [decode, h] using encode_decodeRead (twRn tw)

/-- A write word is the encoding of its instruction. -/
theorem encode_decode_of_write {tw : TransWord} (h : twWe tw = true) : encode (decode tw) = tw := by
  calc encode (decode tw)
      = mkTransWord true (twRn tw) (twWdata tw) := by
        simpa [decode, h] using encode_decodeWrite (twRn tw) (twWdata tw)
    _ = tw := by rw [← h, mkTransWord_fields]

/-! ## A word matches the row of its instruction -/

theorem rowMatches_iff {row : OpRow} {tw : TransWord} :
    rowMatches row tw = true ↔ tw &&& row.mask = row.value := by
  simp [rowMatches]

/-- The family of `Sys2Proof/Laws/PerInstr.lean` for every instruction. -/
theorem encode_fits_row : ∀ i : Instr, EncodeFitsRow.Statement i
  | .rdBufBase => EncodeFitsRow.rdBufBase
  | .wrBufBase w => EncodeFitsRow.wrBufBase w
  | .rdBufLen => EncodeFitsRow.rdBufLen
  | .wrBufLen w => EncodeFitsRow.wrBufLen w
  | .rdGain => EncodeFitsRow.rdGain
  | .wrGain w => EncodeFitsRow.wrGain w
  | .rdCtrl => EncodeFitsRow.rdCtrl
  | .wrCtrl w => EncodeFitsRow.wrCtrl w
  | .rdCmd => EncodeFitsRow.rdCmd
  | .apply => EncodeFitsRow.apply
  | .wrCmdReserved w => EncodeFitsRow.wrCmdReserved w
  | .rdStatus => EncodeFitsRow.rdStatus
  | .wrStatus w => EncodeFitsRow.wrStatus w
  | .rdProgress => EncodeFitsRow.rdProgress
  | .wrProgress w => EncodeFitsRow.wrProgress w
  | .rdRsvd7 => EncodeFitsRow.rdRsvd7
  | .rdRsvd8to15 rn => EncodeFitsRow.rdRsvd8to15 rn
  | .wrRsvd7 w => EncodeFitsRow.wrRsvd7 w
  | .wrRsvd8to15 rn w => EncodeFitsRow.wrRsvd8to15 rn w

/-- Every instruction has a row. -/
theorem exists_row_named (i : Instr) : ∃ row ∈ opcodeTable, row.mnemonic = instrMnemonic i := by
  cases i <;> simp [opcodeTable, instrMnemonic]

/-- The row of a read looks at no bit of wdata. -/
theorem wdata_mask_of_read_row :
    ∀ row ∈ opcodeTable, twWe row.value = false → twWdata row.mask = 0#32 := by
  decide

/-- A row that matches a read word matches it whatever its wdata (R76). -/
theorem rowMatches_read_any_wdata {row : OpRow} (hrow : row ∈ opcodeTable) {rn : BitVec 4} {w : Word}
    (h : rowMatches row (mkTransWord false rn w) = true) (w' : Word) :
    rowMatches row (mkTransWord false rn w') = true := by
  rw [rowMatches_iff] at h ⊢
  have hwe : twWe row.value = false := by
    rw [← h, ← mkTransWord_fields row.mask, EncodeFitsRow.and_mkTransWord, twWe_mk, Bool.false_and]
  have hmask : row.mask = mkTransWord (twWe row.mask) (twRn row.mask) 0#32 := by
    rw [← wdata_mask_of_read_row row hrow hwe, mkTransWord_fields]
  rw [hmask, EncodeFitsRow.and_mkTransWord, BitVec.and_zero] at h ⊢
  exact h

/-- A word matches the row that bears the name of its instruction. -/
theorem rowMatches_of_named {tw : TransWord} {row : OpRow} (hrow : row ∈ opcodeTable)
    (hname : row.mnemonic = instrMnemonic (decode tw)) : rowMatches row tw = true := by
  have hfit := encode_fits_row (decode tw) (wellFormed_decode tw) row hrow hname
  cases hwe : twWe tw
  · rw [encode_decode_of_read hwe] at hfit
    have h := rowMatches_read_any_wdata hrow hfit (twWdata tw)
    rwa [← hwe, mkTransWord_fields] at h
  · rwa [encode_decode_of_write hwe] at hfit

/-! ## Two rows that match one word -/

/-- Two rows that match one word ask the same of the bits that both masks look at. -/
theorem values_agree_of_rowMatches {r r' : OpRow} {tw : TransWord} (h : rowMatches r tw = true)
    (h' : rowMatches r' tw = true) : r.value &&& r'.mask = r'.value &&& r.mask := by
  rw [rowMatches_iff] at h h'
  rw [← h, ← h', BitVec.and_assoc, BitVec.and_assoc, BitVec.and_comm r.mask]

/-- The rows of the table that ask the same of the bits both look at. -/
theorem table_values_agree :
    opcodeTable.Pairwise fun r r' => r.value &&& r'.mask = r'.value &&& r.mask →
      r.mnemonic = "APPLY" ∧ r'.mnemonic = "WR_CMD_RESERVED" := by
  decide

/-- The one overlap of the table, and its order (R89). -/
theorem table_overlap (tw : TransWord) :
    opcodeTable.Pairwise fun r r' => rowMatches r tw = true → rowMatches r' tw = true →
      r.mnemonic = "APPLY" ∧ r'.mnemonic = "WR_CMD_RESERVED" :=
  table_values_agree.imp fun hagree h h' => hagree (values_agree_of_rowMatches h h')

/-- The row of APPLY looks at all 37 bits. -/
theorem apply_row : ∀ row ∈ opcodeTable, row.mnemonic = "APPLY" →
    row.mask = BitVec.allOnes 37 ∧ row.value = encode .apply := by
  decide

/-- One word alone matches the row of APPLY, and it decodes to APPLY. -/
theorem decode_of_apply_row {tw : TransWord} {row : OpRow} (hrow : row ∈ opcodeTable)
    (hname : row.mnemonic = "APPLY") (h : rowMatches row tw = true) : decode tw = .apply := by
  obtain ⟨hmask, hvalue⟩ := apply_row row hrow hname
  rw [rowMatches_iff, hmask, hvalue, BitVec.and_allOnes] at h
  rw [h]
  decide

/-! ## The first row that matches -/

/-- The first row that matches bears the name of the instruction: the row of that name matches too, and where it comes
later, the two are the overlap and the word is that of APPLY. -/
theorem tableRow_named (tw : TransWord) :
    ∃ row, tableRow tw = some row ∧ row.mnemonic = instrMnemonic (decode tw) := by
  obtain ⟨own, hown, hname⟩ := exists_row_named (decode tw)
  have hmatch : rowMatches own tw = true := rowMatches_of_named hown hname
  have hsome : (tableRow tw).isSome := List.find?_isSome.2 ⟨own, hown, hmatch⟩
  obtain ⟨row, hfirst⟩ := Option.isSome_iff_exists.1 hsome
  refine ⟨row, hfirst, ?_⟩
  obtain ⟨hrow, before, after, htable, hbefore⟩ := List.find?_eq_some_iff_append.1 hfirst
  rw [htable] at hown
  rcases List.mem_append.1 hown with hearlier | hlater
  · exact absurd hmatch (by simpa using hbefore own hearlier)
  rcases List.mem_cons.1 hlater with rfl | hafter
  · exact hname
  · have hpairs := table_overlap tw
    rw [htable] at hpairs
    obtain ⟨_, hfrom, _⟩ := List.pairwise_append.1 hpairs
    obtain ⟨happly, _⟩ := List.rel_of_pairwise_cons hfrom hafter hrow hmatch
    have hmem : row ∈ opcodeTable := List.mem_of_find?_eq_some hfirst
    rw [decode_of_apply_row hmem happly hrow, happly, instrMnemonic]

/-- Settles O7: the first matching row is the decoded one, and the table's pairs are those of `table_overlap`. -/
theorem opcodeTableSelectsTheDecodedRow : Obligations.OpcodeTableSelectsTheDecodedRow := by
  intro tw
  refine ⟨tableRow_named tw, fun i j r r' hi hj hij => ?_⟩
  obtain ⟨hi', rfl⟩ := List.getElem?_eq_some_iff.1 hi
  obtain ⟨hj', rfl⟩ := List.getElem?_eq_some_iff.1 hj
  exact List.pairwise_iff_getElem.1 (table_overlap tw) i j hi' hj' hij

end Sys2Proof.Proofs
end

section
/-! The data bits that a register drops (`30_encoding.md` R78, R83): what a write stores depends on the data through the bits
that are read alone. -/

namespace Sys2Proof.Proofs

open Sys2Proof.Machine

/-- An address is read modulo `2^AW` (R78). -/
theorem addrBits_congr {cfg : Config} {w w' : Word} (h : w.toNat % 2 ^ cfg.aw = w'.toNat % 2 ^ cfg.aw) :
    addrBits cfg w = addrBits cfg w' := by
  rw [addrBits, addrBits, h]

/-- A clear mask is read in bits 3:1 (R107). -/
theorem clearStatus_congr {w w' : Word} (s : State) (h1 : w.getLsbD 1 = w'.getLsbD 1)
    (h2 : w.getLsbD 2 = w'.getLsbD 2) (h3 : w.getLsbD 3 = w'.getLsbD 3) :
    clearStatus w s = clearStatus w' s := by
  rw [clearStatus, clearStatus, h1, h2, h3]

/-- A read decodes by its register number, whatever its wdata (R76). -/
theorem decode_read (rn : BitVec 4) (w : Word) : decode (mkTransWord false rn w) = decodeRead rn := by
  simp

theorem exec_wrBufBase (w : Word) (s : State) :
    exec (.wrBufBase w) s = .next { s with bufBase := addrBits s.cfg w } := rfl

theorem exec_wrCtrl (w : Word) (s : State) :
    exec (.wrCtrl w) s = .next { s with bufValid := w.getLsbD 0 } := rfl

theorem exec_wrStatus (w : Word) (s : State) : exec (.wrStatus w) s = .next (clearStatus w s) := rfl

theorem exec_wrProgress (w : Word) (s : State) : exec (.wrProgress w) s = .next s := rfl

theorem exec_wrRsvd7 (w : Word) (s : State) : exec (.wrRsvd7 w) s = .next s := rfl

theorem exec_wrRsvd8to15 (rn : BitVec 4) (w : Word) (s : State) : exec (.wrRsvd8to15 rn w) s = .next s := rfl

/-- Settles O8, register by register: the writes of BUF_BASE, CTRL and STATUS by what they read of the data, the others
because they read nothing of it. -/
theorem droppedOperandBitsAreIgnored : Obligations.DroppedOperandBitsAreIgnored := by
  intro s w w'
  refine ⟨fun h => ?bufBase, fun h => ?ctrl, fun h1 h2 h3 => ?status, ?progress, ?rsvd7, fun rn => ?rsvd8to15,
    fun rn => ?read⟩
  case bufBase => rw [exec_wrBufBase, exec_wrBufBase, addrBits_congr h]
  case ctrl => rw [exec_wrCtrl, exec_wrCtrl, h]
  case status => rw [exec_wrStatus, exec_wrStatus, clearStatus_congr s h1 h2 h3]
  case progress => rw [exec_wrProgress, exec_wrProgress]
  case rsvd7 => rw [exec_wrRsvd7, exec_wrRsvd7]
  case rsvd8to15 => rw [exec_wrRsvd8to15, exec_wrRsvd8to15]
  case read => rw [decode_read, decode_read]

end Sys2Proof.Proofs
end

section
/-! The rows of the opcode table that fix `we` and the register number, or `we` and bit 3 of the number (`30_encoding.md`
R89): the bits a word has under the row's mask give its fields, and the fields give the instruction (R76, R77). -/

namespace Sys2Proof.Proofs

open Sys2Proof.Laws

/-- A word that matches a row of one register number has the row's `we` and number. -/
theorem fields_of_fieldMask {tw : TransWord} {we : Bool} {rn : BitVec 4}
    (h : tw &&& 0x1F00000000#37 = mkTransWord we rn 0#32) : twWe tw = we ∧ twRn tw = rn := by
  rw [← mkTransWord_fields tw, EncodeFitsRow.and_fieldMask] at h
  exact ⟨by simpa using congrArg twWe h, by simpa using congrArg twRn h⟩

/-- A word that matches a row of the numbers 8 to 15 has the row's `we` and such a number. -/
theorem fields_of_highMask {tw : TransWord} {we : Bool}
    (h : tw &&& 0x1800000000#37 = mkTransWord we 8#4 0#32) : twWe tw = we ∧ 7 < (twRn tw).toNat := by
  have hmask : (0x1800000000#37 : TransWord) = mkTransWord true 8#4 0#32 := by decide
  rw [← mkTransWord_fields tw, hmask, EncodeFitsRow.and_mkTransWord] at h
  have hrn : twRn tw &&& 8#4 = 8#4 := by simpa using congrArg twRn h
  have hhigh : ∀ rn : BitVec 4, rn &&& 8#4 = 8#4 → 7 < rn.toNat := by decide
  exact ⟨by simpa using congrArg twWe h, hhigh _ hrn⟩

/-- A word of a read row decodes by the row's register number, whatever its wdata (R76). -/
theorem decode_of_readRow {tw : TransWord} (rn : BitVec 4)
    (h : tw &&& 0x1F00000000#37 = mkTransWord false rn 0#32) : decode tw = decodeRead rn := by
  obtain ⟨hwe, hrn⟩ := fields_of_fieldMask h
  simp [decode, hwe, hrn]

/-- A word of a write row decodes by the row's register number and the word's data. -/
theorem decode_of_writeRow {tw : TransWord} (rn : BitVec 4)
    (h : tw &&& 0x1F00000000#37 = mkTransWord true rn 0#32) : decode tw = decodeWrite rn (twWdata tw) := by
  obtain ⟨hwe, hrn⟩ := fields_of_fieldMask h
  simp [decode, hwe, hrn]

theorem decode_of_highReadRow {tw : TransWord}
    (h : tw &&& 0x1800000000#37 = mkTransWord false 8#4 0#32) : decode tw = .rdRsvd8to15 (twRn tw) := by
  obtain ⟨hwe, hhigh⟩ := fields_of_highMask h
  simp [decode, hwe, decodeRead_high (twRn tw) hhigh]

theorem decode_of_highWriteRow {tw : TransWord}
    (h : tw &&& 0x1800000000#37 = mkTransWord true 8#4 0#32) :
    decode tw = .wrRsvd8to15 (twRn tw) (twWdata tw) := by
  obtain ⟨hwe, hhigh⟩ := fields_of_highMask h
  simp [decode, hwe, decodeWrite_high (twRn tw) (twWdata tw) hhigh]

/-- The data are the low 32 bits of the word (R76). -/
theorem getLsbD_twWdata (tw : TransWord) {i : Nat} (hi : i < 32) : (twWdata tw).getLsbD i = tw.getLsbD i := by
  simp [twWdata, hi]

end Sys2Proof.Proofs
end

section
/-! The register reads (`40_host_transactions.md` R95 to R110): each returns its register's value and changes nothing else,
so what is left to say of a read is its decoding and the value as a number. -/

namespace Sys2Proof.Proofs

open Sys2Proof.Machine

/-! ## What each read returns -/

theorem exec_rdBufBase (s : State) :
    exec .rdBufBase s = .next { s with returned := bufBaseValue s :: s.returned } := rfl

theorem exec_rdBufLen (s : State) : exec .rdBufLen s = .next { s with returned := s.bufLen :: s.returned } := rfl

theorem exec_rdGain (s : State) : exec .rdGain s = .next { s with returned := s.gain :: s.returned } := rfl

theorem exec_rdCtrl (s : State) : exec .rdCtrl s = .next { s with returned := ctrlValue s :: s.returned } := rfl

theorem exec_rdCmd (s : State) : exec .rdCmd s = .next { s with returned := 0x00000000#32 :: s.returned } := rfl

theorem exec_rdStatus (s : State) :
    exec .rdStatus s = .next { s with returned := statusValue s :: s.returned } := rfl

theorem exec_rdProgress (s : State) :
    exec .rdProgress s = .next { s with returned := progressValue s :: s.returned } := rfl

theorem exec_rdRsvd7 (s : State) :
    exec .rdRsvd7 s = .next { s with returned := 0x00000000#32 :: s.returned } := rfl

theorem exec_rdRsvd8to15 (rn : BitVec 4) (s : State) :
    exec (.rdRsvd8to15 rn) s = .next { s with returned := 0x00000000#32 :: s.returned } := rfl

/-! ## The laid-out values -/

/-- CTRL reads as BUF_VALID in bit 0 (R102). -/
theorem ctrlValue_eq_ite (s : State) :
    ctrlValue s = if s.bufValid = true then 0x00000001#32 else 0x00000000#32 := by
  cases hvalid : s.bufValid
  · simp [ctrlValue_eq_zero hvalid]
  · simp [ctrlValue, hvalid]

/-- PROGRESS reads as IDX (R108). -/
theorem progressValue_toNat (s : State) : (progressValue s).toNat = s.idx.toNat := by
  have hlt : s.idx.toNat < 2 ^ 32 := lt_trans s.idx.isLt (by decide)
  rw [progressValue, BitVec.toNat_setWidth, Nat.mod_eq_of_lt hlt]

/-- STATUS as a number: each field is worth its place (R106). -/
theorem statusValue_toNat (s : State) :
    (statusValue s).toNat = (if s.busy then 1 else 0) + (if s.done then 2 else 0) + (if s.err then 4 else 0) +
      (if s.odd then 8 else 0) + 16 * s.errCode.toNat := by
  have hcode : (0#24 ++ s.errCode).toNat = s.errCode.toNat := by rw [BitVec.toNat_append]; simp
  have hplaces : (statusValue s).toNat =
      (((s.errCode.toNat * 2 + s.odd.toNat) * 2 + s.err.toNat) * 2 + s.done.toNat) * 2 + s.busy.toNat := by
    change (((((0#24 ++ s.errCode).concat s.odd).concat s.err).concat s.done).concat s.busy).toNat = _
    simp only [BitVec.toNat_concat, ← hcode]
  rw [hplaces]
  simp only [Bool.toNat, Bool.cond_eq_ite]
  split_ifs <;> omega

/-- Bits 7:4 of STATUS are ERRCODE (R106). -/
theorem statusValue_errCode (s : State) : (statusValue s).extractLsb' 4 4 = s.errCode := by
  apply BitVec.eq_of_toNat_eq
  have := s.errCode.isLt
  rw [BitVec.extractLsb'_toNat, statusValue_toNat, Nat.shiftRight_eq_div_pow]
  split_ifs <;> omega

/-- Bits 31:8 of STATUS read 0 (R106). -/
theorem statusValue_high_zero (s : State) : (statusValue s).extractLsb' 8 24 = 0#24 := by
  apply BitVec.eq_of_toNat_eq
  have := s.errCode.isLt
  rw [BitVec.extractLsb'_toNat, statusValue_toNat, Nat.shiftRight_eq_div_pow, BitVec.toNat_ofNat]
  split_ifs <;> omega

/-! ## The statements -/

/-- Settles O10: BUF_BASE is read modulo `2^AW`, BUF_LEN and GAIN as they are. -/
theorem bufferAndGainReadsReturnTheRegisters : Obligations.BufferAndGainReadsReturnTheRegisters := by
  intro tw s
  refine ⟨fun h => ⟨decode_of_readRow 0#4 h, ?bufBase⟩, fun h => ⟨decode_of_readRow 1#4 h, exec_rdBufLen s⟩,
    fun h => ⟨decode_of_readRow 2#4 h, exec_rdGain s⟩⟩
  case bufBase => exact ⟨bufBaseValue s, exec_rdBufBase s, bufBaseValue_toNat s⟩

/-- Settles O11: CTRL and PROGRESS by their laid-out values, CMD because it holds no state. -/
theorem ctrlCmdAndProgressReads : Obligations.CtrlCmdAndProgressReads := by
  intro tw s
  refine ⟨fun h => ⟨decode_of_readRow 3#4 h, ?ctrl⟩, fun h => ⟨decode_of_readRow 4#4 h, exec_rdCmd s⟩,
    fun h => ⟨decode_of_readRow 6#4 h, ?progress⟩⟩
  case ctrl => rw [exec_rdCtrl, ctrlValue_eq_ite]
  case progress => exact ⟨progressValue s, exec_rdProgress s, progressValue_toNat s⟩

/-- Settles O12: the word returned is `statusValue`, whose bits and number the lemmas above give. -/
theorem statusReadShowsEveryFieldInItsPlace : Obligations.StatusReadShowsEveryFieldInItsPlace := by
  intro tw s h
  obtain ⟨hbusy, hdone, herr, hodd⟩ := statusValue_getLsbD s
  exact ⟨decode_of_readRow 5#4 h, statusValue s, exec_rdStatus s, hbusy, hdone, herr, hodd, statusValue_errCode s,
    statusValue_high_zero s, statusValue_toNat s⟩

/-- Settles O13, row by row: no reserved number reaches a register. -/
theorem reservedRegistersReadZeroAndIgnoreWrites : Obligations.ReservedRegistersReadZeroAndIgnoreWrites := by
  intro tw s
  refine ⟨fun h => ⟨?decodeProgress, exec_wrProgress _ s⟩, fun h => ⟨?decodeRead7, exec_rdRsvd7 s⟩,
    fun h => ⟨?decodeReadHigh, exec_rdRsvd8to15 _ s⟩, fun h => ⟨?decodeWrite7, exec_wrRsvd7 _ s⟩,
    fun h => ⟨?decodeWriteHigh, exec_wrRsvd8to15 _ _ s⟩⟩
  case decodeProgress => exact decode_of_writeRow 6#4 h
  case decodeRead7 => exact decode_of_readRow 7#4 h
  case decodeReadHigh => exact decode_of_highReadRow h
  case decodeWrite7 => exact decode_of_writeRow 7#4 h
  case decodeWriteHigh => exact decode_of_highWriteRow h

end Sys2Proof.Proofs
end

section
/-! The register writes (`40_host_transactions.md` R97 to R103, R107): each sets its own register, or clears bits of STATUS,
in a call or not. -/

namespace Sys2Proof.Proofs

open Sys2Proof.Machine

/-! ## The configuration registers -/

theorem exec_wrBufLen (w : Word) (s : State) : exec (.wrBufLen w) s = .next { s with bufLen := w } := rfl

theorem exec_wrGain (w : Word) (s : State) : exec (.wrGain w) s = .next { s with gain := w } := rfl

/-- BUF_BASE reads as the data written modulo `2^AW` (R96, R97). -/
theorem bufBaseValue_of_written (w : Word) (s : State) :
    (bufBaseValue { s with bufBase := addrBits s.cfg w }).toNat = w.toNat % 2 ^ s.cfg.aw := by
  rw [bufBaseValue_toNat, addrBits_toNat, Nat.mod_mod]

/-- CTRL reads as bit 0 of the data written (R102, R103). -/
theorem ctrlValue_of_written (w : Word) (s : State) :
    (ctrlValue { s with bufValid := w.getLsbD 0 }).toNat = w.toNat % 2 := by
  rw [ctrlValue_eq_ite]
  rcases Nat.mod_two_eq_zero_or_one w.toNat with h | h <;> simp [BitVec.getLsbD, Nat.testBit, h]

/-- Settles O14: each register is set, and the read of it in the state after the write gives what the rule says. -/
theorem configurationWritesSetTheirRegister : Obligations.ConfigurationWritesSetTheirRegister := by
  intro tw s
  refine ⟨fun h => ⟨decode_of_writeRow 0#4 h, ?bufBase⟩, fun h => ⟨decode_of_writeRow 1#4 h, ?bufLen⟩,
    fun h => ⟨decode_of_writeRow 2#4 h, ?gain⟩, fun h => ⟨decode_of_writeRow 3#4 h, ?ctrl⟩⟩
  case bufBase => exact ⟨_, _, exec_wrBufBase _ s, rfl, exec_rdBufBase _, bufBaseValue_of_written _ s⟩
  case bufLen => exact ⟨_, exec_wrBufLen _ s, rfl, exec_rdBufLen _⟩
  case gain => exact ⟨_, exec_wrGain _ s, rfl, exec_rdGain _⟩
  case ctrl => exact ⟨_, _, exec_wrCtrl _ s, rfl, exec_rdCtrl _, ctrlValue_of_written _ s⟩

/-! ## The mask of a STATUS write -/

/-- A STATUS write reaches DONE, ERR, ERRCODE and ODD alone (R107). -/
theorem clearStatus_frame (w : Word) (s : State) :
    clearStatus w s =
      { s with
        done := (clearStatus w s).done
        err := (clearStatus w s).err
        errCode := (clearStatus w s).errCode
        odd := (clearStatus w s).odd } := rfl

/-- A 1 in bit 2 of the mask clears ERR and ERRCODE together (R107). -/
theorem clearStatus_clears_err {w : Word} (h : w.getLsbD 2 = true) (s : State) :
    (clearStatus w s).err = false ∧ (clearStatus w s).errCode = 0#4 := by
  simp [h]

/-- A 0 in bit 2 of the mask leaves ERR and ERRCODE (R107). -/
theorem clearStatus_keeps_err {w : Word} (h : w.getLsbD 2 = false) (s : State) :
    (clearStatus w s).err = s.err ∧ (clearStatus w s).errCode = s.errCode := by
  rw [clearStatus_err, clearStatus_errCode, h]
  simp

/-- Settles O15: bits 1, 2 and 3 of the word are those of the mask, and each decides for its own field. -/
theorem statusWriteClearsByMask : Obligations.StatusWriteClearsByMask := by
  intro tw s h
  refine ⟨decode_of_writeRow 5#4 h, clearStatus (twWdata tw) s, exec_wrStatus _ s, clearStatus_frame _ s, ?_⟩
  rw [← getLsbD_twWdata tw (i := 1) (by decide), ← getLsbD_twWdata tw (i := 2) (by decide),
    ← getLsbD_twWdata tw (i := 3) (by decide)]
  refine ⟨fun h1 => ?doneClear, fun h1 => ?doneKept, fun h2 => clearStatus_clears_err h2 s,
    fun h2 => clearStatus_keeps_err h2 s, fun h3 => ?oddClear, fun h3 => ?oddKept⟩
  case doneClear => rw [clearStatus_done, h1, Bool.not_true, Bool.and_false]
  case doneKept => rw [clearStatus_done, h1, Bool.not_false, Bool.and_true]
  case oddClear => rw [clearStatus_odd, h3, Bool.not_true, Bool.and_false]
  case oddKept => rw [clearStatus_odd, h3, Bool.not_false, Bool.and_true]

end Sys2Proof.Proofs
end

section
/-! A write of CMD (`40_host_transactions.md` R105, `41_apply_command.md` R120 to R124): APPLY and the reserved words are one
operation, `writeCmd`, which is dropped while a call is in progress and else clears the record, checks and latches. -/

namespace Sys2Proof.Proofs

open Sys2Proof.Machine

/-! ## The row of CMD -/

theorem decodeWrite_cmd (w : Word) : decodeWrite 4#4 w = if w = applyWord then .apply else .wrCmdReserved w := rfl

theorem exec_apply (s : State) : exec .apply s = .next (writeCmd applyWord s) := rfl

theorem exec_wrCmdReserved (w : Word) (s : State) : exec (.wrCmdReserved w) s = .next (writeCmd w s) := rfl

/-- A word that writes CMD is APPLY for the one assigned command word, else WR_CMD_RESERVED (R79, R80). -/
theorem decode_of_cmdRow {tw : TransWord} (h : tw &&& 0x1F00000000#37 = 0x1400000000#37) :
    (twWdata tw = applyWord ∧ decode tw = .apply) ∨ decode tw = .wrCmdReserved (twWdata tw) := by
  have hdecode : decode tw = decodeWrite 4#4 (twWdata tw) := decode_of_writeRow 4#4 h
  rw [hdecode, decodeWrite_cmd]
  by_cases hw : twWdata tw = applyWord
  · exact .inl ⟨hw, if_pos hw⟩
  · exact .inr (if_neg hw)

/-- A word that writes CMD is the dispatcher of R105 on its data. -/
theorem exec_of_cmdRow {tw : TransWord} (h : tw &&& 0x1F00000000#37 = 0x1400000000#37) (s : State) :
    exec (decode tw) s = .next (writeCmd (twWdata tw) s) := by
  rcases decode_of_cmdRow h with ⟨hw, hdecode⟩ | hdecode
  · rw [hdecode, hw, exec_apply]
  · rw [hdecode, exec_wrCmdReserved]

/-! ## While a call is in progress, and while none is -/

theorem writeCmd_of_busy {s : State} (hbusy : s.busy = true) (w : Word) : writeCmd w s = s := by
  rw [writeCmd, if_pos hbusy]

theorem writeCmd_of_idle {s : State} (hidle : s.busy = false) (w : Word) :
    writeCmd w s = if w = applyWord then tryApply (clearRecord s) else raiseError .illegalCmd (clearRecord s) := by
  rw [writeCmd, hidle]
  rfl

/-- Clearing the record first makes no difference, because the command clears it anyway (R122). -/
theorem writeCmd_clearRecord {s : State} (hidle : s.busy = false) (w : Word) :
    writeCmd w (clearRecord s) = writeCmd w s := by
  have hcleared : (clearRecord s).busy = false := hidle
  have htwice : clearRecord (clearRecord s) = clearRecord s := rfl
  rw [writeCmd_of_idle hcleared, writeCmd_of_idle hidle, htwice]

/-- A command taken in an idle state leaves DONE and IDX as the clearing of the record set them. -/
theorem writeCmd_done_idx {s : State} (hidle : s.busy = false) (w : Word) :
    (writeCmd w s).done = false ∧ (writeCmd w s).idx = 0#31 := by
  rcases writeCmd_cases w s with ⟨hbusy, _⟩ | ⟨_, _, h⟩ | ⟨_, _, _, _, h⟩ | ⟨_, _, _, h⟩
  · rw [hidle] at hbusy
    contradiction
  all_goals
    rw [h]
    exact ⟨rfl, rfl⟩

/-- Settles O16: both rows of CMD reach the dispatcher, which drops the word. -/
theorem commandWhileBusyIsDropped : Obligations.CommandWhileBusyIsDropped := by
  intro tw s h hbusy
  refine ⟨(decode_of_cmdRow h).imp_left And.right, ?_⟩
  rw [exec_of_cmdRow h, writeCmd_of_busy hbusy]

/-- Settles O17: the state with the five fields at 0 is `clearRecord s`. -/
theorem commandFirstClearsTheRecord : Obligations.CommandFirstClearsTheRecord := by
  intro tw s h hidle
  have hsame : exec (decode tw) s = exec (decode tw) (clearRecord s) := by
    rw [exec_of_cmdRow h, exec_of_cmdRow h, writeCmd_clearRecord hidle]
  exact ⟨hsame, writeCmd (twWdata tw) s, exec_of_cmdRow h s, writeCmd_done_idx hidle _⟩

/-! ## The checks of APPLY -/

/-- A pattern is finite when its exponent bits are not all ones (R145). -/
theorem isFinite_iff_expBits (p : Word) : isFinite p = true ↔ p.extractLsb' 23 8 ≠ 0xFF#8 := by
  rw [isFinite_iff, expField, ne_eq, ne_eq, ← BitVec.toNat_inj]
  rfl

theorem isFinite_eq_false_of_expBits {p : Word} (h : p.extractLsb' 23 8 = 0xFF#8) : isFinite p = false := by
  rw [← Bool.not_eq_true, isFinite_iff_expBits]
  exact not_not_intro h

theorem applyError_nullBuffer {s : State} (hvalid : s.bufValid = false) : applyError s = some .nullBuffer := by
  rw [applyError, if_pos hvalid]

theorem applyError_gainNotFinite {s : State} (hvalid : s.bufValid = true) (hgain : isFinite s.gain = false) :
    applyError s = some .gainNotFinite := by
  rw [applyError, if_neg (by simp [hvalid]), if_pos hgain]

theorem applyError_addrRange {s : State} (hvalid : s.bufValid = true) (hgain : isFinite s.gain = true)
    (hrange : rangeFits s = false) : applyError s = some .addrRange := by
  rw [applyError, if_neg (by simp [hvalid]), if_neg (by simp [hgain]), if_pos hrange]

/-- The range does not fit exactly when its end lies past the last address (R123). -/
theorem rangeFits_eq_false_iff (s : State) :
    rangeFits s = false ↔ 2 ^ s.cfg.aw < s.bufBase.toNat % 2 ^ s.cfg.aw + s.bufLen.toNat := by
  rw [← Bool.not_eq_true, rangeFits_iff, not_le]

/-- A buffer of at most one byte fits whatever its base (R128). -/
theorem rangeFits_of_length_le_one {s : State} (hlen : s.bufLen.toNat ≤ 1) : rangeFits s = true := by
  have hbase : s.bufBase.toNat % 2 ^ s.cfg.aw < 2 ^ s.cfg.aw := Nat.mod_lt _ (Nat.two_pow_pos _)
  rw [rangeFits_iff]
  omega

/-! ## APPLY in an idle state -/

/-- APPLY is refused with the error of the first check that fails (R123). -/
theorem exec_apply_of_error {s : State} {e : ErrorKind} (hidle : s.busy = false) (he : applyError s = some e) :
    exec .apply s = .next (raiseError e (clearRecord s)) := by
  rw [exec_apply, writeCmd_of_idle hidle, if_pos rfl, tryApply, applyError_clearRecord, he]

/-- APPLY is accepted where no check fails (R124). -/
theorem exec_apply_of_checks {s : State} (hidle : s.busy = false) (hvalid : s.bufValid = true)
    (hgain : isFinite s.gain = true) (hrange : rangeFits s = true) :
    exec .apply s = .next (acceptCall (clearRecord s)) := by
  have hnone : applyError s = none := (applyError_none s).2 ⟨hvalid, hgain, hrange⟩
  rw [exec_apply, writeCmd_of_idle hidle, if_pos rfl, tryApply, applyError_clearRecord, hnone]

/-- Settles O19: under the hypotheses of each clause its check is the first that fails. -/
theorem applyIsRefusedByTheFirstFailingCheck : Obligations.ApplyIsRefusedByTheFirstFailingCheck := by
  intro s hidle
  refine ⟨fun hvalid => ?nullBuffer, fun hvalid hexp => ?gainNotFinite, fun hvalid hexp hpast => ?addrRange⟩
  case nullBuffer => exact exec_apply_of_error hidle (applyError_nullBuffer hvalid)
  case gainNotFinite =>
    exact exec_apply_of_error hidle (applyError_gainNotFinite hvalid (isFinite_eq_false_of_expBits hexp))
  case addrRange =>
    have hgain : isFinite s.gain = true := (isFinite_iff_expBits _).2 hexp
    have hrange : rangeFits s = false := (rangeFits_eq_false_iff s).2 hpast
    exact exec_apply_of_error hidle (applyError_addrRange hvalid hgain hrange)

/-- Settles O20: acceptance sets BUSY, ODD and the latches over the cleared record, and each latch is its operand's number. -/
theorem applyIsAcceptedAndLatchesItsOperands : Obligations.ApplyIsAcceptedAndLatchesItsOperands := by
  intro s hidle hvalid hexp hfits
  have haccept : exec .apply s = .next (acceptCall (clearRecord s)) :=
    exec_apply_of_checks hidle hvalid ((isFinite_iff_expBits _).2 hexp) ((rangeFits_iff s).2 hfits)
  exact ⟨_, haccept, rfl, bufBaseValue_toNat s, windowCount_toNat s.bufLen, oddLength_eq s.bufLen⟩

end Sys2Proof.Proofs
end

section
/-! The engine's turn (`41_apply_command.md` R126 to R130, R138): what a window step leaves in memory, performed or faulted,
and what no turn of the engine changes. -/

namespace Sys2Proof.Proofs

open Sys2Proof.Machine

/-! ## Which step is enabled -/

theorem engineStep_of_window_left {s : State} (hbusy : s.busy = true) (hleft : s.idx.toNat < s.wNwin.toNat) :
    engineStep s = windowStep s := by
  rw [engineStep, if_pos hbusy, if_pos hleft]

theorem engineStep_of_complete {s : State} (hbusy : s.busy = true) (hend : s.idx = s.wNwin) :
    engineStep s = finishStep s := by
  rw [engineStep, if_pos hbusy, if_neg (by simp [hend]), if_pos hend]

theorem engineStep_of_idle {s : State} (hidle : s.busy = false) : engineStep s = s := by
  rw [engineStep, hidle]
  rfl

/-- A machine at rest, with no step to come, stays as it is. -/
theorem step_of_idle {s : State} (hnil : s.pending = []) (hidle : s.busy = false) : step s = .next s := by
  rw [step_nil s hnil, engineStep_of_idle hidle]

/-- Settles O23: the engine has the turn because no other step is to come. -/
theorem finishStepEndsTheCall : Obligations.FinishStepEndsTheCall := by
  refine ⟨fun s hnil hbusy hend => ?finish, fun s hnil hidle => step_of_idle hnil hidle⟩
  case finish => rw [step_nil s hnil, engineStep_of_complete hbusy hend, finishStep]

/-- Settles O21: a length of at most one byte is half rounded down to no window, so IDX is at W_NWIN from the start. -/
theorem zeroWindowCallFinishesWithoutAccess : Obligations.ZeroWindowCallFinishesWithoutAccess := by
  intro s hidle hlen
  refine ⟨fun hvalid hexp => ?accepted, fun hvalid => ?refused⟩
  case accepted =>
    have haccept : exec .apply s = .next (acceptCall (clearRecord s)) :=
      exec_apply_of_checks hidle hvalid ((isFinite_iff_expBits _).2 hexp) (rangeFits_of_length_le_one hlen)
    have hnone : windowCount s.bufLen = 0#31 := by
      apply BitVec.eq_of_toNat_eq
      rw [windowCount_toNat, Nat.div_eq_of_lt (Nat.lt_succ_of_le hlen)]
      rfl
    have hend : (acceptCall (clearRecord s)).idx = (acceptCall (clearRecord s)).wNwin := hnone.symm
    have hodd : oddLength s.bufLen = decide (s.bufLen.toNat = 1) := by
      rw [oddLength_eq, Nat.mod_eq_of_lt (Nat.lt_succ_of_le hlen)]
    exact ⟨_, haccept, rfl, hnone, finishStep (acceptCall (clearRecord s)), (engineStep_of_complete rfl hend).symm,
      rfl, rfl, rfl, rfl, hodd, rfl, rfl⟩
  case refused => exact ⟨_, exec_apply_of_error hidle (applyError_nullBuffer hvalid), rfl, rfl, rfl⟩

/-! ## A window step -/

/-- Where no other step is to come and a window is left, the step is the window step. -/
theorem step_of_window_left {s : State} (hnil : s.pending = []) (hbusy : s.busy = true)
    (hleft : s.idx.toNat < s.wNwin.toNat) : step s = .next (windowStep s) := by
  rw [step_nil s hnil, engineStep_of_window_left hbusy hleft]

/-- Memory after both bytes of a window are written. -/
theorem read_writeTwo (m : Memory) (a x : Nat) (c0 c1 : Byte) :
    ((m.write a c0).write (a + 1) c1).read x = if x = a then c0 else if x = a + 1 then c1 else m.read x := by
  rw [read_write, read_write]
  by_cases hx : x = a
  · rw [if_neg (by omega), if_pos hx, if_pos hx]
  · rw [if_neg hx, if_neg hx]

/-- The platform refuses one of the four accesses of the window at `a` (R73). -/
def windowRefused (cfg : Config) (a : Nat) : Prop :=
  memOK cfg a .read = false ∨ memOK cfg (a + 1) .read = false ∨
    memOK cfg a .write = false ∨ memOK cfg (a + 1) .write = false

/-- Where an access is refused the window step raises MEM_FAULT, with at most the first byte of the window written (R198). -/
theorem windowStep_of_refused {s : State} {a : Nat} (ha : a = windowAddr s.wBase s.idx.toNat)
    (hrefused : windowRefused s.cfg a) :
    ∃ m tr, windowStep s = raiseError .memFault { s with mem := m, trace := tr } ∧
      ∀ x, x ≠ a → m.read x = s.mem.read x := by
  rcases windowStep_cases s a _ ha rfl with
    ⟨_, h⟩ | ⟨_, _, h⟩ | ⟨_, _, _, h⟩ | ⟨_, _, _, _, h⟩ | ⟨r0, r1, w0, w1, _⟩
  case inr.inr.inr.inl => -- the write of c1 faults, after that of c0
    exact ⟨_, _, h, fun x hx => read_write_other _ _ _ _ hx⟩
  case inr.inr.inr.inr => -- all four are performed
    simp [windowRefused, r0, r1, w0, w1] at hrefused
  all_goals exact ⟨_, _, h, fun _ _ => rfl⟩

/-- Settles O22: the step is the window step, and its accesses decide between the two clauses. -/
theorem windowStepProcessesOneWindow : Obligations.WindowStepProcessesOneWindow := by
  intro s a hnil hbusy hleft ha
  have hstep : step s = .next (windowStep s) := step_of_window_left hnil hbusy hleft
  refine ⟨fun r0 r1 w0 w1 => ?performed, fun hrefused => ?faulted⟩
  case performed =>
    rw [windowStep_performed s a _ ha rfl r0 r1 w0 w1] at hstep
    exact ⟨_, _, _, rfl, hstep, rfl, idx_add_one_toNat s hleft, rfl, fun x => read_writeTwo _ _ x _ _⟩
  case faulted =>
    obtain ⟨m, tr, hfault, _⟩ := windowStep_of_refused ha hrefused
    rw [hfault] at hstep
    exact ⟨_, hstep, rfl, rfl, rfl, rfl⟩

/-- Settles O24: one whole next state for each of the four accesses, and for every one of them an idle engine and memory
unchanged but for the first byte of the window. -/
theorem memoryFaultLeavesTheTabulatedBytes : Obligations.MemoryFaultLeavesTheTabulatedBytes := by
  intro s a hnil hbusy hleft ha
  refine ⟨windowStep s, step_of_window_left hnil hbusy hleft, fun r0 => ?read0, fun r0 r1 => ?read1,
    fun c0 c1 hc r0 r1 => ⟨fun w0 => ?write0, fun w0 w1 => ?write1⟩, fun hrefused => ?after⟩
  case read0 => exact windowStep_faultRead0 s a ha r0
  case read1 => exact windowStep_faultRead1 s a ha r0 r1
  case write0 => exact windowStep_faultWrite0 s a (c0, c1) ha hc r0 r1 w0
  case write1 =>
    rw [windowStep_faultWrite1 s a (c0, c1) ha hc r0 r1 w0 w1]
    exact ⟨rfl, fun x => read_write _ _ x _⟩
  case after =>
    obtain ⟨m, tr, hfault, hmem⟩ := windowStep_of_refused ha hrefused
    rw [hfault]
    refine ⟨?stops, fun before x hcall hin hx => ?otherWindows⟩
    case stops => exact step_of_idle hnil rfl
    case otherWindows =>
      obtain ⟨_, hprocessed⟩ := hcall
      calc m.read x
          = s.mem.read x := hmem x hx
        _ = processedByte before s.wBase s.idx.toNat s.wGain x := hprocessed x hin

/-! ## What no turn of the engine changes -/

/-- A window step reaches BUSY, ERR, ERRCODE, IDX, memory and the order of accesses alone. -/
theorem windowStep_frame (s : State) :
    windowStep s =
      { s with
        busy := (windowStep s).busy
        err := (windowStep s).err
        errCode := (windowStep s).errCode
        idx := (windowStep s).idx
        mem := (windowStep s).mem
        trace := (windowStep s).trace } := by
  rcases windowStep_cases s _ _ rfl rfl with
    ⟨_, h⟩ | ⟨_, _, h⟩ | ⟨_, _, _, h⟩ | ⟨_, _, _, _, h⟩ | ⟨_, _, _, _, h⟩
  case inr.inr.inr.inr => rw [h] -- all four are performed
  all_goals -- the four faults
    rw [h]
    rfl

/-- A window step, performed or faulted, changes no byte but the two of its window. -/
theorem windowStep_keeps_other_bytes {s : State} {a x : Nat} (ha : a = windowAddr s.wBase s.idx.toNat) (h0 : x ≠ a)
    (h1 : x ≠ a + 1) : (windowStep s).mem.read x = s.mem.read x := by
  rcases windowStep_cases s a _ ha rfl with
    ⟨_, h⟩ | ⟨_, _, h⟩ | ⟨_, _, _, h⟩ | ⟨_, _, _, _, h⟩ | ⟨_, _, _, _, h⟩
  case inr.inr.inr.inl => -- c0 alone is written
    rw [h]
    exact read_write_other _ _ _ _ h0
  case inr.inr.inr.inr => -- both bytes are written
    rw [h]
    exact (read_writeTwo _ _ _ _ _).trans (by rw [if_neg h0, if_neg h1])
  all_goals rw [h, raiseError_mem]

/-- The engine's turn reaches the fields of a window step and DONE alone. -/
theorem engineStep_frame (s : State) :
    engineStep s =
      { s with
        busy := (engineStep s).busy
        done := (engineStep s).done
        err := (engineStep s).err
        errCode := (engineStep s).errCode
        idx := (engineStep s).idx
        mem := (engineStep s).mem
        trace := (engineStep s).trace } := by
  rcases engineStep_cases s with ⟨_, _, h⟩ | ⟨_, _, h⟩ | ⟨_, h⟩
  · have hdone : (windowStep s).done = s.done := by rw [windowStep_frame]
    rw [h, hdone]
    exact windowStep_frame s
  · rw [h]
    rfl
  · rw [h]

/-- The engine's turn changes no byte outside the complete windows of the call (R138). -/
theorem engineStep_keeps_bytes_outside {s : State} {x : Nat} (hout : ¬inWindows s.wBase s.wNwin.toNat x) :
    (engineStep s).mem.read x = s.mem.read x := by
  rcases engineStep_cases s with ⟨_, hleft, h⟩ | ⟨_, _, h⟩ | ⟨_, h⟩
  · obtain ⟨hlo, hhi⟩ := inWindows_windowAddr s.wBase hleft
    rw [h]
    exact windowStep_keeps_other_bytes rfl (fun hx => hout (hx ▸ hlo)) (fun hx => hout (hx ▸ hhi))
  · rw [h, finishStep_mem]
  · rw [h]

/-- Settles O26: a listed turn is taken off the list, which touches none of the fields, and the rest is the engine's frame. -/
theorem engineKeepsRegistersAndOtherMemory : Obligations.EngineKeepsRegistersAndOtherMemory := by
  intro s t hturn hstep
  obtain ⟨rest, rfl⟩ := eq_engineStep_of_engineTurn hturn hstep
  rw [engineStep_frame (takePending rest s)]
  exact ⟨rfl, rfl, rfl, rfl, rfl, rfl, rfl, rfl, rfl, rfl,
    fun _ hout => engineStep_keeps_bytes_outside (s := takePending rest s) hout⟩

end Sys2Proof.Proofs
end

section
/-! The sample unpacker and the packer (`42_sample_unpack.md` R140, R142, `44_narrow_pack.md` R173). A window's two bytes and
its 16-bit pattern determine each other, and so do a pattern and its sample; the two bijections compose to the inverse pair. -/

namespace Sys2Proof.Proofs

open Sys2Proof.Machine

/-! ## The value of a window's bytes -/

/-- The sign of a sample is that of its high byte; the low byte only adds to it. -/
theorem unpack16le_eq_highByte_toInt (b0 b1 : Byte) : unpack16le b0 b1 = 256 * b1.toInt + b0.toNat :=
  BitVec.toInt_append

/-- Settles O27: the high byte is its unsigned value below 128, and 256 less from there on. -/
theorem unpackReadsLittleEndianTwosComplement : Obligations.UnpackReadsLittleEndianTwosComplement := by
  intro b0 b1
  rw [unpack16le_eq_highByte_toInt]
  refine ⟨fun hlow => ?nonnegative, fun hhigh => ?negative⟩
  case nonnegative =>
    have hb1 : b1.toInt = b1.toNat := BitVec.toInt_eq_toNat_of_lt (by omega)
    rw [hb1]
  case negative =>
    have hb1 : b1.toInt = (b1.toNat : Int) - 256 := by
      rw [BitVec.toInt_eq_toNat_cond, if_neg (by omega)]
      rfl
    rw [hb1]
    ring

/-! ## Bytes and pattern -/

@[simp] theorem pack16le_joinBytes (b0 b1 : Byte) : pack16le (joinBytes b0 b1) = (b0, b1) :=
  Prod.ext BitVec.extractLsb'_append_eq_right BitVec.extractLsb'_append_eq_left

@[simp] theorem joinBytes_pack16le (r : Half) : joinBytes (pack16le r).1 (pack16le r).2 = r :=
  calc joinBytes (pack16le r).1 (pack16le r).2
      = r.extractLsb' 0 16 := BitVec.extractLsb'_append_extractLsb'_eq_extractLsb' rfl
    _ = r := BitVec.extractLsb'_eq_self

/-! ## Pattern and sample -/

/-- Narrowing a sample gives back its pattern. -/
@[simp] theorem wrap16_unpack16le (b0 b1 : Byte) : wrap16 (unpack16le b0 b1) = joinBytes b0 b1 :=
  BitVec.ofInt_toInt

@[simp] theorem unpack16le_pack16le (r : Half) : unpack16le (pack16le r).1 (pack16le r).2 = r.toInt := by
  rw [unpack16le, joinBytes_pack16le]

/-- Narrowing is the identity on the samples (R173). -/
theorem wrap16_toInt_of_sample {s : Int} (hlo : -32768 ≤ s) (hhi : s ≤ 32767) : (wrap16 s).toInt = s :=
  BitVec.toInt_ofInt_eq_self (by decide) hlo (by omega)

/-- Settles O28: each clause undoes the pattern's bytes, the sample's pattern, or both. -/
theorem unpackAndPackAreInverse : Obligations.UnpackAndPackAreInverse := by
  refine ⟨fun b0 b1 => ?ofBytes, pack16le_joinBytes, unpack16le_pack16le, fun s hlo hhi => ?ofSample⟩
  case ofBytes => rw [wrap16_unpack16le, pack16le_joinBytes]
  case ofSample => rw [unpack16le_pack16le, wrap16_toInt_of_sample hlo hhi]

end Sys2Proof.Proofs
end

section
/-! The value of a binary32 pattern (`43_gain_multiply.md` R145): sign, significand and scale, their ranges on the finite
patterns, and what they are for a pattern made of fields. -/

namespace Sys2Proof.Proofs

open Sys2Proof.Machine

/-! ## Sign and magnitude -/

/-- `(−1)^S`. -/
def signFactor (sign : Bool) : ℚ := if sign then -1 else 1

@[simp] theorem signFactor_false : signFactor false = 1 := rfl

@[simp] theorem signFactor_true : signFactor true = -1 := rfl

@[simp] theorem abs_signFactor (sign : Bool) : |signFactor sign| = 1 := by
  cases sign <;> simp

theorem signFactor_xor (a b : Bool) : signFactor (a ^^ b) = signFactor a * signFactor b := by
  cases a <;> cases b <;> simp

theorem signedSignificand_eq (p : Word) : (signedSignificand p : ℚ) = signFactor (signBit p) * significand p := by
  cases h : signBit p <;> simp [signedSignificand, h]

theorem abs_val (p : Word) : |val p| = significand p * (2 : ℚ) ^ scale p := by
  rw [val, signedSignificand_eq, abs_mul, abs_mul, abs_signFactor, one_mul, Nat.abs_cast,
    abs_of_pos (zpow_pos two_pos _)]

theorem val_eq_sign_mul_abs (p : Word) : val p = signFactor (signBit p) * |val p| := by
  rw [abs_val, val, signedSignificand_eq, mul_assoc]

theorem val_eq_zero_iff (p : Word) : val p = 0 ↔ significand p = 0 := by
  have hpow : (2 : ℚ) ^ scale p ≠ 0 := zpow_ne_zero _ two_ne_zero
  rw [← abs_eq_zero, abs_val]
  simp [hpow]

/-! ## Shifts by a power of two -/

theorem mul_two_pow_of_nonneg (a : ℚ) {t : ℤ} (h : 0 ≤ t) : a * 2 ^ t = a * 2 ^ t.toNat := by
  conv_lhs => rw [← Int.toNat_of_nonneg h]
  rw [zpow_natCast]

theorem mul_two_pow_of_neg (a : ℚ) {t : ℤ} (h : t < 0) : a * 2 ^ t = a / 2 ^ (-t).toNat := by
  have hneg : t = -((-t).toNat : ℤ) := by omega
  conv_lhs => rw [hneg]
  rw [zpow_neg, zpow_natCast, div_eq_mul_inv]

/-! ## Ranges -/

theorem fracField_lt (p : Word) : fracField p < 2 ^ 23 := BitVec.isLt _

theorem expField_lt (p : Word) : expField p < 2 ^ 8 := BitVec.isLt _

/-- A zero or subnormal: the significand is the fraction, at the least scale (R145). -/
theorem significand_scale_of_exp_zero {p : Word} (h : expField p = 0) :
    significand p = fracField p ∧ scale p = -149 := by
  simp [significand, scale, h]

/-- A normal: the significand has the hidden bit (R145). -/
theorem significand_scale_of_exp_ne_zero {p : Word} (h : expField p ≠ 0) :
    significand p = 2 ^ 23 + fracField p ∧ scale p = expField p - 150 := by
  simp [significand, scale, h]

theorem significand_lt (p : Word) : significand p < 2 ^ 24 := by
  have hfrac := fracField_lt p
  unfold significand
  split <;> omega

theorem neg_149_le_scale (p : Word) : -149 ≤ scale p := by
  unfold scale
  split <;> omega

theorem scale_le_of_finite {p : Word} (h : isFinite p = true) : scale p ≤ 104 := by
  have hexp := expField_lt p
  have hfin := (isFinite_iff p).1 h
  unfold scale
  split <;> omega

/-- The least real that overflows (R146). -/
def overflowBound : ℚ := 2 ^ (128 : ℕ) - 2 ^ (103 : ℕ)

theorem overflowBound_pos : 0 < overflowBound := by
  norm_num [overflowBound]

/-- The greatest finite value is half a unit in its last place below the threshold of overflow (R145, R146). -/
theorem abs_val_lt_of_finite {p : Word} (h : isFinite p = true) : |val p| < overflowBound := by
  have hsig : (significand p : ℚ) ≤ 2 ^ 24 - 1 := by
    have hlt : significand p + 1 ≤ 2 ^ 24 := significand_lt p
    rw [le_sub_iff_add_le]
    exact_mod_cast hlt
  have hscale : (2 : ℚ) ^ scale p ≤ 2 ^ (104 : ℤ) := zpow_le_zpow_right₀ one_le_two (scale_le_of_finite h)
  calc |val p| = significand p * (2 : ℚ) ^ scale p := abs_val p
    _ ≤ (2 ^ 24 - 1) * 2 ^ (104 : ℤ) := by gcongr
    _ < overflowBound := by norm_num [overflowBound]

/-- The smallest positive value is `2^−149` (R145). -/
theorem le_abs_val {p : Word} (h : val p ≠ 0) : (2 : ℚ) ^ (-149 : ℤ) ≤ |val p| := by
  have hsig : (1 : ℚ) ≤ significand p := by
    exact_mod_cast Nat.one_le_iff_ne_zero.2 (mt (val_eq_zero_iff p).2 h)
  calc (2 : ℚ) ^ (-149 : ℤ) ≤ 2 ^ scale p := zpow_le_zpow_right₀ one_le_two (neg_149_le_scale p)
    _ ≤ significand p * 2 ^ scale p := le_mul_of_one_le_left (zpow_nonneg zero_le_two _) hsig
    _ = |val p| := (abs_val p).symm

/-! ## Patterns made of fields -/

/-- The pattern with exponent field 0 is finite and has the value `F · 2^−149` (R145). -/
theorem mkPattern_subnormal (sign : Bool) {F : Nat} (hF : F < 2 ^ 23) :
    isFinite (mkPattern sign 0 F) = true ∧ |val (mkPattern sign 0 F)| = F * (2 : ℚ) ^ (-149 : ℤ) := by
  have hexp : expField (mkPattern sign 0 F) = 0 := by simp
  obtain ⟨hsig, hscale⟩ := significand_scale_of_exp_zero hexp
  refine ⟨by simp [isFinite], ?_⟩
  rw [abs_val, hsig, hscale, fracField_mkPattern, Nat.mod_eq_of_lt hF]

/-- The pattern of a normal's fields is finite and has the value `(2^23 + F) · 2^(E − 150)` (R145). -/
theorem mkPattern_normal (sign : Bool) {E F : Nat} (hE : E ≠ 0) (hE' : E < 255) (hF : F < 2 ^ 23) :
    isFinite (mkPattern sign E F) = true ∧
      |val (mkPattern sign E F)| = ((2 ^ 23 + F : ℕ) : ℚ) * 2 ^ ((E : ℤ) - 150) := by
  have hexp : expField (mkPattern sign E F) = E := by
    rw [expField_mkPattern, Nat.mod_eq_of_lt (by omega)]
  obtain ⟨hsig, hscale⟩ := significand_scale_of_exp_ne_zero (hexp ▸ hE)
  refine ⟨by rw [isFinite_iff, hexp]; omega, ?_⟩
  rw [abs_val, hsig, hscale, hexp, fracField_mkPattern, Nat.mod_eq_of_lt hF]

/-- The pattern of an infinity's fields. -/
theorem isInf_mkPattern (sign : Bool) : isInf (mkPattern sign 255 0) = true := by
  simp [isInf]

/-- An infinity's pattern as the rules write it. -/
theorem mkPattern_infinity (sign : Bool) :
    mkPattern sign 255 0 = if sign = true then 0xFF800000#32 else 0x7F800000#32 := by
  cases sign <;> rfl

/-- A zero's pattern as the rules write it. -/
theorem mkPattern_zero (sign : Bool) :
    mkPattern sign 0 0 = if sign = true then 0x80000000#32 else 0x00000000#32 := by
  cases sign <;> rfl

/-! ## The three classes of patterns -/

theorem isInf_iff (p : Word) : isInf p = true ↔ expField p = 255 ∧ fracField p = 0 := by
  simp [isInf]

theorem isNaN_iff (p : Word) : isNaN p = true ↔ expField p = 255 ∧ fracField p ≠ 0 := by
  simp [isNaN]

theorem isFinite_eq_false_iff (p : Word) : isFinite p = false ↔ expField p = 255 := by
  simp [isFinite]

theorem isFinite_eq_false_of_isInf {p : Word} (h : isInf p = true) : isFinite p = false :=
  (isFinite_eq_false_iff p).2 ((isInf_iff p).1 h).1

theorem isFinite_eq_false_of_isNaN {p : Word} (h : isNaN p = true) : isFinite p = false :=
  (isFinite_eq_false_iff p).2 ((isNaN_iff p).1 h).1

theorem isNaN_eq_false_of_isInf {p : Word} (h : isInf p = true) : isNaN p = false := by
  simp [isNaN, ((isInf_iff p).1 h).2]

theorem isNaN_eq_false_of_isFinite {p : Word} (h : isFinite p = true) : isNaN p = false := by
  simp [isNaN, (isFinite_iff p).1 h]

theorem isInf_eq_false_of_isFinite {p : Word} (h : isFinite p = true) : isInf p = false := by
  simp [isInf, (isFinite_iff p).1 h]

end Sys2Proof.Proofs
end

section
/-! Rounding to binary32 (`43_gain_multiply.md` R146) as a rule about reals: the binade of `x` fixes the unit in the last
place, the count of units is rounded to an integer, and the pair is packed into fields. -/

namespace Sys2Proof.Proofs

open Sys2Proof.Machine

/-! ## Rounding to an integer, ties to even -/

/-- `n` is a nearest integer to `y`, and the even one where two are nearest. -/
def RoundsTo (y : ℚ) (n : ℕ) : Prop := |y - n| ≤ 1 / 2 ∧ (|y - n| = 1 / 2 → Even n)

theorem roundsTo_natCast (n : ℕ) : RoundsTo n n := by
  simp [RoundsTo]

/-- A tie below an even number goes up to it. -/
theorem roundsTo_sub_half {n : ℕ} (h : Even n) : RoundsTo (n - 1 / 2) n := by
  refine ⟨?_, fun _ => h⟩
  rw [sub_sub_cancel_left, abs_neg, abs_of_pos (by norm_num)]

/-- Rounding is monotone: of two results in the wrong order both would be the even one of the same tie. -/
theorem RoundsTo.mono {y y' : ℚ} {n n' : ℕ} (h : RoundsTo y n) (h' : RoundsTo y' n') (hle : y ≤ y') : n ≤ n' := by
  obtain ⟨hnear, heven⟩ := h
  obtain ⟨hnear', heven'⟩ := h'
  by_contra hlt
  have hsucc : (n' : ℚ) + 1 ≤ n := by exact_mod_cast not_le.1 hlt
  have hlo : (n : ℚ) - 1 / 2 ≤ y := by linarith [(abs_le.1 hnear).1]
  have hhi : y' ≤ n' + 1 / 2 := by linarith [(abs_le.1 hnear').2]
  have htie : y - n = -(1 / 2) := by linarith
  have htie' : y' - n' = 1 / 2 := by linarith
  have hnext : n = n' + 1 := by
    have : (n : ℚ) = n' + 1 := by linarith
    exact_mod_cast this
  have h1 : Even n := heven (by rw [htie]; norm_num)
  have h2 : Even n' := heven' (by rw [htie']; norm_num)
  rw [hnext] at h1
  exact Nat.not_even_iff_odd.2 h2.add_one h1

theorem RoundsTo.unique {y : ℚ} {n n' : ℕ} (h : RoundsTo y n) (h' : RoundsTo y n') : n = n' :=
  le_antisymm (h.mono h' le_rfl) (h'.mono h le_rfl)

/-- An even number is reached from the tie below it on. -/
theorem RoundsTo.even_le_iff {y : ℚ} {n k : ℕ} (h : RoundsTo y n) (hk : Even k) : k ≤ n ↔ (k : ℚ) - 1 / 2 ≤ y := by
  refine ⟨fun hle => ?_, fun hle => (roundsTo_sub_half hk).mono h hle⟩
  have hcast : (k : ℚ) ≤ n := by exact_mod_cast hle
  linarith [(abs_le.1 h.1).1]

/-- The quotient and the remainder of a division by a power of two, as rationals. -/
theorem div_two_pow_eq (m k : ℕ) : (m : ℚ) / 2 ^ k = (m / 2 ^ k : ℕ) + ((m % 2 ^ k : ℕ) : ℚ) / 2 ^ k := by
  have hdiv : (m : ℚ) = 2 ^ k * (m / 2 ^ k : ℕ) + (m % 2 ^ k : ℕ) := by exact_mod_cast (Nat.div_add_mod m (2 ^ k)).symm
  rw [hdiv]
  field_simp

/-- R146's rule on an integer part and a fraction: up above a half, and at a half from an odd number. -/
theorem roundsTo_add_fraction (lo : ℕ) {r : ℚ} (h0 : 0 ≤ r) (h1 : r < 1) :
    RoundsTo (lo + r) (if 1 / 2 < r ∨ (r = 1 / 2 ∧ lo % 2 = 1) then lo + 1 else lo) := by
  split
  case isTrue h => -- up
    have hhalf : 1 / 2 ≤ r := by
      rcases h with h | ⟨h, _⟩ <;> linarith
    have hdist : |(lo : ℚ) + r - ((lo + 1 : ℕ) : ℚ)| = 1 - r := by
      rw [abs_sub_comm, abs_of_nonneg (by push_cast; linarith)]
      push_cast
      ring
    rw [RoundsTo, hdist]
    refine ⟨by linarith, fun heq => ?_⟩
    rcases h with h | ⟨_, hodd⟩
    · linarith
    · exact (Nat.odd_iff.2 hodd).add_one
  case isFalse h => -- down
    push Not at h
    obtain ⟨hle, hnotOdd⟩ := h
    have hdist : |(lo : ℚ) + r - lo| = r := by rw [add_sub_cancel_left, abs_of_nonneg h0]
    rw [RoundsTo, hdist]
    exact ⟨hle, fun heq => Nat.even_iff.2 (Nat.mod_two_ne_one.1 (hnotOdd heq))⟩

/-- The shift of R146 rounds `m / 2^k`. -/
theorem roundShift_roundsTo (m k : ℕ) : RoundsTo ((m : ℚ) / 2 ^ k) (roundShift m k) := by
  have hpos : (0 : ℚ) < 2 ^ k := by positivity
  have hfrac : ((m % 2 ^ k : ℕ) : ℚ) / 2 ^ k < 1 := by
    rw [div_lt_one hpos]
    exact_mod_cast Nat.mod_lt m (Nat.two_pow_pos k)
  have hup : 2 ^ k < 2 * (m % 2 ^ k) ↔ 1 / 2 < ((m % 2 ^ k : ℕ) : ℚ) / 2 ^ k := by
    rw [div_lt_div_iff₀ two_pos hpos, one_mul, mul_comm]
    exact_mod_cast Iff.rfl
  have htie : 2 * (m % 2 ^ k) = 2 ^ k ↔ ((m % 2 ^ k : ℕ) : ℚ) / 2 ^ k = 1 / 2 := by
    rw [div_eq_div_iff hpos.ne' two_ne_zero, one_mul, mul_comm]
    exact_mod_cast Iff.rfl
  rw [div_two_pow_eq, roundShift]
  simp only [hup, htie]
  exact roundsTo_add_fraction _ (by positivity) hfrac

/-- `m · 2^shift` rounded to an integer: R146's step on `n`. -/
def roundedShift (m : ℕ) (shift : ℤ) : ℕ := if 0 ≤ shift then m * 2 ^ shift.toNat else roundShift m (-shift).toNat

theorem roundedShift_roundsTo (m : ℕ) (shift : ℤ) : RoundsTo ((m : ℚ) * 2 ^ shift) (roundedShift m shift) := by
  unfold roundedShift
  split
  case isTrue h =>
    have hcast : (m : ℚ) * 2 ^ shift = (m * 2 ^ shift.toNat : ℕ) := by
      rw [mul_two_pow_of_nonneg _ h]
      push_cast
      rfl
    rw [hcast]
    exact roundsTo_natCast _
  case isFalse h =>
    rw [mul_two_pow_of_neg _ (not_le.1 h)]
    exact roundShift_roundsTo m _

/-! ## The binade -/

/-- The exponent of the binade of `x`, clamped to that of the subnormals (R146). -/
def binade (x : ℚ) : ℤ := max (Int.log 2 x) (-126)

theorem neg_126_le_binade (x : ℚ) : -126 ≤ binade x := le_max_right _ _

theorem lt_two_pow_binade_succ (x : ℚ) : x < (2 : ℚ) ^ (binade x + 1) :=
  lt_of_lt_of_le (Int.lt_zpow_succ_log_self (b := 2) one_lt_two x)
    (zpow_le_zpow_right₀ one_le_two (by have := le_max_left (Int.log 2 x) (-126); simp only [binade]; omega))

theorem two_pow_binade_le {x : ℚ} (hx : 0 < x) (h : binade x ≠ -126) : (2 : ℚ) ^ binade x ≤ x := by
  have hlog : binade x = Int.log 2 x := by
    unfold binade at h ⊢
    omega
  rw [hlog]
  exact Int.zpow_log_le_self (b := 2) one_lt_two hx

/-- The binade of `x` is the one that holds it; of a smaller `x` it is the least one. -/
theorem binade_eq {x : ℚ} {b : ℤ} (hx : 0 < x) (hb : -126 ≤ b) (hlo : b = -126 ∨ (2 : ℚ) ^ b ≤ x)
    (hhi : x < (2 : ℚ) ^ (b + 1)) : binade x = b := by
  have hle : Int.log 2 x < b + 1 := (Int.lt_zpow_iff_log_lt (b := 2) one_lt_two hx).1 hhi
  have hge : b = -126 ∨ b ≤ Int.log 2 x := hlo.imp_right (Int.zpow_le_iff_le_log (b := 2) one_lt_two hx).1
  unfold binade
  omega

/-- The binade as the model computes it. -/
theorem binade_mul_two_pow {m : ℕ} (hm : m ≠ 0) (e : ℤ) :
    binade ((m : ℚ) * 2 ^ e) = max ((Nat.log2 m : ℤ) + e) (-126) := by
  have hpow : (0 : ℚ) < 2 ^ e := zpow_pos two_pos e
  have hlo : (2 : ℚ) ^ ((Nat.log2 m : ℤ) + e) ≤ m * 2 ^ e := by
    rw [zpow_add₀ two_ne_zero, zpow_natCast]
    gcongr
    exact_mod_cast Nat.log2_self_le hm
  have hhi : (m : ℚ) * 2 ^ e < 2 ^ ((Nat.log2 m : ℤ) + e + 1) := by
    rw [add_right_comm, zpow_add₀ two_ne_zero (_ + 1)]
    gcongr
    exact_mod_cast Nat.lt_log2_self (n := m)
  rcases le_total (-126) ((Nat.log2 m : ℤ) + e) with h | h
  · rw [max_eq_left h]
    exact binade_eq (by positivity) h (.inr hlo) hhi
  · rw [max_eq_right h]
    exact binade_eq (by positivity) le_rfl (.inl rfl)
      (hhi.trans_le (zpow_le_zpow_right₀ one_le_two (by omega)))

/-! ## The count of units in the last place -/

/-- `n` is the count of units in the last place that `x` rounds to. -/
def UnitsOf (x : ℚ) (n : ℕ) : Prop := RoundsTo (x * 2 ^ (23 - binade x)) n

/-- A bound `k` in units bounds the count. -/
theorem UnitsOf.le {x : ℚ} {n k : ℕ} (h : UnitsOf x n) (hx : x ≤ k * 2 ^ (binade x - 23)) : n ≤ k := by
  refine RoundsTo.mono h (roundsTo_natCast k) ?_
  rw [← neg_sub, zpow_neg, ← div_eq_mul_inv, div_le_iff₀ (zpow_pos two_pos _)]
  exact hx

theorem UnitsOf.ge {x : ℚ} {n k : ℕ} (h : UnitsOf x n) (hx : k * 2 ^ (binade x - 23) ≤ x) : k ≤ n := by
  refine RoundsTo.mono (roundsTo_natCast k) h ?_
  rw [← neg_sub, zpow_neg, ← div_eq_mul_inv, le_div_iff₀ (zpow_pos two_pos _)]
  exact hx

/-- An exact multiple of the unit in the last place is not changed. -/
theorem UnitsOf.eq_of_exact {x : ℚ} {n k : ℕ} (h : UnitsOf x n) (hx : x = k * 2 ^ (binade x - 23)) : n = k :=
  le_antisymm (h.le hx.le) (h.ge hx.ge)

/-- `2^23` units make the least number of the binade. -/
theorem two_pow_23_units (b : ℤ) : ((2 ^ 23 : ℕ) : ℚ) * 2 ^ (b - 23) = 2 ^ b := by
  rw [zpow_sub₀ two_ne_zero]
  norm_num
  ring

/-- `2^24` units reach the next binade. -/
theorem two_pow_24_units (b : ℤ) : ((2 ^ 24 : ℕ) : ℚ) * 2 ^ (b - 23) = 2 ^ (b + 1) := by
  rw [← two_pow_23_units (b + 1), add_sub_right_comm, zpow_add_one₀ two_ne_zero]
  norm_num
  ring

/-- A binade and a count of its units that R146 packs: a count below `2^23` in the least binade alone. -/
structure Packable (b : ℤ) (n : ℕ) : Prop where
  least : -126 ≤ b
  count_le : n ≤ 2 ^ 24
  subnormal : n < 2 ^ 23 → b = -126

theorem UnitsOf.packable {x : ℚ} {n : ℕ} (h : UnitsOf x n) (hx : 0 < x) : Packable (binade x) n where
  least := neg_126_le_binade x
  count_le := by
    refine h.le ?_
    rw [two_pow_24_units]
    exact (lt_two_pow_binade_succ x).le
  subnormal := by
    intro hsmall
    by_contra hb
    have hge : ((2 ^ 23 : ℕ) : ℚ) * 2 ^ (binade x - 23) ≤ x := by
      rw [two_pow_23_units]
      exact two_pow_binade_le hx hb
    exact absurd (h.ge hge) (not_le.2 hsmall)

/-! ## Packing -/

/-- The fields of `n` units of binade `b`, for `n` below `2^24` (R146). -/
def packFields (sign : Bool) (b : ℤ) (n : ℕ) : Word :=
  if 127 < b then mkPattern sign 255 0
  else if n < 2 ^ 23 then mkPattern sign 0 n
  else mkPattern sign (b + 127).toNat (n - 2 ^ 23)

/-- Packing with the carry into the next binade: the steps of R146 after the rounding. -/
def packUnits (sign : Bool) (b : ℤ) (n : ℕ) : Word :=
  packFields sign (if n == 2 ^ 24 then b + 1 else b) (if n == 2 ^ 24 then 2 ^ 23 else n)

theorem packUnits_carry (sign : Bool) (b : ℤ) : packUnits sign b (2 ^ 24) = packFields sign (b + 1) (2 ^ 23) := rfl

theorem packUnits_of_ne (sign : Bool) (b : ℤ) {n : ℕ} (h : n ≠ 2 ^ 24) : packUnits sign b n = packFields sign b n := by
  rw [packUnits, if_neg (by simpa using h), if_neg (by simpa using h)]

/-- R146 as a rule about the real `x`, however it is written as `m · 2^e`. -/
theorem rne32_eq_packUnits (sign : Bool) {m : ℕ} {e : ℤ} {x : ℚ} (hx : (m : ℚ) * 2 ^ e = x) (hpos : 0 < x) :
    ∃ n, UnitsOf x n ∧ rne32 sign m e = packUnits sign (binade x) n := by
  have hm : m ≠ 0 := by
    rintro rfl
    simp [← hx] at hpos
  have hbinade : binade x = max ((Nat.log2 m : ℤ) + e) (-126) := by rw [← hx, binade_mul_two_pow hm]
  refine ⟨roundedShift m (e - (binade x - 23)), ?units, ?model⟩
  case units =>
    have hshift : x * 2 ^ (23 - binade x) = m * 2 ^ (e - (binade x - 23)) := by
      rw [← hx, mul_assoc, ← zpow_add₀ two_ne_zero]
      congr 2
      ring
    rw [UnitsOf, hshift]
    exact roundedShift_roundsTo m _
  case model =>
    rw [rne32, if_neg hm, hbinade]
    rfl

/-- The sign and the value of packed fields. -/
theorem packFields_finite (sign : Bool) {b : ℤ} {n : ℕ} (h : Packable b n) (hb : b ≤ 127) (hn : n < 2 ^ 24) :
    isFinite (packFields sign b n) = true ∧ signBit (packFields sign b n) = sign ∧
      |val (packFields sign b n)| = n * (2 : ℚ) ^ (b - 23) := by
  rw [packFields, if_neg (not_lt.2 hb)]
  split
  case isTrue hsmall => -- subnormal, or zero
    obtain ⟨hfin, habs⟩ := mkPattern_subnormal sign hsmall
    refine ⟨hfin, signBit_mkPattern .., ?_⟩
    rw [habs, h.subnormal hsmall]
    norm_num
  case isFalse hlarge => -- normal
    have hleast := h.least
    obtain ⟨hfin, habs⟩ :=
      mkPattern_normal sign (E := (b + 127).toNat) (F := n - 2 ^ 23) (by omega) (by omega) (by omega)
    refine ⟨hfin, signBit_mkPattern .., ?_⟩
    have hcount : 2 ^ 23 + (n - 2 ^ 23) = n := by omega
    have hscale : ((b + 127).toNat : ℤ) - 150 = b - 23 := by omega
    rw [habs, hcount, hscale]

/-- Packed units below `2^128` have their value. -/
theorem packUnits_finite (sign : Bool) {b : ℤ} {n : ℕ} (h : Packable b n)
    (hlt : (n : ℚ) * 2 ^ (b - 23) < 2 ^ (128 : ℤ)) :
    isFinite (packUnits sign b n) = true ∧ signBit (packUnits sign b n) = sign ∧
      |val (packUnits sign b n)| = n * (2 : ℚ) ^ (b - 23) := by
  have hleast := h.least
  by_cases hcarry : n = 2 ^ 24
  · subst hcarry
    rw [two_pow_24_units] at hlt ⊢
    have hb : b + 1 < 128 := (zpow_lt_zpow_iff_right₀ one_lt_two).1 hlt
    rw [packUnits_carry, ← two_pow_23_units (b + 1)]
    exact packFields_finite sign ⟨by omega, by omega, by omega⟩ (by omega) (by omega)
  · have hn : n < 2 ^ 24 := lt_of_le_of_ne h.count_le hcarry
    have hb : b ≤ 127 := by
      by_contra hb
      have hlarge : 2 ^ 23 ≤ n := not_lt.1 (mt h.subnormal (by omega))
      refine absurd hlt (not_lt.2 ?_)
      calc (2 : ℚ) ^ (128 : ℤ) ≤ 2 ^ b := zpow_le_zpow_right₀ one_le_two (by omega)
        _ = ((2 ^ 23 : ℕ) : ℚ) * 2 ^ (b - 23) := (two_pow_23_units b).symm
        _ ≤ n * 2 ^ (b - 23) := by gcongr
    rw [packUnits_of_ne sign b hcarry]
    exact packFields_finite sign h hb hn

/-- Packed units from `2^128` on give an infinity. -/
theorem packUnits_overflow (sign : Bool) {b : ℤ} {n : ℕ} (h : Packable b n)
    (hge : (2 : ℚ) ^ (128 : ℤ) ≤ n * 2 ^ (b - 23)) : packUnits sign b n = mkPattern sign 255 0 := by
  by_cases hcarry : n = 2 ^ 24
  · subst hcarry
    rw [two_pow_24_units] at hge
    have hb : 128 ≤ b + 1 := (zpow_le_zpow_iff_right₀ one_lt_two).1 hge
    rw [packUnits_carry, packFields, if_pos (by omega)]
  · have hn : n < 2 ^ 24 := lt_of_le_of_ne h.count_le hcarry
    have hlt : (2 : ℚ) ^ (128 : ℤ) < 2 ^ (b + 1) := by
      refine hge.trans_lt ?_
      rw [← two_pow_24_units]
      gcongr
    have hb : 128 < b + 1 := (zpow_lt_zpow_iff_right₀ one_lt_two).1 hlt
    rw [packUnits_of_ne sign b hcarry, packFields, if_pos (by omega)]

/-! ## The threshold of overflow -/

/-- The rounded magnitude reaches `2^128` exactly when `x` reaches the tie below it: half a unit of the last binade (R146). -/
theorem UnitsOf.overflow_iff {x : ℚ} {n : ℕ} (h : UnitsOf x n) (hx : 0 < x) :
    (2 : ℚ) ^ (128 : ℤ) ≤ n * 2 ^ (binade x - 23) ↔ overflowBound ≤ x := by
  have hpack := h.packable hx
  rcases lt_trichotomy (binade x) 127 with hb | hb | hb
  case inl => -- both are below `2^127`
    have hpow : (2 : ℚ) ^ (binade x + 1) ≤ 2 ^ (127 : ℤ) := zpow_le_zpow_right₀ one_le_two (by omega)
    have hrounded : (n : ℚ) * 2 ^ (binade x - 23) ≤ 2 ^ (binade x + 1) := by
      rw [← two_pow_24_units]
      gcongr
      exact hpack.count_le
    have hlt := lt_two_pow_binade_succ x
    norm_num [overflowBound] at hpow ⊢
    constructor <;> intro hge <;> linarith
  case inr.inl => -- the last binade: its last count before the carry is odd, so the tie goes up
    have hunits : 2 ^ 24 ≤ n ↔ ((2 ^ 24 : ℕ) : ℚ) - 1 / 2 ≤ x * 2 ^ (23 - binade x) := h.even_le_iff (by decide)
    have hcount : 2 ^ 24 ≤ n ↔ (2 : ℚ) ^ (128 : ℤ) ≤ n * 2 ^ (binade x - 23) := by
      rw [hb, ← Nat.cast_le (α := ℚ), ← mul_le_mul_iff_left₀ (zpow_pos two_pos (127 - 23)), two_pow_24_units]
      rfl
    have htie : ((2 ^ 24 : ℕ) : ℚ) - 1 / 2 ≤ x * 2 ^ (23 - binade x) ↔ overflowBound ≤ x := by
      rw [hb, ← mul_le_mul_iff_left₀ (zpow_pos two_pos (127 - 23)), mul_assoc, ← zpow_add₀ two_ne_zero, sub_mul,
        two_pow_24_units]
      norm_num [overflowBound]
    rw [← hcount, hunits, htie]
  case inr.inr => -- both are `2^128` or more
    have hpow : (2 : ℚ) ^ (128 : ℤ) ≤ 2 ^ binade x := zpow_le_zpow_right₀ one_le_two (by omega)
    have hn : 2 ^ 23 ≤ n := not_lt.1 (mt hpack.subnormal (by omega))
    have hrounded : (2 : ℚ) ^ binade x ≤ n * 2 ^ (binade x - 23) := by
      rw [← two_pow_23_units]
      gcongr
    have hge := two_pow_binade_le hx (by omega)
    norm_num [overflowBound] at hpow ⊢
    constructor <;> intro _ <;> linarith

end Sys2Proof.Proofs
end

section
/-! What rounding gives (`43_gain_multiply.md` R146): it depends on the real alone, overflows from the threshold on, keeps the
sign, and changes no real that a finite pattern stands for. -/

namespace Sys2Proof.Proofs

open Sys2Proof.Machine

/-! ## The value determines the pattern -/

theorem significand_lt_two_pow_23_iff (p : Word) : significand p < 2 ^ 23 ↔ expField p = 0 := by
  have hfrac := fracField_lt p
  unfold significand
  split <;> omega

/-- A pattern is its sign, its significand and its scale. -/
theorem eq_of_significand_scale {p q : Word} (hsign : signBit p = signBit q) (hsig : significand p = significand q)
    (hscale : scale p = scale q) : p = q := by
  have hzero : expField p = 0 ↔ expField q = 0 := by
    rw [← significand_lt_two_pow_23_iff, ← significand_lt_two_pow_23_iff, hsig]
  have hfields : expField p = expField q ∧ fracField p = fracField q := by
    unfold significand at hsig
    unfold scale at hscale
    by_cases h : expField p = 0
    · have h' := hzero.1 h
      rw [if_pos h, if_pos h'] at hsig
      exact ⟨h.trans h'.symm, hsig⟩
    · have h' := mt hzero.2 h
      rw [if_neg h, if_neg h'] at hsig hscale
      omega
  rw [← mkPattern_fields p, ← mkPattern_fields q, hsign, hfields.1, hfields.2]

/-- A value other than zero lies in the binade of its pattern. -/
theorem binade_abs_val {p : Word} (h : val p ≠ 0) : binade |val p| = scale p + 23 := by
  have hlo := neg_149_le_scale p
  have hupper : |val p| < (2 : ℚ) ^ (scale p + 23 + 1) := by
    rw [← two_pow_24_units, abs_val, add_sub_cancel_right]
    gcongr
    exact significand_lt p
  refine binade_eq (abs_pos.2 h) (by omega) ?_ hupper
  by_cases hexp : expField p = 0
  · obtain ⟨_, hscale⟩ := significand_scale_of_exp_zero hexp
    exact .inl (by omega)
  · refine .inr ?_
    rw [← two_pow_23_units, abs_val, add_sub_cancel_right]
    gcongr
    exact not_lt.1 (mt (significand_lt_two_pow_23_iff p).1 hexp)

/-- Sign and magnitude determine a pattern. -/
theorem eq_of_sign_of_abs_val {p q : Word} (hsign : signBit p = signBit q) (habs : |val p| = |val q|) : p = q := by
  by_cases hp : val p = 0
  · have hq : val q = 0 := abs_eq_zero.1 (habs ▸ abs_eq_zero.2 hp)
    rw [val_eq_zero_iff] at hp hq
    have hexp : ∀ r : Word, significand r = 0 → expField r = 0 := fun r hr =>
      (significand_lt_two_pow_23_iff r).1 (by omega)
    have hscale : scale p = scale q :=
      (significand_scale_of_exp_zero (hexp p hp)).2.trans (significand_scale_of_exp_zero (hexp q hq)).2.symm
    exact eq_of_significand_scale hsign (hp.trans hq.symm) hscale
  · have hq : val q ≠ 0 := fun hq => hp (abs_eq_zero.1 (habs.trans (abs_eq_zero.2 hq)))
    have hscale : scale p = scale q := by
      have := binade_abs_val hp
      rw [habs, binade_abs_val hq] at this
      omega
    have hsig : (significand p : ℚ) = significand q := by
      rw [abs_val, abs_val, hscale] at habs
      exact mul_right_cancel₀ (zpow_ne_zero _ two_ne_zero) habs
    exact eq_of_significand_scale hsign (by exact_mod_cast hsig) hscale

theorem signFactor_injective : Function.Injective signFactor := by
  intro a b h
  cases a <;> cases b
  case false.true => norm_num at h
  case true.false => norm_num at h
  all_goals rfl

/-- A value other than zero has one pattern. -/
theorem eq_of_val {p q : Word} (hval : val p = val q) (hne : val p ≠ 0) : p = q := by
  have habs : |val p| = |val q| := congrArg _ hval
  rw [val_eq_sign_mul_abs p, val_eq_sign_mul_abs q, ← habs] at hval
  exact eq_of_sign_of_abs_val (signFactor_injective (mul_right_cancel₀ (abs_ne_zero.2 hne) hval)) habs

/-! ## The result of rounding -/

theorem rne32_zero (sign : Bool) (e : ℤ) : rne32 sign 0 e = mkPattern sign 0 0 := by
  rw [rne32, if_pos rfl]

section
variable (sign : Bool) {m m' : ℕ} {e e' : ℤ} {x : ℚ}

theorem nonneg_of_eq_mul_two_pow (hx : (m : ℚ) * 2 ^ e = x) : 0 ≤ x := by
  rw [← hx]
  positivity

theorem eq_zero_of_mul_two_pow (hx : (m : ℚ) * 2 ^ e = 0) : m = 0 := by
  simpa [zpow_ne_zero] using hx

/-- Rounding depends on the real alone. -/
theorem rne32_congr (hx : (m : ℚ) * 2 ^ e = x) (hx' : (m' : ℚ) * 2 ^ e' = x) : rne32 sign m e = rne32 sign m' e' := by
  rcases (nonneg_of_eq_mul_two_pow hx).eq_or_lt with rfl | hpos
  · rw [eq_zero_of_mul_two_pow hx, eq_zero_of_mul_two_pow hx', rne32_zero, rne32_zero]
  · obtain ⟨n, hn, hr⟩ := rne32_eq_packUnits sign hx hpos
    obtain ⟨n', hn', hr'⟩ := rne32_eq_packUnits sign hx' hpos
    rw [hr, hr', RoundsTo.unique hn hn']

/-- From the threshold on the result is an infinity (R146). -/
theorem rne32_overflow (hx : (m : ℚ) * 2 ^ e = x) (hge : overflowBound ≤ x) :
    rne32 sign m e = mkPattern sign 255 0 := by
  have hpos : 0 < x := overflowBound_pos.trans_le hge
  obtain ⟨n, hn, hr⟩ := rne32_eq_packUnits sign hx hpos
  rw [hr]
  exact packUnits_overflow sign (hn.packable hpos) ((hn.overflow_iff hpos).2 hge)

/-- Below the threshold the result is finite, of the given sign, and its magnitude is the rounded count of units (R146). -/
theorem rne32_finite (hx : (m : ℚ) * 2 ^ e = x) (hlt : x < overflowBound) :
    isFinite (rne32 sign m e) = true ∧ signBit (rne32 sign m e) = sign ∧
      ∃ n, UnitsOf x n ∧ |val (rne32 sign m e)| = n * 2 ^ (binade x - 23) := by
  rcases (nonneg_of_eq_mul_two_pow hx).eq_or_lt with rfl | hpos
  · obtain ⟨hfin, habs⟩ := mkPattern_subnormal sign (F := 0) (by norm_num)
    rw [eq_zero_of_mul_two_pow hx, rne32_zero]
    refine ⟨hfin, signBit_mkPattern .., 0, ?_, by simpa using habs⟩
    simpa [UnitsOf] using roundsTo_natCast 0
  · obtain ⟨n, hn, hr⟩ := rne32_eq_packUnits sign hx hpos
    have hrounded := not_le.1 (mt (hn.overflow_iff hpos).1 (not_le.2 hlt))
    obtain ⟨hfin, hsign, habs⟩ := packUnits_finite sign (hn.packable hpos) hrounded
    rw [hr]
    exact ⟨hfin, hsign, n, hn, habs⟩

/-- A real of 24 significant bits, none below the least subnormal's, is a count of units of its binade. -/
theorem exists_units_of_representable {M : ℕ} {t : ℤ} (hM : M < 2 ^ 24) (ht : -149 ≤ t) :
    ∃ k : ℕ, (M : ℚ) * 2 ^ t = k * 2 ^ (binade (M * 2 ^ t) - 23) := by
  rcases Nat.eq_zero_or_pos M with rfl | hMpos
  · exact ⟨0, by simp⟩
  have hpos : (0 : ℚ) < M * 2 ^ t := by positivity
  generalize hb : binade (M * 2 ^ t) = b
  have hle : b - 23 ≤ t := by
    by_cases hleast : b = -126
    · omega
    · have hlt : (2 : ℚ) ^ b < 2 ^ (t + 23 + 1) := by
        calc (2 : ℚ) ^ b ≤ M * 2 ^ t := hb ▸ two_pow_binade_le hpos (hb ▸ hleast)
          _ < ((2 ^ 24 : ℕ) : ℚ) * 2 ^ (t + 23 - 23) := by
            rw [add_sub_cancel_right]
            gcongr
          _ = 2 ^ (t + 23 + 1) := two_pow_24_units _
      have := (zpow_lt_zpow_iff_right₀ one_lt_two).1 hlt
      omega
  refine ⟨M * 2 ^ (t - (b - 23)).toNat, ?_⟩
  push_cast
  rw [← zpow_natCast, Int.toNat_of_nonneg (by omega), mul_assoc, ← zpow_add₀ two_ne_zero, sub_add_cancel]

/-- A representable real is not changed. -/
theorem rne32_exact {M : ℕ} {t : ℤ} (hM : M < 2 ^ 24) (ht : -149 ≤ t) (hx : (m : ℚ) * 2 ^ e = M * 2 ^ t)
    (hlt : (M : ℚ) * 2 ^ t < overflowBound) :
    |val (rne32 sign m e)| = M * 2 ^ t := by
  obtain ⟨_, _, n, hn, habs⟩ := rne32_finite sign hx hlt
  obtain ⟨k, hk⟩ := exists_units_of_representable hM ht
  rw [habs, hn.eq_of_exact hk, ← hk]

/-- The magnitude of a finite pattern rounds to the pattern of that sign. -/
theorem rne32_of_abs_val {p : Word} (hp : isFinite p = true) (hx : (m : ℚ) * 2 ^ e = |val p|) :
    rne32 (signBit p) m e = p := by
  have hlt := abs_val_lt_of_finite hp
  obtain ⟨_, hsign, _⟩ := rne32_finite (signBit p) hx hlt
  rw [abs_val] at hx hlt
  have habs := rne32_exact (signBit p) (significand_lt p) (neg_149_le_scale p) hx hlt
  exact eq_of_sign_of_abs_val hsign (habs.trans (abs_val p).symm)

/-- What is not below the least subnormal does not round to zero. -/
theorem rne32_val_ne_zero (hx : (m : ℚ) * 2 ^ e = x) (hge : (2 : ℚ) ^ (-149 : ℤ) ≤ x)
    (hlt : x < overflowBound) : val (rne32 sign m e) ≠ 0 := by
  have hpos : 0 < x := lt_of_lt_of_le (by positivity) hge
  obtain ⟨_, _, n, hn, habs⟩ := rne32_finite sign hx hlt
  have hunit : ((1 : ℕ) : ℚ) * 2 ^ (binade x - 23) ≤ x := by
    rw [Nat.cast_one, one_mul]
    by_cases hleast : binade x = -126
    · rw [hleast]
      exact hge
    · exact (zpow_le_zpow_right₀ one_le_two (by omega)).trans (two_pow_binade_le hpos hleast)
  have hn1 : 1 ≤ n := hn.ge hunit
  rw [← abs_pos, habs]
  positivity

end

end Sys2Proof.Proofs
end

section
/-! CVT_S16_F32 (`43_gain_multiply.md` R147, R148): the sample's leading bit is the hidden bit, and the rest fits the
fraction. -/

namespace Sys2Proof.Proofs

open Sys2Proof.Machine

/-- Sign and magnitude of an integer. -/
theorem signFactor_mul_natAbs (n : ℤ) : signFactor (decide (n < 0)) * n.natAbs = n := by
  rw [Nat.cast_natAbs]
  by_cases h : n < 0
  · simp [h, abs_of_neg h]
  · simp [h, abs_of_nonneg (not_lt.1 h)]

/-- Sign and magnitude of a converted sample (R147). -/
theorem cvtS16F32_fields {s : ℤ} (hlo : -32768 ≤ s) (hhi : s ≤ 32767) :
    isFinite (cvtS16F32 s) = true ∧ signBit (cvtS16F32 s) = decide (s < 0) ∧ |val (cvtS16F32 s)| = s.natAbs := by
  by_cases hs : s = 0
  · subst hs
    obtain ⟨hfin, habs⟩ := mkPattern_subnormal false (F := 0) (by norm_num)
    have hzero : cvtS16F32 0 = mkPattern false 0 0 := rfl
    rw [hzero]
    exact ⟨hfin, rfl, by simpa using habs⟩
  have ha : s.natAbs ≠ 0 := Int.natAbs_ne_zero.2 hs
  have hk : s.natAbs.log2 < 16 := (Nat.log2_lt ha).2 (by omega)
  have hlead : 2 ^ s.natAbs.log2 ≤ s.natAbs := Nat.log2_self_le ha
  have hnext : s.natAbs < 2 ^ (s.natAbs.log2 + 1) := Nat.lt_log2_self
  have hpattern : cvtS16F32 s = mkPattern (decide (s < 0)) (127 + s.natAbs.log2)
      ((s.natAbs - 2 ^ s.natAbs.log2) * 2 ^ (23 - s.natAbs.log2)) := by
    simp only [cvtS16F32, if_neg hs, Nat.shiftLeft_eq]
  generalize s.natAbs.log2 = k at *
  generalize s.natAbs = a at *
  have hone : 2 ^ k * 2 ^ (23 - k) = 2 ^ 23 := by rw [← pow_add, Nat.add_sub_of_le (by omega)]
  have hfrac : (a - 2 ^ k) * 2 ^ (23 - k) < 2 ^ 23 := by
    rw [← hone]
    exact Nat.mul_lt_mul_of_pos_right (by omega) (Nat.two_pow_pos _)
  have hsig : 2 ^ 23 + (a - 2 ^ k) * 2 ^ (23 - k) = a * 2 ^ (23 - k) := by
    rw [← hone, ← Nat.add_mul, Nat.add_sub_of_le hlead]
  obtain ⟨hfin, habs⟩ := mkPattern_normal (decide (s < 0)) (E := 127 + k) (by omega) (by omega) hfrac
  rw [hpattern]
  refine ⟨hfin, signBit_mkPattern .., ?_⟩
  have hcancel : ((23 - k : ℕ) : ℤ) + (((127 + k : ℕ) : ℤ) - 150) = 0 := by omega
  rw [habs, hsig, Nat.cast_mul, Nat.cast_pow, Nat.cast_ofNat, ← zpow_natCast, mul_assoc, ← zpow_add₀ two_ne_zero,
    hcancel, zpow_zero, mul_one]

theorem val_cvtS16F32 {s : ℤ} (hlo : -32768 ≤ s) (hhi : s ≤ 32767) : val (cvtS16F32 s) = s := by
  obtain ⟨_, hsign, habs⟩ := cvtS16F32_fields hlo hhi
  rw [val_eq_sign_mul_abs, hsign, habs, signFactor_mul_natAbs]

/-- Settles O29: equal patterns have equal values, and the value is the sample. -/
theorem sampleConversionIsExact : Obligations.SampleConversionIsExact := by
  intro s hlo hhi
  obtain ⟨hfin, hsign, _⟩ := cvtS16F32_fields hlo hhi
  refine ⟨hfin, val_cvtS16F32 hlo hhi, hsign, fun s' hlo' hhi' heq => ?_⟩
  have hval : (s : ℚ) = s' := by rw [← val_cvtS16F32 hlo hhi, heq, val_cvtS16F32 hlo' hhi']
  exact_mod_cast hval

end Sys2Proof.Proofs
end

section
/-! FMUL32 (`43_gain_multiply.md` R149 to R151): the product of significands and of scales is the exact product of the
magnitudes, and rounding does not see how that real is written. -/

namespace Sys2Proof.Proofs

open Sys2Proof.Machine

/-! ## Finite operands -/

theorem fmul32_of_finite {f g : Word} (hf : isFinite f = true) (hg : isFinite g = true) :
    fmul32 f g = rne32 (signBit f ^^ signBit g) (significand f * significand g) (scale f + scale g) := by
  simp [fmul32, hf, hg]

theorem significand_mul_scale_add (f g : Word) :
    ((significand f * significand g : ℕ) : ℚ) * 2 ^ (scale f + scale g) = |val f| * |val g| := by
  rw [abs_val, abs_val, Nat.cast_mul, zpow_add₀ two_ne_zero, mul_mul_mul_comm]

section
variable {f g : Word} (hf : isFinite f = true) (hg : isFinite g = true)
include hf hg

/-- From the threshold on the product is an infinity (R146, R149). -/
theorem fmul32_overflow (hge : overflowBound ≤ |val f| * |val g|) :
    fmul32 f g = mkPattern (signBit f ^^ signBit g) 255 0 := by
  rw [fmul32_of_finite hf hg]
  exact rne32_overflow _ (significand_mul_scale_add f g) hge

/-- Below the threshold the product is finite, with the exclusive or of the signs. -/
theorem fmul32_finite (hlt : |val f| * |val g| < overflowBound) :
    isFinite (fmul32 f g) = true ∧ signBit (fmul32 f g) = (signBit f ^^ signBit g) := by
  rw [fmul32_of_finite hf hg]
  obtain ⟨hfin, hsign, _⟩ := rne32_finite (signBit f ^^ signBit g) (significand_mul_scale_add f g) hlt
  exact ⟨hfin, hsign⟩

theorem isInf_fmul32_iff : isInf (fmul32 f g) = true ↔ overflowBound ≤ |val f| * |val g| := by
  refine ⟨fun hinf => ?_, fun hge => ?_⟩
  · by_contra hlt
    have hfin := (fmul32_finite hf hg (not_le.1 hlt)).1
    rw [isInf_eq_false_of_isFinite hfin] at hinf
    exact Bool.noConfusion hinf
  · rw [fmul32_overflow hf hg hge]
    exact isInf_mkPattern _

/-- Finite operands give no NaN. -/
theorem isNaN_fmul32 : isNaN (fmul32 f g) = false := by
  rcases lt_or_ge (|val f| * |val g|) overflowBound with hlt | hge
  · exact isNaN_eq_false_of_isFinite (fmul32_finite hf hg hlt).1
  · exact isNaN_eq_false_of_isInf ((isInf_fmul32_iff hf hg).2 hge)

/-- A representable product is exact. -/
theorem fmul32_exact {M : ℕ} {t : ℤ} (hM : M < 2 ^ 24) (ht : -149 ≤ t) (hx : |val f| * |val g| = M * 2 ^ t)
    (hlt : |val f| * |val g| < overflowBound) : val (fmul32 f g) = val f * val g := by
  obtain ⟨_, hsign⟩ := fmul32_finite hf hg hlt
  have habs : |val (fmul32 f g)| = |val f| * |val g| := by
    rw [fmul32_of_finite hf hg, hx]
    exact rne32_exact _ hM ht ((significand_mul_scale_add f g).trans hx) (hx ▸ hlt)
  rw [val_eq_sign_mul_abs, hsign, habs, signFactor_xor, mul_mul_mul_comm, ← val_eq_sign_mul_abs,
    ← val_eq_sign_mul_abs]

/-- A product that is not below the least subnormal does not vanish. -/
theorem fmul32_val_ne_zero (hge : (2 : ℚ) ^ (-149 : ℤ) ≤ |val f| * |val g|)
    (hlt : |val f| * |val g| < overflowBound) : val (fmul32 f g) ≠ 0 := by
  rw [fmul32_of_finite hf hg]
  exact rne32_val_ne_zero _ (significand_mul_scale_add f g) hge hlt

/-- A zero operand gives the zero with the exclusive or of the signs (R151). -/
theorem fmul32_of_val_zero (hzero : val f = 0 ∨ val g = 0) :
    fmul32 f g = mkPattern (signBit f ^^ signBit g) 0 0 := by
  have hsig : significand f * significand g = 0 := by
    rw [Nat.mul_eq_zero, ← val_eq_zero_iff, ← val_eq_zero_iff]
    exact hzero
  rw [fmul32_of_finite hf hg, hsig, rne32_zero]

end

/-- Settles O31: both products round the same real, and a zero one has the significand 0. -/
theorem productIsRoundedOnce : Obligations.ProductIsRoundedOnce := by
  intro f g hf hg
  refine ⟨fun m e hx => ?rounded, fun hzero => ?zero⟩
  case rounded =>
    rw [fmul32_of_finite hf hg]
    exact rne32_congr _ (significand_mul_scale_add f g) hx
  case zero =>
    rw [fmul32_of_val_zero hf hg hzero]
    exact mkPattern_zero _

/-! ## Operands that are not finite -/

theorem fmul32_of_isNaN {f g : Word} (h : isNaN f = true ∨ isNaN g = true) : fmul32 f g = quietNaN := by
  have hfin : (isFinite f && isFinite g) = false := by
    rcases h with h | h <;> simp [isFinite_eq_false_of_isNaN h]
  have hnan : (isNaN f || isNaN g) = true := by simpa using h
  simp [fmul32, hfin, hnan]

/-- What is left of R150 where no operand is a NaN. -/
theorem fmul32_of_isInf {f g : Word} (hf : isNaN f = false) (hg : isNaN g = false)
    (h : isInf f = true ∨ isInf g = true) :
    fmul32 f g =
      if (isFinite f = true ∧ val f = 0) ∨ (isFinite g = true ∧ val g = 0) then quietNaN
      else mkPattern (signBit f ^^ signBit g) 255 0 := by
  have hfin : (isFinite f && isFinite g) = false := by
    rcases h with h | h <;> simp [isFinite_eq_false_of_isInf h]
  simp [fmul32, hfin, hf, hg, val_eq_zero_iff]

/-- Settles O32: a zero operand is finite, so where one operand is an infinity the zero is the other. -/
theorem productOfNonFiniteOperands : Obligations.ProductOfNonFiniteOperands := by
  intro f g
  refine ⟨fmul32_of_isNaN, fun h => ?infinityTimesZero, fun hf hg hfz hgz hinf => ?infinity⟩
  case infinityTimesZero =>
    rcases h with ⟨hinf, hfin, hzero⟩ | ⟨hinf, hfin, hzero⟩
    · rw [fmul32_of_isInf (isNaN_eq_false_of_isInf hinf) (isNaN_eq_false_of_isFinite hfin) (.inl hinf),
        if_pos (.inr ⟨hfin, hzero⟩), quietNaN]
    · rw [fmul32_of_isInf (isNaN_eq_false_of_isFinite hfin) (isNaN_eq_false_of_isInf hinf) (.inr hinf),
        if_pos (.inl ⟨hfin, hzero⟩), quietNaN]
  case infinity =>
    have hnozero : ¬((isFinite f = true ∧ val f = 0) ∨ (isFinite g = true ∧ val g = 0)) := by
      rintro (⟨hfin, hzero⟩ | ⟨hfin, hzero⟩)
      · exact hgz ⟨hinf.resolve_left (by simp [isInf_eq_false_of_isFinite hfin]), hfin, hzero⟩
      · exact hfz ⟨hinf.resolve_right (by simp [isInf_eq_false_of_isFinite hfin]), hfin, hzero⟩
    rw [fmul32_of_isInf hf hg hinf, if_neg hnozero, mkPattern_infinity]

end Sys2Proof.Proofs
end

section
/-! FLOOR32 (`43_gain_multiply.md` R155 to R157): the floor of a finite value is an integer of at most 24 bits, or the value
itself, and so is a binary32 value. -/

namespace Sys2Proof.Proofs

open Sys2Proof.Machine

/-- A value of a scale that is not negative is an integer. -/
theorem val_of_scale_nonneg {p : Word} (h : 0 ≤ scale p) :
    val p = ((signedSignificand p * 2 ^ (scale p).toNat : ℤ) : ℚ) := by
  rw [val, mul_two_pow_of_nonneg _ h]
  push_cast
  rfl

/-- A value of a negative scale is a quotient. -/
theorem val_of_scale_neg {p : Word} (h : scale p < 0) :
    val p = (signedSignificand p : ℚ) / ((2 ^ (-scale p).toNat : ℕ) : ℚ) := by
  rw [val, mul_two_pow_of_neg _ h]
  push_cast
  rfl

/-- The floor the model computes on integers is that of the value (R155). -/
theorem floorVal_eq_floor (p : Word) : floorVal p = ⌊val p⌋ := by
  unfold floorVal
  split
  case isTrue h => rw [val_of_scale_nonneg h, Int.floor_intCast]
  case isFalse h =>
    rw [val_of_scale_neg (not_le.1 h), Rat.floor_intCast_div_natCast]
    push_cast
    rfl

theorem natAbs_signedSignificand (p : Word) : (signedSignificand p).natAbs = significand p := by
  unfold signedSignificand
  split <;> simp

/-- The floor of a finite value is representable (R157). -/
theorem floorVal_representable {p : Word} (hp : isFinite p = true) :
    ∃ (M : ℕ) (t : ℤ), M < 2 ^ 24 ∧ -149 ≤ t ∧ ((floorVal p).natAbs : ℚ) = M * 2 ^ t ∧
      (M : ℚ) * 2 ^ t < overflowBound := by
  have hlt := abs_val_lt_of_finite hp
  rw [abs_val] at hlt
  have hsig := significand_lt p
  by_cases h : 0 ≤ scale p
  case pos => -- an integer already
    refine ⟨significand p, scale p, hsig, neg_149_le_scale p, ?_, hlt⟩
    have hfloor : ((floorVal p : ℤ) : ℚ) = val p := by
      rw [floorVal_eq_floor, val_of_scale_nonneg h, Int.floor_intCast]
    rw [Nat.cast_natAbs, Int.cast_abs, hfloor, abs_val]
  case neg => -- at most the significand
    have hle : (floorVal p).natAbs ≤ significand p := by
      rw [floorVal, if_neg h, ← natAbs_signedSignificand]
      exact Int.natAbs_ediv_le_natAbs _ _
    refine ⟨(floorVal p).natAbs, 0, by omega, by norm_num, by simp, ?_⟩
    have hbound : ((floorVal p).natAbs : ℚ) < 2 ^ 24 := by exact_mod_cast lt_of_le_of_lt hle hsig
    rw [zpow_zero, mul_one]
    exact hbound.trans (by norm_num [overflowBound])

theorem floor32_of_val_zero {p : Word} (h : val p = 0) : floor32 p = p := by
  simp [floor32, (val_eq_zero_iff p).1 h]

/-- The floor of a finite pattern is finite and is the floor of its value: nothing is rounded away (R157). -/
theorem floor32_spec {p : Word} (hp : isFinite p = true) :
    isFinite (floor32 p) = true ∧ val (floor32 p) = (⌊val p⌋ : ℤ) := by
  by_cases hsig : significand p = 0
  · have hzero := (val_eq_zero_iff p).2 hsig
    rw [floor32_of_val_zero hzero, hzero]
    exact ⟨hp, by simp⟩
  rw [← floorVal_eq_floor]
  by_cases hn : floorVal p = 0
  · have hq : floor32 p = 0x00000000#32 := by simp [floor32, hp, hsig, hn]
    rw [hq, hn]
    exact ⟨rfl, (val_eq_zero_iff _).2 rfl⟩
  · have hq : floor32 p = rne32 (decide (floorVal p < 0)) (floorVal p).natAbs 0 := by
      simp [floor32, hp, hsig, hn]
    obtain ⟨M, t, hM, ht, hx, hlt⟩ := floorVal_representable hp
    have hx0 : ((floorVal p).natAbs : ℚ) * 2 ^ (0 : ℤ) = M * 2 ^ t := by rw [zpow_zero, mul_one, hx]
    obtain ⟨hfin, hsign, _⟩ := rne32_finite (decide (floorVal p < 0)) hx0 hlt
    rw [hq]
    refine ⟨hfin, ?_⟩
    rw [val_eq_sign_mul_abs, hsign, rne32_exact _ hM ht hx0 hlt, ← hx, signFactor_mul_natAbs]

/-- An integral pattern is its own floor. -/
theorem floor32_of_integral {p : Word} {n : ℤ} (hp : isFinite p = true) (hn : val p = n) : floor32 p = p := by
  by_cases hzero : val p = 0
  · exact floor32_of_val_zero hzero
  · have hval : val p = val (floor32 p) := by rw [(floor32_spec hp).2, hn, Int.floor_intCast]
    exact (eq_of_val hval hzero).symm

theorem isNaN_floor32 {p : Word} (h : isNaN p = false) : isNaN (floor32 p) = false := by
  cases hfin : isFinite p
  · rw [floor32_of_not_finite p hfin, h]
  · exact isNaN_eq_false_of_isFinite (floor32_spec hfin).1

/-- Settles O33: the finite clause is `floor32_spec`; the sign of a zero is kept because the pattern is. -/
theorem floorIsExact : Obligations.FloorIsExact := by
  intro p
  refine ⟨fun hfin => ?finite, floor32_of_not_finite p⟩
  case finite =>
    obtain ⟨hq, hval⟩ := floor32_spec hfin
    exact ⟨hq, hval, floor32_of_val_zero⟩

end Sys2Proof.Proofs
end

section
/-! The three stages together (`43_gain_multiply.md` R158), for a sample and a finite gain. -/

namespace Sys2Proof.Proofs

open Sys2Proof.Machine

/-- Gain 1.0 and gain −1.0 are converted samples themselves. -/
theorem one_eq_cvtS16F32 : 0x3F800000#32 = cvtS16F32 1 := rfl

theorem neg_one_eq_cvtS16F32 : 0xBF800000#32 = cvtS16F32 (-1) := rfl

section
variable {s : ℤ} {g : Word} (hlo : -32768 ≤ s) (hhi : s ≤ 32767)
include hlo hhi

theorem abs_val_cvtS16F32 : |val (cvtS16F32 s)| = |(s : ℚ)| := by
  rw [val_cvtS16F32 hlo hhi]

/-- R158 (a): a factor of 1 keeps sign and magnitude, hence the pattern, which is integral. -/
theorem stages_of_gain_one :
    fmul32 (cvtS16F32 s) 0x3F800000#32 = cvtS16F32 s ∧ floor32 (cvtS16F32 s) = cvtS16F32 s := by
  obtain ⟨hf, _, _⟩ := cvtS16F32_fields hlo hhi
  have hone : |val 0x3F800000#32| = 1 := by
    rw [one_eq_cvtS16F32, val_cvtS16F32 (by decide) (by decide)]
    simp
  refine ⟨?_, floor32_of_integral hf (val_cvtS16F32 hlo hhi)⟩
  have hx : |val (cvtS16F32 s)| * |val 0x3F800000#32| = |val (cvtS16F32 s)| := by rw [hone, mul_one]
  have hsign : (signBit (cvtS16F32 s) ^^ signBit 0x3F800000#32) = signBit (cvtS16F32 s) := Bool.xor_false _
  rw [fmul32_of_finite hf rfl, hsign]
  exact rne32_of_abs_val hf ((significand_mul_scale_add _ _).trans hx)

/-- R158 (f): the sample has 16 significant bits, and a power of two moves them alone. -/
theorem product_of_power_of_two (hg : isFinite g = true) {k : ℤ} (hk : |val g| = (2 : ℚ) ^ k)
    (hlt : |(s : ℚ)| * |val g| < overflowBound)
    (hge : (2 : ℚ) ^ (-126 : ℤ) ≤ |(s : ℚ)| * |val g|) :
    isFinite (fmul32 (cvtS16F32 s) g) = true ∧ val (fmul32 (cvtS16F32 s) g) = s * val g := by
  obtain ⟨hf, _, _⟩ := cvtS16F32_fields hlo hhi
  have habs : (s.natAbs : ℚ) = |(s : ℚ)| := by rw [Nat.cast_natAbs, Int.cast_abs]
  have hk149 : -149 ≤ k := by
    have hsample : |(s : ℚ)| ≤ 2 ^ (15 : ℤ) := by
      rw [← habs]
      exact_mod_cast (by omega : s.natAbs ≤ 2 ^ 15)
    have hpow : (2 : ℚ) ^ (-126 : ℤ) ≤ 2 ^ (15 + k) := by
      rw [zpow_add₀ two_ne_zero]
      refine hge.trans ?_
      rw [hk]
      gcongr
    have := (zpow_le_zpow_iff_right₀ one_lt_two).1 hpow
    omega
  rw [← abs_val_cvtS16F32 hlo hhi] at hlt
  refine ⟨(fmul32_finite hf hg hlt).1, ?_⟩
  have hx : |val (cvtS16F32 s)| * |val g| = s.natAbs * 2 ^ k := by rw [abs_val_cvtS16F32 hlo hhi, hk, habs]
  rw [fmul32_exact hf hg (by omega) hk149 hx hlt, val_cvtS16F32 hlo hhi]

/-- R158 (g): a factor of −1 negates the value, which stays an integer. -/
theorem stages_of_gain_neg_one : val (floor32 (fmul32 (cvtS16F32 s) 0xBF800000#32)) = -(s : ℚ) := by
  obtain ⟨hf, _, _⟩ := cvtS16F32_fields hlo hhi
  have hval : val 0xBF800000#32 = -1 := by
    rw [neg_one_eq_cvtS16F32, val_cvtS16F32 (by decide) (by decide)]
    simp
  have hmag : |val (cvtS16F32 s)| * |val 0xBF800000#32| = |val (cvtS16F32 s)| := by simp [hval]
  have hlt := hmag.trans_lt (abs_val_lt_of_finite hf)
  have hprod : val (fmul32 (cvtS16F32 s) 0xBF800000#32) = ((-s : ℤ) : ℚ) := by
    rw [fmul32_exact hf rfl (significand_lt _) (neg_149_le_scale _) (hmag.trans (abs_val _)) hlt,
      val_cvtS16F32 hlo hhi, hval]
    simp
  rw [(floor32_spec (fmul32_finite hf rfl hlt).1).2, hprod, Int.floor_intCast]
  simp

end

/-- Settles O38: the product is a product of finite operands, and the sample's value is the sample. -/
theorem stageFactsOfASampleAndAGain : Obligations.StageFactsOfASampleAndAGain := by
  intro s g hlo hhi hg f p q
  obtain ⟨hf, _, _⟩ := cvtS16F32_fields hlo hhi
  have hinf : isInf p = true ↔ overflowBound ≤ |(s : ℚ)| * |val g| := by
    rw [← abs_val_cvtS16F32 hlo hhi]
    exact isInf_fmul32_iff hf hg
  have hnan : isNaN p = false := isNaN_fmul32 hf hg
  refine ⟨fun hone => ?unitGain, fun hzero => ?zeroGain, fun hs hne hfin => ?noVanishing, hinf, fun h => ?needsTwo,
    ⟨hnan, isNaN_floor32 hnan⟩, fun k hk hlt hge => product_of_power_of_two hlo hhi hg hk hlt hge, fun hneg => ?negation⟩
  case unitGain =>
    subst hone
    obtain ⟨hp, hq⟩ := stages_of_gain_one hlo hhi
    have hq' : q = f := (congrArg floor32 hp).trans hq
    exact ⟨hp, hq', by rw [hq', val_cvtS16F32 hlo hhi]⟩
  case zeroGain =>
    have hp : p = mkPattern (signBit f ^^ signBit g) 0 0 := fmul32_of_val_zero hf hg (.inr hzero)
    obtain ⟨hfin, habs⟩ := mkPattern_subnormal (signBit f ^^ signBit g) (F := 0) (by norm_num)
    rw [← hp] at hfin habs
    have hval : val p = 0 := by simpa using habs
    have hq : q = p := floor32_of_val_zero hval
    rw [hq]
    exact ⟨hfin, hval, hfin, hval⟩
  case noVanishing =>
    have hlt : |(s : ℚ)| * |val g| < overflowBound := by
      rw [← not_le, ← hinf, isInf_eq_false_of_isFinite hfin]
      exact Bool.false_ne_true
    have hs1 : (1 : ℚ) ≤ |(s : ℚ)| := by exact_mod_cast Int.one_le_abs hs
    have hge : (2 : ℚ) ^ (-149 : ℤ) ≤ |(s : ℚ)| * |val g| :=
      (le_abs_val hne).trans (le_mul_of_one_le_left (abs_nonneg _) hs1)
    rw [← abs_val_cvtS16F32 hlo hhi] at hge hlt
    exact fmul32_val_ne_zero hf hg hge hlt
  case needsTwo =>
    by_contra hsmall
    have hs1 : |(s : ℚ)| ≤ 1 := by exact_mod_cast Int.lt_add_one_iff.1 (not_le.1 hsmall)
    have hle : |(s : ℚ)| * |val g| ≤ |val g| := mul_le_of_le_one_left (abs_nonneg _) hs1
    exact absurd (hinf.1 h) (not_le.2 (hle.trans_lt (abs_val_lt_of_finite hg)))
  case negation =>
    subst hneg
    exact stages_of_gain_neg_one hlo hhi

end Sys2Proof.Proofs
end

section
/-! CVT_F32_S16W (`44_narrow_pack.md` R165 to R171): an integral value narrows to its residue, which its magnitude and the sign
bit give, and which is 0 once the scale reaches 16. -/

namespace Sys2Proof.Proofs

open Sys2Proof.Machine

/-! ## The residue modulo 65536 -/

theorem wrap16_toNat (n : ℤ) : ((wrap16 n).toNat : ℤ) = n % 65536 := by
  rw [wrap16, BitVec.toNat_ofInt, Int.toNat_of_nonneg (Int.emod_nonneg _ (by decide))]
  rfl

theorem wrap16_eq_zero_of_dvd {n : ℤ} (h : 65536 ∣ n) : wrap16 n = 0x0000#16 := by
  refine BitVec.eq_of_toNat_eq ?_
  have hmod : ((wrap16 n).toNat : ℤ) = 0 := (wrap16_toNat n).trans (Int.emod_eq_zero_of_dvd h)
  exact_mod_cast hmod

@[simp] theorem wrap16_natCast (a : ℕ) : wrap16 a = BitVec.ofNat 16 a :=
  BitVec.ofInt_natCast 16 a

/-- A negative value narrows to the two's complement of its magnitude's residue. -/
theorem wrap16_neg_natCast (a : ℕ) : wrap16 (-(a : ℤ)) = 0x0000#16 - BitVec.ofNat 16 a := by
  rw [wrap16, BitVec.ofInt_neg, BitVec.ofInt_natCast, BitVec.zero_sub]

/-! ## Integral values -/

section
variable {q : Word} {n : ℤ} (hn : val q = n)
include hn

/-- The magnitude is the significand at its scale (R145). -/
theorem natAbs_of_integral : (n.natAbs : ℚ) = significand q * 2 ^ scale q := by
  rw [Nat.cast_natAbs, Int.cast_abs, ← hn, abs_val]

/-- The sign is that of the pattern (R145). -/
theorem eq_signed_natAbs_of_integral : n = if signBit q = true then -(n.natAbs : ℤ) else n.natAbs := by
  have hsigned : (n : ℚ) = signFactor (signBit q) * n.natAbs := by
    rw [natAbs_of_integral hn, ← abs_val, ← val_eq_sign_mul_abs, hn]
  have hcast : signFactor (signBit q) * n.natAbs =
      ((if signBit q = true then -(n.natAbs : ℤ) else n.natAbs : ℤ) : ℚ) := by
    cases signBit q <;> simp
  exact_mod_cast hsigned.trans hcast

theorem wrap16_of_integral :
    wrap16 n = if signBit q = true then 0x0000#16 - BitVec.ofNat 16 n.natAbs else BitVec.ofNat 16 n.natAbs := by
  refine (congrArg wrap16 (eq_signed_natAbs_of_integral hn)).trans ?_
  rw [apply_ite wrap16, wrap16_neg_natCast, wrap16_natCast]

/-- At a scale that is not negative the magnitude is the significand shifted left. -/
theorem natAbs_of_scale_nonneg (h : 0 ≤ scale q) : n.natAbs = significand q * 2 ^ (scale q).toNat := by
  have hmag := natAbs_of_integral hn
  rw [mul_two_pow_of_nonneg _ h] at hmag
  exact_mod_cast hmag

/-- At a negative scale the significand is the magnitude shifted left: no bit of it is shifted out. -/
theorem significand_of_scale_neg (h : scale q < 0) : significand q = n.natAbs * 2 ^ (-scale q).toNat := by
  have hmag := natAbs_of_integral hn
  rw [mul_two_pow_of_neg _ h, eq_div_iff (by positivity)] at hmag
  exact_mod_cast hmag.symm

/-- A significand has 24 bits, so at a scale of −24 or less no bit lies at or above the point. -/
theorem eq_zero_of_scale_le (h : scale q ≤ -24) : n = 0 := by
  by_contra hne
  have hsig := significand_of_scale_neg hn (by omega)
  have hpow : 2 ^ 24 ≤ 2 ^ (-scale q).toNat := Nat.pow_le_pow_right two_pos (by omega)
  have hle : 2 ^ (-scale q).toNat ≤ significand q := by
    rw [hsig]
    exact Nat.le_mul_of_pos_left _ (Int.natAbs_pos.2 hne)
  have hlt := significand_lt q
  omega

/-- From scale 16 on every bit of the significand lies above the 16 that are kept (R169). -/
theorem dvd_natAbs_of_scale_ge (h : 16 ≤ scale q) : 65536 ∣ n.natAbs := by
  rw [natAbs_of_scale_nonneg hn (by omega)]
  exact Dvd.dvd.mul_left (pow_dvd_pow 2 (by omega : 16 ≤ (scale q).toNat)) _

/-- A value of `2^39` or more needs a scale of 16 or more (R169). -/
theorem scale_ge_of_large (h : (2 : ℤ) ^ 39 ≤ |n|) : 16 ≤ scale q := by
  have hlarge : (2 : ℚ) ^ (15 + 24 : ℤ) ≤ |val q| := by
    rw [hn]
    exact_mod_cast h
  have hlt : |val q| < 2 ^ (scale q + 24) := by
    rw [abs_val, zpow_add₀ two_ne_zero, mul_comm]
    gcongr
    exact_mod_cast significand_lt q
  have := (zpow_lt_zpow_iff_right₀ one_lt_two).1 (hlarge.trans_lt hlt)
  omega

/-- An integral value narrows to its residue (R165). -/
theorem cvtF32S16w_of_integral (hq : isFinite q = true) : cvtF32S16w q = wrap16 n := by
  rw [cvtF32S16w, if_pos hq, floorVal_eq_floor, hn, Int.floor_intCast]

end

/-- Settles O36: an infinity and a NaN are the patterns that are not finite. -/
theorem infinitiesAndNaNsNarrowToZero : Obligations.InfinitiesAndNaNsNarrowToZero := by
  rintro q (hinf | hnan)
  · exact cvtF32S16w_of_not_finite q (isFinite_eq_false_of_isInf hinf)
  · exact cvtF32S16w_of_not_finite q (isFinite_eq_false_of_isNaN hnan)

theorem val_below_two_pow_38 : val 0x527FFFFF#32 = (2 : ℚ) ^ (38 : ℕ) - 2 ^ (14 : ℕ) := by
  rw [val, show signedSignificand 0x527FFFFF#32 = 2 ^ 24 - 1 by decide, show scale 0x527FFFFF#32 = 14 by decide]
  norm_num

theorem val_below_two_pow_39 : val 0x52FFFFFF#32 = (2 : ℚ) ^ (39 : ℕ) - 2 ^ (15 : ℕ) := by
  rw [val, show signedSignificand 0x52FFFFFF#32 = 2 ^ 24 - 1 by decide, show scale 0x52FFFFFF#32 = 15 by decide]
  norm_num

/-- Settles O35: the result is the value's residue, the sample itself in range and 0 from scale 16 on. -/
theorem narrowingIsModulo65536 : Obligations.NarrowingIsModulo65536 := by
  refine ⟨fun q n hq hn => ?integral, ⟨val_below_two_pow_38, by decide⟩, ⟨val_below_two_pow_39, by decide⟩⟩
  case integral =>
    rw [cvtF32S16w_of_integral hn hq]
    refine ⟨wrap16_toNat n, wrap16_toInt_of_sample, fun h => wrap16_eq_zero_of_dvd ?_⟩
    exact Int.natCast_dvd.2 (dvd_natAbs_of_scale_ge hn (scale_ge_of_large hn h))

/-! ## The narrowing at bit level (R168) -/

theorem cvtF32S16wBits_of_not_finite {q : Word} (h : isFinite q = false) : cvtF32S16wBits q = 0x0000#16 := by
  simp [cvtF32S16wBits, (isFinite_eq_false_iff q).1 h]

theorem cvtF32S16wBits_of_exp_lt {q : Word} (h : expField q < 127) : cvtF32S16wBits q = 0x0000#16 := by
  simp [cvtF32S16wBits, h]

/-- The 16 bits that the shifts of R168 leave of the significand. -/
def shiftedMagnitude (q : Word) : Half :=
  if 166 ≤ expField q then 0x0000#16
  else if 150 ≤ expField q then BitVec.ofNat 16 ((2 ^ 23 + fracField q) <<< (expField q - 150))
  else BitVec.ofNat 16 ((2 ^ 23 + fracField q) >>> (150 - expField q))

theorem cvtF32S16wBits_of_exp_ge {q : Word} (hq : isFinite q = true) (h : 127 ≤ expField q) :
    cvtF32S16wBits q = if signBit q = true then 0x0000#16 - shiftedMagnitude q else shiftedMagnitude q := by
  rw [cvtF32S16wBits, if_neg ((isFinite_iff q).1 hq), if_neg (not_lt.2 h)]
  rfl

/-- The shifts leave the residue of an integral magnitude. -/
theorem shiftedMagnitude_of_integral {q : Word} {n : ℤ} (hn : val q = n) (h : 127 ≤ expField q) :
    shiftedMagnitude q = BitVec.ofNat 16 n.natAbs := by
  obtain ⟨hsig, hscale⟩ := significand_scale_of_exp_ne_zero (p := q) (by omega)
  rw [shiftedMagnitude, ← hsig]
  split_ifs with hhigh hmid
  case pos => -- every bit is shifted out
    have hdvd : 65536 ∣ n.natAbs := dvd_natAbs_of_scale_ge hn (by omega)
    rw [← wrap16_natCast n.natAbs, wrap16_eq_zero_of_dvd (Int.natCast_dvd_natCast.2 hdvd)]
  case pos => -- a shift to the left
    have hshift : (scale q).toNat = expField q - 150 := by omega
    rw [natAbs_of_scale_nonneg hn (by omega), hshift, Nat.shiftLeft_eq]
  case neg => -- a shift to the right, which drops zeros alone
    have hshift : (-scale q).toNat = 150 - expField q := by omega
    rw [significand_of_scale_neg hn (by omega), hshift, Nat.shiftRight_eq_div_pow,
      Nat.mul_div_cancel _ (Nat.two_pow_pos _)]

/-- Settles O37: a value below 1 in magnitude is 0, and from 1 on the shifts give the magnitude's residue. -/
theorem narrowingByValueIsNarrowingByBits : Obligations.NarrowingByValueIsNarrowingByBits := by
  intro q h
  cases hq : isFinite q
  case false => rw [cvtF32S16w_of_not_finite q hq, cvtF32S16wBits_of_not_finite hq]
  case true =>
    obtain ⟨n, hn⟩ := h.resolve_left (by simp [hq])
    rw [cvtF32S16w_of_integral hn hq]
    rcases lt_or_ge (expField q) 127 with hlow | hhigh
    · have hscale : scale q ≤ -24 := by
        unfold scale
        split <;> omega
      rw [cvtF32S16wBits_of_exp_lt hlow, eq_zero_of_scale_le hn hscale]
      rfl
    · rw [cvtF32S16wBits_of_exp_ge hq hhigh, shiftedMagnitude_of_integral hn hhigh,
        wrap16_of_integral hn]

end Sys2Proof.Proofs
end

section
/-! The window function with an integral gain (`44_narrow_pack.md` R176 to R180): a product of 24 bits is exact and integral, so
it passes FLOOR32 as it is and narrows to its residue. -/

namespace Sys2Proof.Proofs

open Sys2Proof.Machine

/-- A window's sample is one of 16 bits (R140). -/
theorem unpack16le_range (b0 b1 : Byte) : -32768 ≤ unpack16le b0 b1 ∧ unpack16le b0 b1 ≤ 32767 :=
  ⟨BitVec.le_toInt _, Int.le_of_lt_add_one BitVec.toInt_lt⟩

/-- An integral product of 24 bits is not rounded. -/
theorem fmul32_of_integral {s k : ℤ} {g : Word} (hlo : -32768 ≤ s) (hhi : s ≤ 32767) (hg : isFinite g = true)
    (hk : val g = k) (hbits : (s * k).natAbs < 2 ^ 24) :
    isFinite (fmul32 (cvtS16F32 s) g) = true ∧ val (fmul32 (cvtS16F32 s) g) = ((s * k : ℤ) : ℚ) := by
  obtain ⟨hf, _, _⟩ := cvtS16F32_fields hlo hhi
  have hx : |val (cvtS16F32 s)| * |val g| = (s * k).natAbs * 2 ^ (0 : ℤ) := by
    rw [val_cvtS16F32 hlo hhi, hk, ← abs_mul, Nat.cast_natAbs, zpow_zero, mul_one]
    push_cast
    rfl
  have hlt : |val (cvtS16F32 s)| * |val g| < overflowBound := by
    have hcast : ((s * k).natAbs : ℚ) < 2 ^ 24 := by exact_mod_cast hbits
    rw [hx, zpow_zero, mul_one]
    exact hcast.trans (by norm_num [overflowBound])
  refine ⟨(fmul32_finite hf hg hlt).1, ?_⟩
  rw [fmul32_exact hf hg hbits (by decide) hx hlt, val_cvtS16F32 hlo hhi, hk, Int.cast_mul]

/-- An integral gain multiplies the sample modulo 65536, as long as the product has 24 bits. -/
theorem windowResult_of_integral_gain {b0 b1 : Byte} {g : Word} {k : ℤ} (hg : isFinite g = true) (hk : val g = k)
    (hbits : (unpack16le b0 b1 * k).natAbs < 2 ^ 24) : windowResult b0 b1 g = wrap16 (unpack16le b0 b1 * k) := by
  obtain ⟨hlo, hhi⟩ := unpack16le_range b0 b1
  obtain ⟨hp, hval⟩ := fmul32_of_integral hlo hhi hg hk hbits
  rw [windowResult, floor32_of_integral hp hval, cvtF32S16w_of_integral hval hp]

theorem windowResult_of_gain_one (b0 b1 : Byte) : windowResult b0 b1 0x3F800000#32 = joinBytes b0 b1 := by
  have hrange := unpack16le_range b0 b1
  have hone : val 0x3F800000#32 = ((1 : ℤ) : ℚ) := by
    rw [one_eq_cvtS16F32, val_cvtS16F32 (by decide) (by decide)]
  rw [windowResult_of_integral_gain rfl hone (by omega), mul_one, wrap16_unpack16le]

theorem windowResult_of_gain_zero (b0 b1 : Byte) {g : Word} (hg : isFinite g = true) (hzero : val g = 0) :
    windowResult b0 b1 g = 0x0000#16 := by
  have hk : val g = ((0 : ℤ) : ℚ) := by rw [hzero, Int.cast_zero]
  rw [windowResult_of_integral_gain hg hk (by simp), mul_zero]
  rfl

theorem windowResult_of_gain_neg_one (b0 b1 : Byte) :
    windowResult b0 b1 0xBF800000#32 = wrap16 (-unpack16le b0 b1) := by
  have hrange := unpack16le_range b0 b1
  have hneg : val 0xBF800000#32 = ((-1 : ℤ) : ℚ) := by
    rw [neg_one_eq_cvtS16F32, val_cvtS16F32 (by decide) (by decide)]
  rw [windowResult_of_integral_gain rfl hneg (by omega), mul_neg_one]

/-- Settles O40: the four gains are integral, and the negation of a sample is one but for −32768. -/
theorem unitZeroAndNegatingGains : Obligations.UnitZeroAndNegatingGains := by
  intro b0 b1
  obtain ⟨hlo, hhi⟩ := unpack16le_range b0 b1
  have hzero : ∀ g : Word, isFinite g = true → significand g = 0 → window b0 b1 g = (0x00#8, 0x00#8) := by
    intro g hg hsig
    rw [window, windowResult_of_gain_zero b0 b1 hg ((val_eq_zero_iff g).2 hsig)]
    rfl
  refine ⟨?one, hzero _ rfl rfl, hzero _ rfl rfl, fun hne => ?negated, fun hmin => ?least⟩
  case one => rw [window, windowResult_of_gain_one, pack16le_joinBytes]
  case negated =>
    rw [windowResult_of_gain_neg_one]
    exact wrap16_toInt_of_sample (by omega) (by omega)
  case least =>
    rw [windowResult_of_gain_neg_one, hmin]
    rfl

end Sys2Proof.Proofs
end

section
/-! The values that FLOOR32 reaches in the window function (`44_narrow_pack.md` R182). Rounding does not cross a finite pattern,
so a gain of magnitude at most 1 does not enlarge the sample. -/

namespace Sys2Proof.Proofs

open Sys2Proof.Machine

/-! ## Rounding does not cross a representable bound -/

theorem binade_mono {x y : ℚ} (hx : 0 < x) (h : x ≤ y) : binade x ≤ binade y :=
  max_le_max_right _ (Int.log_mono_right hx h)

/-- A representable bound of `x` is a count of units of the binade of `x` too, hence bounds the rounded count. -/
theorem UnitsOf.mul_le_representable {x : ℚ} {n M : ℕ} {t : ℤ} (h : UnitsOf x n) (hx : 0 < x) (hM : M < 2 ^ 24)
    (ht : -149 ≤ t) (hle : x ≤ M * 2 ^ t) : (n : ℚ) * 2 ^ (binade x - 23) ≤ M * 2 ^ t := by
  obtain ⟨k, hk⟩ := exists_units_of_representable hM ht
  have hbinade := binade_mono hx hle
  generalize binade (M * 2 ^ t) = b at hk hbinade
  have hunits : (M : ℚ) * 2 ^ t = (k * 2 ^ (b - binade x).toNat : ℕ) * 2 ^ (binade x - 23) := by
    rw [hk, Nat.cast_mul, Nat.cast_pow, Nat.cast_ofNat, ← mul_two_pow_of_nonneg _ (by omega : 0 ≤ b - binade x),
      mul_assoc, ← zpow_add₀ two_ne_zero]
    congr 2
    ring
  rw [hunits] at hle ⊢
  gcongr
  exact h.le hle

/-- A real that a finite pattern bounds rounds to a pattern that it bounds. -/
theorem abs_val_rne32_le (sign : Bool) {m : ℕ} {e : ℤ} {x : ℚ} {r : Word} (hr : isFinite r = true)
    (hx : (m : ℚ) * 2 ^ e = x) (hle : x ≤ |val r|) : |val (rne32 sign m e)| ≤ |val r| := by
  have hlt := hle.trans_lt (abs_val_lt_of_finite hr)
  rcases (nonneg_of_eq_mul_two_pow hx).eq_or_lt with rfl | hpos
  · rw [rne32_exact sign (M := 0) (t := 0) (by decide) (by decide) (by simpa using hx) (by simpa using hlt)]
    simp
  · obtain ⟨_, _, n, hn, habs⟩ := rne32_finite sign hx hlt
    rw [abs_val r] at hle ⊢
    rw [habs]
    exact hn.mul_le_representable hpos (significand_lt r) (neg_149_le_scale r) hle

/-! ## Bounded magnitudes -/

/-- The greatest finite value (R145). -/
theorem abs_val_le_of_finite {p : Word} (h : isFinite p = true) : |val p| ≤ (2 ^ 24 - 1) * 2 ^ 104 := by
  have hsig : (significand p : ℚ) ≤ 2 ^ 24 - 1 := by
    rw [le_sub_iff_add_le]
    exact_mod_cast significand_lt p
  have hscale : (2 : ℚ) ^ scale p ≤ 2 ^ (104 : ℤ) := zpow_le_zpow_right₀ one_le_two (scale_le_of_finite h)
  calc |val p| = significand p * (2 : ℚ) ^ scale p := abs_val p
    _ ≤ (2 ^ 24 - 1) * 2 ^ (104 : ℤ) := by gcongr
    _ = (2 ^ 24 - 1) * 2 ^ 104 := by norm_num

/-- FLOOR32 of what is no NaN is an infinity or an integer of bounded magnitude. -/
theorem floor32_reaches {p : Word} (hnan : isNaN p = false) :
    isInf (floor32 p) = true ∨
      (isFinite (floor32 p) = true ∧ ∃ n : ℤ, val (floor32 p) = n ∧ |n| ≤ (2 ^ 24 - 1) * 2 ^ 104) := by
  rcases finite_or_inf_or_nan p with hfin | hinf | hnan'
  · obtain ⟨hq, hval⟩ := floor32_spec hfin
    have hbound := abs_val_le_of_finite hq
    rw [hval] at hbound
    exact .inr ⟨hq, _, hval, by exact_mod_cast hbound⟩
  · rw [floor32_of_not_finite p (isFinite_eq_false_of_isInf hinf)]
    exact .inl hinf
  · rw [hnan] at hnan'
    exact absurd hnan' Bool.false_ne_true

/-! ## Gains of magnitude at most 1 -/

/-- A gain of magnitude at most 1 does not enlarge the other factor. -/
theorem fmul32_of_gain_le_one {f g : Word} (hf : isFinite f = true) (hg : isFinite g = true) (hle : |val g| ≤ 1) :
    isFinite (fmul32 f g) = true ∧ |val (fmul32 f g)| ≤ |val f| := by
  have hprod : |val f| * |val g| ≤ |val f| := mul_le_of_le_one_right (abs_nonneg _) hle
  refine ⟨(fmul32_finite hf hg (hprod.trans_lt (abs_val_lt_of_finite hf))).1, ?_⟩
  rw [fmul32_of_finite hf hg]
  exact abs_val_rne32_le _ hf (significand_mul_scale_add f g) hprod

/-- The sample −32768 moves the significand of the gain alone: the product is exact. -/
theorem fmul32_of_least_sample {g : Word} (hg : isFinite g = true) (hle : |val g| ≤ 1) :
    val (fmul32 (cvtS16F32 (-32768)) g) = -32768 * val g := by
  obtain ⟨hf, _, _⟩ := cvtS16F32_fields (s := -32768) (by decide) (by decide)
  have hval : val (cvtS16F32 (-32768)) = -32768 := by
    rw [val_cvtS16F32 (by decide) (by decide)]
    norm_num
  have hscale := neg_149_le_scale g
  have hx : |val (cvtS16F32 (-32768))| * |val g| = significand g * 2 ^ (scale g + 15) := by
    rw [hval, abs_val g, zpow_add₀ two_ne_zero]
    norm_num
    ring
  have hlt : |val (cvtS16F32 (-32768))| * |val g| < overflowBound :=
    (mul_le_of_le_one_right (abs_nonneg _) hle).trans_lt (abs_val_lt_of_finite hf)
  rw [fmul32_exact hf hg (significand_lt g) (by omega) hx hlt, hval]

/-- Only the sample −32768 reaches 32768, and only with gain −1 (R182). -/
theorem fmul32_eq_32768_iff {s : ℤ} {g : Word} (hlo : -32768 ≤ s) (hhi : s ≤ 32767) (hg : isFinite g = true)
    (hle : |val g| ≤ 1) : val (fmul32 (cvtS16F32 s) g) = 32768 ↔ s = -32768 ∧ val g = -1 := by
  by_cases hs : s = -32768
  case pos =>
    subst hs
    rw [fmul32_of_least_sample hg hle]
    constructor
    · intro h
      exact ⟨rfl, by linarith⟩
    · rintro ⟨_, h⟩
      rw [h]
      norm_num
  case neg =>
    refine iff_of_false (fun h => ?_) (fun h => hs h.1)
    obtain ⟨hf, _, _⟩ := cvtS16F32_fields hlo hhi
    have hbound := (fmul32_of_gain_le_one hf hg hle).2
    rw [h, abs_val_cvtS16F32 hlo hhi] at hbound
    have hsample : |(s : ℚ)| ≤ 32767 := by exact_mod_cast abs_le.2 ⟨by omega, hhi⟩
    norm_num at hbound
    linarith

/-- Settles O41: finite operands give no NaN, and gain 1.0 gives every pattern back. -/
theorem reachableWindowValues : Obligations.ReachableWindowValues := by
  refine ⟨fun s g hlo hhi hg => ?bounded, fun r => ?reached⟩
  case bounded =>
    obtain ⟨hf, _, _⟩ := cvtS16F32_fields hlo hhi
    refine ⟨floor32_reaches (isNaN_fmul32 hf hg), fun hle => ?_⟩
    obtain ⟨hp, hbound⟩ := fmul32_of_gain_le_one hf hg hle
    have hsample : |(s : ℚ)| ≤ 32768 := by exact_mod_cast abs_le.2 ⟨hlo, by omega⟩
    obtain ⟨hleast, hgreatest⟩ := abs_le.1 (hbound.trans ((abs_val_cvtS16F32 hlo hhi).trans_le hsample))
    exact ⟨hp, hleast, hgreatest, fmul32_eq_32768_iff hlo hhi hg hle⟩
  case reached =>
    exact ⟨(pack16le r).1, (pack16le r).2, by rw [windowResult_of_gain_one, joinBytes_pack16le]⟩

end Sys2Proof.Proofs
end

section
/-! ILLEGAL_CMD (`60_exceptions.md` R187): a word of the CMD row other than the encoding of APPLY carries a reserved command
word, and the dispatcher refuses that one in an idle state, after the record is cleared (R122, R190). -/

namespace Sys2Proof.Proofs

open Sys2Proof.Machine

/-- In the row of CMD the data alone tell the words apart: one word carries the command word of APPLY (R80). -/
theorem twWdata_eq_applyWord_iff {tw : TransWord} (h : tw &&& 0x1F00000000#37 = 0x1400000000#37) :
    twWdata tw = applyWord ↔ tw = 0x1400000001#37 := by
  constructor
  · intro hw
    obtain ⟨hwe, hrn⟩ := fields_of_fieldMask (we := true) (rn := 4#4) h
    calc tw = mkTransWord (twWe tw) (twRn tw) (twWdata tw) := (mkTransWord_fields tw).symm
      _ = mkTransWord true 4#4 applyWord := by rw [hwe, hrn, hw]
      _ = 0x1400000001#37 := rfl
  · rintro rfl
    rfl

theorem exec_wrCmdReserved_of_idle {s : State} (hidle : s.busy = false) {w : Word} (hw : w ≠ applyWord) :
    exec (.wrCmdReserved w) s = .next (raiseError .illegalCmd (clearRecord s)) := by
  rw [exec_wrCmdReserved, writeCmd_of_idle hidle, if_neg hw]

/-- Settles O18: the data are a reserved command word, so the decoder takes the reserved row and the dispatcher raises
ILLEGAL_CMD over the cleared record, which is the state of the statement. -/
theorem reservedCommandWordIsIllegal : Obligations.ReservedCommandWordIsIllegal := by
  intro tw s h hne hidle
  have hw : twWdata tw ≠ applyWord := mt (twWdata_eq_applyWord_iff h).1 hne
  have hdecode : decode tw = .wrCmdReserved (twWdata tw) :=
    (decode_of_cmdRow h).resolve_left fun ⟨happly, _⟩ => hw happly
  exact ⟨hdecode, exec_wrCmdReserved_of_idle hidle hw⟩

end Sys2Proof.Proofs
end

section
/-! Transaction words (`30_encoding.md` R76, R77, R86, R87): encoding and decoding are inverse, the host's five bytes of a word
give the word back, and the assembler's lines are words made of fields. -/

namespace Sys2Proof.Proofs

open Sys2Proof.Machine

/-! ## Decoding what was encoded -/

/-- A write decodes by its register number and its data. -/
theorem decode_write (rn : BitVec 4) (w : Word) : decode (mkTransWord true rn w) = decodeWrite rn w := by
  simp

/-- Bit 3 of a register number is worth 8. -/
theorem seven_lt_of_bit3 : ∀ rn : BitVec 4, rn.getLsbD 3 = true → 7 < rn.toNat := by
  decide

/-- The well-formed instructions are those that their own word decodes to. -/
theorem decode_encode {i : Instr} (h : i.WellFormed) : decode (encode i) = i := by
  cases i
  case rdRsvd8to15 rn => rw [encode, decode_read, decodeRead_high rn (seven_lt_of_bit3 rn h)]
  case wrRsvd8to15 rn w => rw [encode, decode_write, decodeWrite_high rn w (seven_lt_of_bit3 rn h)]
  case wrCmdReserved w =>
    have hw : w ≠ applyWord := by simpa [Instr.WellFormed, Instr.wellFormed] using h
    rw [encode, decode_write, decodeWrite_cmd, if_neg hw]
  case apply => exact decode_write 4#4 applyWord
  case rdBufBase | rdBufLen | rdGain | rdCtrl | rdCmd | rdStatus | rdProgress | rdRsvd7 => exact decode_read _ _
  case wrBufBase w | wrBufLen w | wrGain w | wrCtrl w | wrStatus w | wrProgress w | wrRsvd7 w =>
    exact decode_write _ w

/-- Settles O5, constructor by constructor in `decode_encode`. -/
theorem decodingAnEncodedInstructionGivesItBack : Obligations.DecodingAnEncodedInstructionGivesItBack :=
  fun _ h => decode_encode h

/-- Settles O6: a write word has no bit that the decoder drops, a read word only its data. -/
theorem everyWordIsAnEncoding : Obligations.EveryWordIsAnEncoding :=
  fun tw => ⟨wellFormed_decode tw, encode_decode_of_write, encode_decode_of_read⟩

/-- Settles O4: the decoder evaluated on the nineteen words. -/
theorem listedWordsDecodeAsListed : Obligations.ListedWordsDecodeAsListed := by
  unfold Obligations.ListedWordsDecodeAsListed
  decide

/-! ## The bytes of a word -/

theorem length_bytesOfNat (n v : Nat) : (bytesOfNat n v).length = n := by
  induction n generalizing v with
  | zero => rfl
  | succ n ih => rw [bytesOfNat, List.length_cons, ih]

/-- The bytes of a number stand for it modulo the range of their count. -/
theorem natOfBytes_bytesOfNat (n v : Nat) : natOfBytes (bytesOfNat n v) = v % 256 ^ n := by
  induction n generalizing v with
  | zero => simp [bytesOfNat, natOfBytes, Nat.mod_one]
  | succ n ih =>
    rw [Nat.pow_succ', Nat.mod_mul, bytesOfNat, natOfBytes, ih, BitVec.toNat_ofNat]

theorem transWordOfBytes_bytesOfNat (tw : TransWord) : transWordOfBytes (bytesOfNat 5 tw.toNat) = .ok tw := by
  have hlt : tw.toNat < 256 ^ 5 := lt_trans tw.isLt (by decide)
  rw [transWordOfBytes, if_pos (length_bytesOfNat 5 _), natOfBytes_bytesOfNat, Nat.mod_eq_of_lt hlt, transWordOfNat,
    if_pos tw.isLt, BitVec.ofNat_toNat, BitVec.setWidth_eq]

/-- The host's number of a word names the word. -/
theorem tableTransWord_toNat (tw : TransWord) : tableTransWord 40 tw.toNat = some tw := by
  have hlt : tw.toNat < 2 ^ 40 := lt_trans tw.isLt (by decide)
  rw [tableTransWord, Nat.mod_eq_of_lt hlt, transWordOfBytes_bytesOfNat]
  exact if_pos hlt

/-- A transaction put in front of the list is the next step, on the state as it was. -/
theorem step_pushPending_transaction (tw : TransWord) (s : State) :
    step (pushPending (.transaction tw) s) = exec (decode tw) s :=
  step_transaction _ tw s.pending rfl

/-- Settles O3: the turn is taken off the list before the instruction runs, also the one that `withFetchWord` puts there. -/
theorem stepRunsTheDecodedTransaction : Obligations.StepRunsTheDecodedTransaction := by
  refine ⟨fun s tw rest hnext => ⟨wellFormed_decode tw, step_transaction s tw rest hnext⟩, fun s tw => ⟨?_, ?_⟩⟩
  · rw [decodeTableWord, tableTransWord_toNat, Option.map_some]
  · rw [State.withFetchWord, tableTransWord_toNat]
    exact step_pushPending_transaction tw s

/-! ## The assembler -/

theorem decode_assemble_rd (r : Reg) : decode (assemble (.rd r)) = decodeRead (regNumber r) :=
  decode_read _ _

theorem decode_assemble_wr (r : Reg) (imm : Word) : decode (assemble (.wr r imm)) = decodeWrite (regNumber r) imm :=
  decode_write _ _

/-- Settles O9: each line is a word made of the fields, and the fields decide the instruction. -/
theorem assemblerLinesDecodeAsWritten : Obligations.AssemblerLinesDecodeAsWritten := by
  refine ⟨fun r _ => ?lines, ?apply, fun b l => ?setbuf, ?nobuf, fun g => ?setgain, ?ack,
    decode_assemble_rd .status, fun s => ?wait⟩
  case lines => simp [assemble, regByteOffset]
  case wait =>
    obtain ⟨hbusy, _⟩ := statusValue_getLsbD s
    rw [waitEnds, hbusy, Bool.not_eq_true']
  all_goals
    simp only [expandPseudo, List.map_cons, List.map_nil, decode_assemble_wr]
    rfl

end Sys2Proof.Proofs
end

section
/-! What a step leaves of memory (`20_memory.md` R50, R66, R73, `40_host_transactions.md` R95): a transaction leaves all of it,
and every other step is made of byte accesses, so what a byte access keeps every step keeps. -/

namespace Sys2Proof.Proofs

open Sys2Proof.Machine

/-! ## Transactions -/

/-- A write of CMD reaches no memory and returns nothing (R95). -/
theorem writeCmd_keeps_memory (w : Word) (s : State) :
    (writeCmd w s).mem = s.mem ∧ (writeCmd w s).trace = s.trace ∧ (writeCmd w s).cfg = s.cfg ∧
      (writeCmd w s).pending = s.pending ∧ (writeCmd w s).returned = s.returned := by
  rcases writeCmd_cases w s with ⟨_, h⟩ | ⟨_, _, h⟩ | ⟨_, _, _, _, h⟩ | ⟨_, _, _, h⟩
  all_goals
    rw [h]
    exact ⟨rfl, rfl, rfl, rfl, rfl⟩

/-- Every transaction completes, with memory, the platform and the steps to come as they were (R95). -/
theorem exec_completes (i : Instr) (s : State) :
    ∃ t, exec i s = .next t ∧ t.mem = s.mem ∧ t.trace = s.trace ∧ t.cfg = s.cfg ∧ t.pending = s.pending ∧
      (t.returned = s.returned ∨ ∃ v, t = { s with returned := v :: s.returned }) := by
  obtain ⟨t, ht, hcases⟩ := exec_cases i s
  refine ⟨t, ht, ?_⟩
  rcases hcases with ⟨v, rfl⟩ | ⟨_, _, _, _, rfl⟩ | ⟨_, _, rfl⟩ | ⟨_, rfl⟩ | ⟨w, _, rfl⟩
  case inl => exact ⟨rfl, rfl, rfl, rfl, .inr ⟨v, rfl⟩⟩ -- a read
  case inr.inl => exact ⟨rfl, rfl, rfl, rfl, .inl rfl⟩ -- a configuration register
  case inr.inr.inl => exact ⟨rfl, rfl, rfl, rfl, .inl rfl⟩ -- STATUS
  all_goals -- CMD
    obtain ⟨hmem, htrace, hcfg, hpending, hreturned⟩ := writeCmd_keeps_memory _ s
    exact ⟨hmem, htrace, hcfg, hpending, .inl hreturned⟩

/-- The next state of a transaction is one of those of `exec_cases`. -/
theorem exec_next_cases {i : Instr} {s t : State} (h : exec i s = .next t) :
    (∃ v, t = respond v s) ∨
    (∃ b l g v, t = { s with bufBase := b, bufLen := l, gain := g, bufValid := v }) ∨
    (∃ w, i = .wrStatus w ∧ t = clearStatus w s) ∨
    (i = .apply ∧ t = writeCmd applyWord s) ∨
    (∃ w, i = .wrCmdReserved w ∧ t = writeCmd w s) := by
  obtain ⟨t', ht', hcases⟩ := exec_cases i s
  rw [h] at ht'
  cases ht'
  exact hcases

theorem exec_keeps_memory {i : Instr} {s t : State} (h : exec i s = .next t) :
    t.mem = s.mem ∧ t.trace = s.trace ∧ t.cfg = s.cfg := by
  obtain ⟨t', ht', hmem, htrace, hcfg, _⟩ := exec_completes i s
  rw [h] at ht'
  cases ht'
  exact ⟨hmem, htrace, hcfg⟩

/-- Only another master's access to no address stops a step (log entry 9). -/
theorem step_completes_or_stops (s : State) :
    (∃ t, step s = .next t) ∨
    ∃ a, step s = .fault (.noSuchAddress a) ∧ 2 ^ s.cfg.aw ≤ a ∧
      ((∃ who rest, s.pending = .memRead who a :: rest) ∨
       (∃ who v rest, s.pending = .memWrite who a v :: rest)) := by
  cases hp : s.pending with
  | nil => exact .inl ⟨_, step_nil s hp⟩
  | cons i rest =>
    rw [step_cons s i rest hp]
    cases i with
    | transaction tw =>
      obtain ⟨t, ht, _⟩ := exec_completes (decode tw) (takePending rest s)
      exact .inl ⟨t, ht⟩
    | engine => exact .inl ⟨_, rfl⟩
    | memRead who a =>
      rcases foreignRead_cases who a (takePending rest s) with ⟨_, h⟩ | ⟨ha, h⟩
      · exact .inl ⟨_, h⟩
      · exact .inr ⟨a, h, ha, .inl ⟨who, rest, rfl⟩⟩
    | memWrite who a v =>
      rcases foreignWrite_cases who a v (takePending rest s) with ⟨_, h⟩ | ⟨ha, h⟩
      · exact .inl ⟨_, h⟩
      · exact .inr ⟨a, h, ha, .inr ⟨who, v, rest, rfl⟩⟩
    | reset => exact .inl ⟨_, rfl⟩

/-- Settles O47: `exec` by its cases, `step` by the head of the list of steps to come. -/
theorem transactionsAlwaysComplete : Obligations.TransactionsAlwaysComplete :=
  ⟨exec_completes, step_completes_or_stops⟩

/-! ## Reset -/

theorem step_reset {s : State} {rest : List Input} (h : s.pending = .reset :: rest) :
    step s = .next (resetBlock (takePending rest s)) :=
  step_cons s _ rest h

/-- Settles O2: the registers are those of `State.reset`, and STATUS reads zero because its fields are clear. -/
theorem resetStepKeepsBufferMemory : Obligations.ResetStepKeepsBufferMemory := by
  intro s rest hnext
  have hstatus : statusValue (resetBlock (takePending rest s)) = 0x00000000#32 :=
    statusValue_eq_zero rfl rfl rfl rfl rfl
  exact ⟨_, step_reset hnext, rfl, rfl, rfl, rfl, rfl, rfl, rfl, rfl, rfl, hstatus, rfl⟩

/-! ## The other masters' accesses -/

section
variable {s : State} {who : Master} {a : Nat} {rest : List Input} (ha : a < 2 ^ s.cfg.aw)
include ha

theorem step_memRead (h : s.pending = .memRead who a :: rest) :
    step s = .next (loadByte (.master who) a (takePending rest s)).2 :=
  (step_cons s _ rest h).trans (if_pos ha)

theorem step_memWrite {v : Byte} (h : s.pending = .memWrite who a v :: rest) :
    step s = .next (storeByte (.master who) a v (takePending rest s)).2 :=
  (step_cons s _ rest h).trans (if_pos ha)

end

/-- A byte read changes the order of accesses alone, where it stands with what it returned (R73). -/
theorem loadByte_eq (who : Agent) (a : Nat) (s : State) :
    (loadByte who a s).2 =
      { s with trace :=
          .read who a (if memOK s.cfg a .read = true then some (s.mem.read a) else none) :: s.trace } := by
  rcases loadByte_cases who a s with ⟨hok, h⟩ | ⟨hno, h⟩
  · rw [h, if_pos hok]
  · rw [h, if_neg (by simp [hno])]

/-- A byte write changes memory and the order of accesses alone, and memory only where it is admitted (R73). -/
theorem storeByte_eq (who : Agent) (a : Nat) (v : Byte) (s : State) :
    (storeByte who a v s).2 =
      { s with
        mem := if memOK s.cfg a .write = true then s.mem.write a v else s.mem
        trace := .write who a v (memOK s.cfg a .write) :: s.trace } := by
  rcases storeByte_cases who a v s with ⟨hok, h⟩ | ⟨hno, h⟩
  · rw [h, hok, if_pos rfl]
  · rw [h, hno, if_neg Bool.false_ne_true]

/-- Settles O51: the step is the byte access, on the state with the turn taken off the list. -/
theorem otherMastersAccessOneByte : Obligations.OtherMastersAccessOneByte := by
  intro s who a v rest ha
  refine ⟨fun hnext => ?read, fun hnext => ?write⟩
  case read =>
    rw [step_memRead ha hnext, loadByte_eq]
    rfl
  case write =>
    refine ⟨_, step_memWrite ha hnext, ?_⟩
    rw [storeByte_eq, takePending_cfg, takePending_mem]
    refine ⟨rfl, rfl, fun hok x => ?_, fun hno => ?_⟩
    · rw [if_pos hok]
      exact read_write _ _ _ _
    · rw [if_neg (by simp [hno])]

/-! ## What every byte access keeps every step keeps -/

/-- A property of the platform, memory and the order of accesses that every byte access keeps, whoever makes it. -/
structure KeptByAccesses (P : State → Prop) : Prop where
  congr : ∀ {s t : State}, P s → t.cfg = s.cfg → t.mem = s.mem → t.trace = s.trace → P t
  load : ∀ (who : Agent) (a : Nat) {s : State}, P s → P (loadByte who a s).2
  store : ∀ (who : Agent) (a : Nat) (v : Byte) {s : State}, P s → P (storeByte who a v s).2

section
variable {P : State → Prop} (h : KeptByAccesses P)
include h

theorem KeptByAccesses.writeWindow (a : Nat) (c : Byte × Byte) {s : State} (hs : P s) : P (writeWindow a c s) := by
  have h0 := h.store .engine a c.1 hs
  unfold Machine.writeWindow
  generalize storeByte .engine a c.1 s = r at h0 ⊢
  obtain ⟨_ | _, s1⟩ := r
  · exact h.congr h0 rfl rfl rfl
  have h1 : P (storeByte .engine (a + 1) c.2 s1).2 := h.store .engine (a + 1) c.2 h0
  dsimp only
  generalize storeByte .engine (a + 1) c.2 s1 = r at h1 ⊢
  obtain ⟨_ | _, s2⟩ := r
  all_goals exact h.congr h1 rfl rfl rfl

theorem KeptByAccesses.windowStep {s : State} (hs : P s) : P (windowStep s) := by
  unfold Machine.windowStep
  generalize windowAddr s.wBase s.idx.toNat = a
  have h0 := h.load .engine a hs
  generalize loadByte .engine a s = r at h0 ⊢
  obtain ⟨_ | b0, s1⟩ := r
  · exact h.congr h0 rfl rfl rfl
  have h1 : P (loadByte .engine (a + 1) s1).2 := h.load .engine (a + 1) h0
  dsimp only
  generalize loadByte .engine (a + 1) s1 = r at h1 ⊢
  obtain ⟨_ | b1, s2⟩ := r
  · exact h.congr h1 rfl rfl rfl
  · exact h.writeWindow _ _ h1

theorem KeptByAccesses.engineStep {s : State} (hs : P s) : P (engineStep s) := by
  rcases engineStep_cases s with ⟨_, _, he⟩ | ⟨_, _, he⟩ | ⟨_, he⟩
  · rw [he]
    exact h.windowStep hs
  · rw [he]
    exact h.congr hs rfl rfl rfl
  · rwa [he]

theorem KeptByAccesses.step {s t : State} (hs : P s) (hstep : step s = .next t) : P t := by
  have htake : ∀ rest, P (takePending rest s) := fun rest => h.congr hs rfl rfl rfl
  rcases step_cases hstep with
    ⟨_, rfl⟩ | ⟨rest, _, rfl⟩ | ⟨tw, rest, _, hexec⟩ | ⟨who, a, rest, _, _, rfl⟩ | ⟨who, a, v, rest, _, _, rfl⟩ |
    ⟨rest, _, rfl⟩
  · exact h.engineStep hs
  · exact h.engineStep (htake rest)
  · obtain ⟨hmem, htrace, hcfg⟩ := exec_keeps_memory hexec
    exact h.congr (htake rest) hcfg hmem htrace
  · exact h.load _ a (htake rest)
  · exact h.store _ a v (htake rest)
  · exact h.congr hs rfl rfl rfl

end

/-! ## The canonical form -/

/-- An admitted write lists an existing address alone, and keeps the form. -/
theorem memoryInv_keptByAccesses : KeptByAccesses memoryInv where
  congr hs hcfg hmem _ := by rwa [memoryInv, hcfg, hmem]
  load who a s hs := by
    rw [loadByte_eq]
    exact hs
  store who a v s hs := by
    obtain ⟨hwf, hexists⟩ := hs
    rcases storeByte_cases who a v s with ⟨hok, h⟩ | ⟨_, h⟩
    · rw [h]
      refine ⟨write_keeps_wf s.mem a v hwf, fun c hc => ?_⟩
      rcases write_lists hc with rfl | hold
      · exact memOK_exists hok
      · exact hexists c hold
    · rw [h]
      exact ⟨hwf, hexists⟩

/-- Settles O45: the form is kept by every byte access. -/
theorem everyStepKeepsMemoryCanonical : Obligations.EveryStepKeepsMemoryCanonical :=
  fun _ _ hs hstep => memoryInv_keptByAccesses.step hs hstep

/-! ## The order of accesses -/

/-- A read returns what memory holds, which is the latest byte written; a performed write is the latest at its address. -/
theorem accessesInOrder_keptByAccesses (before : Nat → Byte) : KeptByAccesses (accessesInOrder before) where
  congr hs _ hmem htrace := by rwa [accessesInOrder, hmem, htrace]
  load who a s hs := by
    obtain ⟨hmem, hreads⟩ := hs
    rcases loadByte_cases who a s with ⟨_, h⟩ | ⟨_, h⟩
    · rw [h]
      exact ⟨hmem, hmem a, hreads⟩
    · rw [h]
      exact ⟨hmem, hreads⟩
  store who a v s hs := by
    obtain ⟨hmem, hreads⟩ := hs
    rcases storeByte_cases who a v s with ⟨_, h⟩ | ⟨_, h⟩
    · rw [h]
      refine ⟨fun x => ?_, hreads⟩
      simp only [read_write, byteAfter, true_and, hmem x, eq_comm (a := a)]
    · rw [h]
      exact ⟨fun x => by simpa [byteAfter] using hmem x, hreads⟩

/-- Settles O46: the accord of memory and trace is kept by every byte access. -/
theorem everyStepKeepsAccessesSequentiallyConsistent :
    Obligations.EveryStepKeepsAccessesSequentiallyConsistent :=
  fun before _ _ hs hstep => (accessesInOrder_keptByAccesses before).step hs hstep

end Sys2Proof.Proofs
end

section
/-! The invariant of `10_state.md` R46 step by step: a call begins within its bounds, a window step stays within them, and every
operation on the status record leaves at most one of BUSY, DONE and ERR set. -/

namespace Sys2Proof.Proofs

open Sys2Proof.Machine

/-- A window step raises MEM_FAULT with IDX as it was, or counts the window; besides it reaches memory and the order of accesses
alone. -/
theorem windowStep_faults_or_advances (s : State) :
    (∃ m tr, windowStep s = raiseError .memFault { s with mem := m, trace := tr }) ∨
    (∃ m tr, windowStep s = { s with mem := m, idx := s.idx + 1#31, trace := tr }) := by
  rcases windowStep_cases s _ _ rfl rfl with
    ⟨_, h⟩ | ⟨_, _, h⟩ | ⟨_, _, _, h⟩ | ⟨_, _, _, _, h⟩ | ⟨_, _, _, _, h⟩
  case inr.inr.inr.inr => exact .inr ⟨_, _, h⟩ -- all four accesses are performed
  all_goals exact .inl ⟨_, _, h⟩

/-! ## The operations on the record -/

theorem callInv_of_idle {s : State} (hidle : s.busy = false) : callInv s := by
  intro hbusy
  rw [hidle] at hbusy
  contradiction

/-- A cleared record meets the invariant. -/
theorem machineInv_of_clear {s : State} (hbusy : s.busy = false) (hdone : s.done = false) (herr : s.err = false)
    (hcode : s.errCode = 0#4) : machineInv s :=
  ⟨by simp [statusInv, hbusy, hdone, herr, hcode], callInv_of_idle hbusy⟩

theorem errorCode_range (e : ErrorKind) : errorCode e ≠ 0#4 ∧ (errorCode e).toNat ≤ 5 := by
  cases e <;> decide

/-- An error ends the call, so where DONE was not set ERR stands alone (R190). -/
theorem machineInv_raiseError (e : ErrorKind) {s : State} (hdone : s.done = false) : machineInv (raiseError e s) := by
  obtain ⟨hne, hle⟩ := errorCode_range e
  exact ⟨by simp [statusInv, hdone, hne, hle], callInv_of_idle rfl⟩

/-- A STATUS write sets no bit, and clears ERRCODE with ERR (R107). -/
theorem machineInv_clearStatus (w : Word) {s : State} (h : machineInv s) : machineInv (clearStatus w s) := by
  obtain ⟨⟨hbusyDone, hbusyErr, hdoneErr, hcode, hle⟩, hcall⟩ := h
  have hdone : (clearStatus w s).done = true → s.done = true := by simp +contextual
  cases hmask : w.getLsbD 2
  case false => -- ERR and ERRCODE stay
    obtain ⟨herr, herrCode⟩ := clearStatus_keeps_err hmask s
    rw [machineInv, statusInv, herr, herrCode, clearStatus_busy]
    exact ⟨⟨fun hb => hbusyDone (hb.imp_right hdone), hbusyErr, fun hd => hdoneErr (hd.imp_left hdone), hcode, hle⟩,
      hcall⟩
  case true => -- both are cleared
    obtain ⟨herr, herrCode⟩ := clearStatus_clears_err hmask s
    rw [machineInv, statusInv, herr, herrCode, clearStatus_busy]
    exact ⟨⟨fun hb => hbusyDone (hb.imp_right hdone), by simp, by simp, by simp, by simp⟩, hcall⟩

/-- An accepted call starts at window 0 of a buffer whose range was checked (R123, R124). -/
theorem machineInv_acceptCall {s : State} (hchecks : applyError s = none) :
    machineInv (acceptCall (clearRecord s)) := by
  obtain ⟨_, hgain, hrange⟩ := (applyError_none s).1 hchecks
  refine ⟨by simp [statusInv], fun _ => ⟨Nat.zero_le _, hgain, ?_⟩⟩
  have hbase : (acceptCall (clearRecord s)).wBase.toNat = s.bufBase.toNat % 2 ^ s.cfg.aw := bufBaseValue_toNat s
  have hcount : (acceptCall (clearRecord s)).wNwin.toNat = s.bufLen.toNat / 2 := windowCount_toNat s.bufLen
  rw [rangeFits_iff] at hrange
  rw [hbase, hcount]
  exact le_trans (Nat.add_le_add_left (Nat.mul_div_le _ 2) _) hrange

theorem machineInv_writeCmd (w : Word) {s : State} (h : machineInv s) : machineInv (writeCmd w s) := by
  rcases writeCmd_cases w s with ⟨_, hw⟩ | ⟨_, _, hw⟩ | ⟨_, _, e, _, hw⟩ | ⟨_, _, hchecks, hw⟩
  · rwa [hw]
  · rw [hw]
    exact machineInv_raiseError _ rfl
  · rw [hw]
    exact machineInv_raiseError e rfl
  · rw [hw]
    exact machineInv_acceptCall hchecks

/-! ## The steps -/

theorem machineInv_exec {i : Instr} {s t : State} (h : machineInv s) (hexec : exec i s = .next t) : machineInv t := by
  rcases exec_next_cases hexec with ⟨v, rfl⟩ | ⟨_, _, _, _, rfl⟩ | ⟨w, _, rfl⟩ | ⟨_, rfl⟩ | ⟨w, _, rfl⟩
  · exact h
  · exact h
  · exact machineInv_clearStatus w h
  · exact machineInv_writeCmd applyWord h
  · exact machineInv_writeCmd w h

/-- While a call is in progress neither DONE nor ERR is set. -/
theorem record_of_busy {s : State} (h : machineInv s) (hbusy : s.busy = true) :
    s.done = false ∧ s.err = false ∧ s.errCode = 0#4 := by
  obtain ⟨⟨hbusyDone, hbusyErr, _, hcode, _⟩, _⟩ := h
  have herr : ¬s.err = true := fun he => hbusyErr ⟨hbusy, he⟩
  exact ⟨by simpa [hbusy] using hbusyDone, by simpa using herr, not_not.1 (mt hcode.1 herr)⟩

theorem machineInv_windowStep {s : State} (h : machineInv s) (hbusy : s.busy = true)
    (hleft : s.idx.toNat < s.wNwin.toNat) : machineInv (windowStep s) := by
  obtain ⟨hdone, _, _⟩ := record_of_busy h hbusy
  rcases windowStep_faults_or_advances s with ⟨m, tr, hw⟩ | ⟨m, tr, hw⟩
  · rw [hw]
    exact machineInv_raiseError _ hdone
  · obtain ⟨hstatus, hcall⟩ := h
    obtain ⟨_, hgain, hrange⟩ := hcall hbusy
    rw [hw]
    refine ⟨hstatus, fun _ => ⟨?_, hgain, hrange⟩⟩
    rw [idx_add_one_toNat s hleft]
    exact hleft

theorem machineInv_finishStep {s : State} (h : machineInv s) (hbusy : s.busy = true) : machineInv (finishStep s) := by
  obtain ⟨_, herr, hcode⟩ := record_of_busy h hbusy
  exact ⟨by simp [statusInv, herr, hcode], callInv_of_idle rfl⟩

theorem machineInv_engineStep {s : State} (h : machineInv s) : machineInv (engineStep s) := by
  rcases engineStep_cases s with ⟨hbusy, hleft, he⟩ | ⟨hbusy, _, he⟩ | ⟨_, he⟩
  · rw [he]
    exact machineInv_windowStep h hbusy hleft
  · rw [he]
    exact machineInv_finishStep h hbusy
  · rwa [he]

/-- Settles O44: taking the turn off the list, another master's access and the engine's write to memory reach no field of the
invariant, and each operation on the record keeps it. -/
theorem everyStepKeepsTheMachineInvariant : Obligations.EveryStepKeepsTheMachineInvariant := by
  intro s t h hstep
  have htake : ∀ rest, machineInv (takePending rest s) := fun _ => h
  rcases step_cases hstep with
    ⟨_, rfl⟩ | ⟨rest, _, rfl⟩ | ⟨tw, rest, _, hexec⟩ | ⟨who, a, rest, _, _, rfl⟩ | ⟨who, a, v, rest, _, _, rfl⟩ |
    ⟨rest, _, rfl⟩
  · exact machineInv_engineStep h
  · exact machineInv_engineStep (htake rest)
  · exact machineInv_exec (htake rest) hexec
  · rw [loadByte_eq]
    exact h
  · rw [storeByte_eq]
    exact h
  · exact machineInv_of_clear rfl rfl rfl rfl

/-- Settles O43: the record is clear, memory lists nothing, and no byte was accessed. -/
theorem resetMeetsTheInvariants : Obligations.ResetMeetsTheInvariants := by
  have hmem : memoryInv State.reset := ⟨reset_mem_wf, fun _ hc => absurd hc List.not_mem_nil⟩
  have horder : accessesInOrder (fun a => State.reset.mem.read a) State.reset := ⟨fun _ => rfl, trivial⟩
  exact ⟨machineInv_of_clear rfl rfl rfl rfl, hmem, horder⟩

end Sys2Proof.Proofs
end

section
/-! The bits of the status record (`10_state.md` R34 to R37): what one step can do to BUSY, DONE, ERR and ODD, said once, and
read off for each bit. -/

namespace Sys2Proof.Proofs

open Sys2Proof.Machine

/-! ## What one step can do to the record -/

/-- The events of a step that the status record can show, with the state each leaves. -/
inductive RecordEvent (s t : State) : Prop
  /-- No bit changes. -/
  | kept (hbusy : t.busy = s.busy) (hdone : t.done = s.done) (herr : t.err = s.err) (hodd : t.odd = s.odd)
  /-- A write of STATUS (R107). -/
  | statusWrite (w : Word) (rest : List Input) (hnext : s.pending = .transaction (mkTransWord true 5#4 w) :: rest)
      (ht : t = clearStatus w (takePending rest s))
  /-- A write of CMD that is refused (R122, R123, R187). -/
  | refused (w : Word) (rest : List Input) (hnext : s.pending = .transaction (mkTransWord true 4#4 w) :: rest)
      (hidle : s.busy = false) (e : ErrorKind) (ht : t = raiseError e (clearRecord (takePending rest s)))
  /-- An APPLY that is accepted (R124). -/
  | accepted (rest : List Input) (hnext : s.pending = .transaction (mkTransWord true 4#4 applyWord) :: rest)
      (hidle : s.busy = false) (hchecks : applyError s = none)
      (ht : t = acceptCall (clearRecord (takePending rest s)))
  /-- A window step that faults (R130). -/
  | faulted (hturn : engineTurn s) (hbusy : s.busy = true) (hleft : s.idx.toNat < s.wNwin.toNat) (rest : List Input)
      (m : Memory) (tr : List Access)
      (ht : t = raiseError .memFault { takePending rest s with mem := m, trace := tr })
  /-- The finish step (R127). -/
  | finished (hturn : engineTurn s) (hbusy : s.busy = true) (hend : s.idx = s.wNwin) (rest : List Input)
      (ht : t = finishStep (takePending rest s))
  /-- Reset (R215). -/
  | reset (rest : List Input) (hnext : s.pending = .reset :: rest) (ht : t = resetBlock (takePending rest s))

/-- A word that decodes to a write is the encoding of that write. -/
theorem eq_encode_of_decode {tw : TransWord} {i : Instr} (h : decode tw = i) (hwrite : twWe (encode i) = true) :
    tw = encode i := by
  subst h
  cases hwe : twWe tw
  · rw [encode_decode_of_read hwe, twWe_mk] at hwrite
    contradiction
  · exact (encode_decode_of_write hwe).symm

/-- The engine's turn is a window step that faults, the finish step, or leaves the record. -/
theorem recordEvent_engineStep {s : State} (hturn : engineTurn s) (rest : List Input) :
    RecordEvent s (engineStep (takePending rest s)) := by
  rcases engineStep_cases (takePending rest s) with ⟨hbusy, hleft, he⟩ | ⟨hbusy, hend, he⟩ | ⟨_, he⟩
  · rw [he]
    rcases windowStep_faults_or_advances (takePending rest s) with ⟨m, tr, hw⟩ | ⟨m, tr, hw⟩
    · exact .faulted hturn hbusy hleft rest m tr hw
    · rw [hw]
      exact .kept rfl rfl rfl rfl
  · exact .finished hturn hbusy hend rest he
  · rw [he]
    exact .kept rfl rfl rfl rfl

/-- A word that writes CMD is dropped, refused or accepted; it is accepted only as APPLY. -/
theorem recordEvent_writeCmd {s : State} {w : Word} {rest : List Input}
    (hnext : s.pending = .transaction (mkTransWord true 4#4 w) :: rest) :
    RecordEvent s (writeCmd w (takePending rest s)) := by
  rcases writeCmd_cases w (takePending rest s) with
    ⟨_, hw⟩ | ⟨hidle, _, hw⟩ | ⟨hidle, _, e, _, hw⟩ | ⟨hidle, hword, hchecks, hw⟩
  · rw [hw]
    exact .kept rfl rfl rfl rfl
  · exact .refused w rest hnext hidle _ hw
  · exact .refused w rest hnext hidle e hw
  · exact .accepted rest (hword ▸ hnext) hidle hchecks hw

theorem recordEvent_transaction {s t : State} {tw : TransWord} {rest : List Input}
    (hnext : s.pending = .transaction tw :: rest) (hexec : exec (decode tw) (takePending rest s) = .next t) :
    RecordEvent s t := by
  rcases exec_next_cases hexec with ⟨v, rfl⟩ | ⟨_, _, _, _, rfl⟩ | ⟨w, hi, ht⟩ | ⟨hi, rfl⟩ | ⟨w, hi, rfl⟩
  · exact .kept rfl rfl rfl rfl
  · exact .kept rfl rfl rfl rfl
  · obtain rfl := eq_encode_of_decode hi (twWe_mk _ _ _)
    exact .statusWrite w rest hnext ht
  · obtain rfl := eq_encode_of_decode hi (twWe_mk _ _ _)
    exact recordEvent_writeCmd hnext
  · obtain rfl := eq_encode_of_decode hi (twWe_mk _ _ _)
    exact recordEvent_writeCmd hnext

/-- Every step is one of the events. -/
theorem recordEvent_step {s t : State} (hstep : step s = .next t) : RecordEvent s t := by
  rcases step_cases hstep with
    ⟨hnil, rfl⟩ | ⟨rest, hnext, rfl⟩ | ⟨tw, rest, hnext, hexec⟩ | ⟨who, a, rest, _, _, rfl⟩ |
    ⟨who, a, v, rest, _, _, rfl⟩ | ⟨rest, hnext, rfl⟩
  · exact recordEvent_engineStep (.inl hnil) s.pending
  · exact recordEvent_engineStep (.inr ⟨rest, hnext⟩) rest
  · exact recordEvent_transaction hnext hexec
  · rw [loadByte_eq]
    exact .kept rfl rfl rfl rfl
  · rw [storeByte_eq]
    exact .kept rfl rfl rfl rfl
  · exact .reset rest hnext rfl

/-! ## The words the events write -/

theorem cmdWriteNext_of_word {s : State} {w : Word} {rest : List Input}
    (hnext : s.pending = .transaction (mkTransWord true 4#4 w) :: rest) : cmdWriteNext s :=
  ⟨_, rest, hnext, twWe_mk _ _ _, twRn_mk _ _ _⟩

theorem statusClearNext_of_word {s : State} {w : Word} {rest : List Input} {k : Nat}
    (hnext : s.pending = .transaction (mkTransWord true 5#4 w) :: rest) (hbit : w.getLsbD k = true) :
    statusClearNext s k :=
  ⟨_, rest, hnext, twWe_mk _ _ _, twRn_mk _ _ _, by rwa [twWdata_mk]⟩

/-- Of the words that write CMD the one of the command word decodes to APPLY (R80). -/
theorem decode_applyWord : decode (mkTransWord true 4#4 applyWord) = .apply :=
  decode_write 4#4 applyWord

/-! ## The statements -/

/-- Settles O49: of the events acceptance alone sets BUSY, and the fault, the finish step and reset clear it. -/
theorem busyChangesOnlyAsStated : Obligations.BusyChangesOnlyAsStated := by
  intro s t hstep
  have hevent := recordEvent_step hstep
  refine ⟨fun hs ht => ?rises, fun hs ht => ?falls⟩
  case rises =>
    cases hevent
    case accepted rest hnext _ hchecks _ =>
      obtain ⟨hvalid, hgain, hrange⟩ := (applyError_none s).1 hchecks
      exact ⟨⟨_, rest, hnext, decode_applyWord⟩, hvalid, hgain, (rangeFits_iff s).1 hrange⟩
    all_goals simp_all -- BUSY stays or is cleared
  case falls =>
    cases hevent
    case reset rest hnext _ => exact .inl ⟨rest, hnext⟩
    case finished hturn _ hend rest ht' =>
      subst ht'
      exact .inr (.inl ⟨hturn, hend, rfl, rfl, rfl⟩)
    case faulted hturn _ hleft rest m tr ht' =>
      subst ht'
      exact .inr (.inr ⟨hturn, hleft, rfl, rfl, rfl, rfl⟩)
    all_goals simp_all -- BUSY stays, or the state was idle

/-- Settles O50, event by event: each sets and clears the bits that the statement lets it, and the other clauses have a
hypothesis that the bit stays against. -/
theorem recordBitsChangeOnlyAsStated : Obligations.RecordBitsChangeOnlyAsStated := by
  intro s t hstep
  cases recordEvent_step hstep
  case kept _ hdone herr hodd => simp +contextual [hdone, herr, hodd]
  case statusWrite w rest hnext ht =>
    have hclear : ∀ k, w.getLsbD k = true → statusClearNext s k := fun k => statusClearNext_of_word hnext
    rw [ht, clearStatus_done, clearStatus_err, clearStatus_odd, takePending_done, takePending_err, takePending_odd]
    refine ⟨by simp +contextual, fun hs ht => ?done, by simp +contextual, fun hs ht => ?err, by simp +contextual,
      fun hs ht => ?odd⟩
    case done => exact .inr (.inl (hclear 1 (by simpa [hs] using ht)))
    case err => exact .inr (.inl (hclear 2 (by simpa [hs] using ht)))
    case odd => exact .inr (.inl (hclear 3 (by simpa [hs] using ht)))
  case refused w rest hnext hidle e ht => simp [ht, cmdWriteNext_of_word hnext, hidle]
  case accepted rest hnext hidle _ ht => simp [ht, cmdWriteNext_of_word hnext, hidle, oddLength_eq]
  case faulted hturn hbusy hleft rest m tr ht => simp +contextual [ht, hturn, hbusy, hleft]
  case finished hturn hbusy hend rest ht => simp +contextual [ht, hturn, hbusy, hend]
  case reset rest hnext ht =>
    have hreset : resetNext s := ⟨rest, hnext⟩
    simp [ht, hreset]

end Sys2Proof.Proofs
end

section
/-! What the call in progress depends on (`40_host_transactions.md` R112, `41_apply_command.md` R135, R137): the latches, IDX and
the bytes of its windows decide every window step, and no transaction reaches them. -/

namespace Sys2Proof.Proofs

open Sys2Proof.Machine

/-! ## A window step is decided by its operands -/

/-- The second state has the operands that the first one's window step reads (R126). -/
structure SameOperands (s u : State) : Prop where
  cfg : u.cfg = s.cfg
  wBase : u.wBase = s.wBase
  wGain : u.wGain = s.wGain
  idx : u.idx = s.idx
  byte0 : u.mem.read (windowAddr s.wBase s.idx.toNat) = s.mem.read (windowAddr s.wBase s.idx.toNat)
  byte1 : u.mem.read (windowAddr s.wBase s.idx.toNat + 1) = s.mem.read (windowAddr s.wBase s.idx.toNat + 1)

theorem SameOperands.refl (s : State) : SameOperands s s := ⟨rfl, rfl, rfl, rfl, rfl, rfl⟩

/-- A change of memory that makes each byte of the byte that stood there alone. -/
def Bytewise (W : Memory → Memory) : Prop :=
  ∀ m m' x, Memory.read m x = Memory.read m' x → (W m).read x = (W m').read x

theorem bytewise_id : Bytewise id := fun _ _ _ h => h

theorem bytewise_write (a : Nat) (b : Byte) : Bytewise (fun m => m.write a b) := by
  intro m m' x h
  simp only [read_write, h]

theorem Bytewise.comp {W W' : Memory → Memory} (h : Bytewise W) (h' : Bytewise W') : Bytewise (fun m => W (W' m)) :=
  fun m m' x hx => h _ _ x (h' m m' x hx)

/-- What a window step does, as a function of its operands: it changes memory, adds to the order of accesses, and either
raises MEM_FAULT or counts the window. -/
theorem windowStep_of_operands (s : State) :
    ∃ (W : Memory → Memory) (new : List Access), Bytewise W ∧
      ((∀ u, SameOperands s u →
          windowStep u = raiseError .memFault { u with mem := W u.mem, trace := new ++ u.trace }) ∨
       (∀ u, SameOperands s u →
          windowStep u = advanceIdx { u with mem := W u.mem, trace := new ++ u.trace })) := by
  generalize ha : windowAddr s.wBase s.idx.toNat = a
  generalize hc : window (s.mem.read a) (s.mem.read (a + 1)) s.wGain = c
  have haddr : ∀ u, SameOperands s u → a = windowAddr u.wBase u.idx.toNat := by
    intro u hu
    rw [hu.wBase, hu.idx, ha]
  have hread : ∀ u, SameOperands s u → u.mem.read a = s.mem.read a ∧ u.mem.read (a + 1) = s.mem.read (a + 1) := by
    intro u hu
    exact ⟨ha ▸ hu.byte0, ha ▸ hu.byte1⟩
  have hresult : ∀ u, SameOperands s u → c = window (u.mem.read a) (u.mem.read (a + 1)) u.wGain := by
    intro u hu
    obtain ⟨h0, h1⟩ := hread u hu
    rw [h0, h1, hu.wGain, hc]
  cases r0 : memOK s.cfg a .read
  case false =>
    refine ⟨id, [.read .engine a none], bytewise_id, .inl fun u hu => ?_⟩
    exact windowStep_faultRead0 u a (haddr u hu) (hu.cfg ▸ r0)
  cases r1 : memOK s.cfg (a + 1) .read
  case false =>
    refine ⟨id, [.read .engine (a + 1) none, .read .engine a (some (s.mem.read a))], bytewise_id,
      .inl fun u hu => ?_⟩
    obtain ⟨h0, _⟩ := hread u hu
    rw [windowStep_faultRead1 u a (haddr u hu) (hu.cfg ▸ r0) (hu.cfg ▸ r1), h0]
    rfl
  cases w0 : memOK s.cfg a .write
  case false =>
    refine ⟨id, [.write .engine a c.1 false, .read .engine (a + 1) (some (s.mem.read (a + 1))),
      .read .engine a (some (s.mem.read a))], bytewise_id, .inl fun u hu => ?_⟩
    obtain ⟨h0, h1⟩ := hread u hu
    rw [windowStep_faultWrite0 u a c (haddr u hu) (hresult u hu) (hu.cfg ▸ r0) (hu.cfg ▸ r1) (hu.cfg ▸ w0), h0, h1]
    rfl
  cases w1 : memOK s.cfg (a + 1) .write
  case false =>
    refine ⟨fun m => m.write a c.1, [.write .engine (a + 1) c.2 false, .write .engine a c.1 true,
      .read .engine (a + 1) (some (s.mem.read (a + 1))), .read .engine a (some (s.mem.read a))],
      bytewise_write a c.1, .inl fun u hu => ?_⟩
    obtain ⟨h0, h1⟩ := hread u hu
    rw [windowStep_faultWrite1 u a c (haddr u hu) (hresult u hu) (hu.cfg ▸ r0) (hu.cfg ▸ r1) (hu.cfg ▸ w0)
      (hu.cfg ▸ w1), h0, h1]
    rfl
  case true =>
    refine ⟨fun m => (m.write a c.1).write (a + 1) c.2, [.write .engine (a + 1) c.2 true, .write .engine a c.1 true,
      .read .engine (a + 1) (some (s.mem.read (a + 1))), .read .engine a (some (s.mem.read a))],
      (bytewise_write (a + 1) c.2).comp (bytewise_write a c.1), .inr fun u hu => ?_⟩
    obtain ⟨h0, h1⟩ := hread u hu
    rw [windowStep_performed u a c (haddr u hu) (hresult u hu) (hu.cfg ▸ r0) (hu.cfg ▸ r1) (hu.cfg ▸ w0)
      (hu.cfg ▸ w1), h0, h1]
    rfl

/-! ## Transactions during a call -/

/-- The second state has the call, the memory and the accesses of the first (R112). -/
structure SameCallAndMemory (s t : State) : Prop where
  cfg : t.cfg = s.cfg
  busy : t.busy = s.busy
  idx : t.idx = s.idx
  wBase : t.wBase = s.wBase
  wNwin : t.wNwin = s.wNwin
  wGain : t.wGain = s.wGain
  mem : t.mem = s.mem
  trace : t.trace = s.trace

/-- With BUSY = 1 a transaction reads, sets a configuration register or clears bits of the record; a command is dropped. -/
theorem exec_of_busy (i : Instr) {s : State} (hbusy : s.busy = true) :
    ∃ t, exec i s = .next t ∧ SameCallAndMemory s t := by
  obtain ⟨t, ht, hcases⟩ := exec_cases i s
  refine ⟨t, ht, ?_⟩
  rcases hcases with ⟨_, rfl⟩ | ⟨_, _, _, _, rfl⟩ | ⟨_, _, rfl⟩ | ⟨_, rfl⟩ | ⟨_, _, rfl⟩
  case inr.inr.inr.inl | inr.inr.inr.inr => -- CMD
    rw [writeCmd_of_busy hbusy]
    exact ⟨rfl, rfl, rfl, rfl, rfl, rfl, rfl, rfl⟩
  all_goals exact ⟨rfl, rfl, rfl, rfl, rfl, rfl, rfl, rfl⟩

theorem SameCallAndMemory.sameOperands {s t : State} (h : SameCallAndMemory s t) : SameOperands s t :=
  ⟨h.cfg, h.wBase, h.wGain, h.idx, by rw [h.mem], by rw [h.mem]⟩

/-- The engine's turn does the same to the call, to memory and to the order of accesses. -/
theorem SameCallAndMemory.engineStep {s t : State} (h : SameCallAndMemory s t) :
    SameCallAndMemory (engineStep s) (engineStep t) := by
  unfold Machine.engineStep
  rw [h.busy, h.idx, h.wNwin]
  split_ifs
  case pos => -- a window is left
    obtain ⟨W, new, _, hfault | hadvance⟩ := windowStep_of_operands s
    · rw [hfault s (.refl s), hfault t h.sameOperands]
      constructor <;> simp [h.cfg, h.idx, h.wBase, h.wNwin, h.wGain, h.mem, h.trace]
    · rw [hadvance s (.refl s), hadvance t h.sameOperands]
      constructor <;> simp [h.cfg, h.busy, h.idx, h.wBase, h.wNwin, h.wGain, h.mem, h.trace]
  case pos => -- all are counted
    exact ⟨h.cfg, rfl, h.idx, h.wBase, h.wNwin, h.wGain, h.mem, h.trace⟩
  all_goals exact h

/-- Settles O48: the transaction leaves the call and memory, and the engine's turn is decided by them. -/
theorem transactionsDoNotReachTheCallInProgress : Obligations.TransactionsDoNotReachTheCallInProgress := by
  intro i s hbusy
  obtain ⟨t, ht, hsame⟩ := exec_of_busy i hbusy
  have hnext := hsame.engineStep
  exact ⟨t, ht, hsame.busy.trans hbusy, hsame.idx, hsame.wBase, hsame.wNwin, hsame.wGain, hsame.mem, hsame.trace,
    hnext.mem, hnext.trace, hnext.idx, hnext.busy⟩

/-! ## Two runs of one call -/

/-- The two states have the same call: the platform, the latches, IDX, the record but for ODD, and the bytes of the windows. -/
structure SameCall (s u : State) : Prop where
  cfg : u.cfg = s.cfg
  wBase : u.wBase = s.wBase
  wNwin : u.wNwin = s.wNwin
  wGain : u.wGain = s.wGain
  idx : u.idx = s.idx
  busy : u.busy = s.busy
  done : u.done = s.done
  err : u.err = s.err
  errCode : u.errCode = s.errCode
  bytes : ∀ a, inWindows s.wBase s.wNwin.toNat a → u.mem.read a = s.mem.read a

/-- Both bytes of the window at hand are among the bytes that agree. -/
theorem SameCall.sameOperands {s u : State} (h : SameCall s u) (hleft : s.idx.toNat < s.wNwin.toNat) :
    SameOperands s u := by
  obtain ⟨hlo, hhi⟩ := inWindows_windowAddr s.wBase hleft
  exact ⟨h.cfg, h.wBase, h.wGain, h.idx, h.bytes _ hlo, h.bytes _ hhi⟩

theorem SameCall.windowStep {s u : State} (h : SameCall s u) (hleft : s.idx.toNat < s.wNwin.toNat) :
    SameCall (windowStep s) (windowStep u) := by
  obtain ⟨W, new, hW, hfault | hadvance⟩ := windowStep_of_operands s
  · rw [hfault s (.refl s), hfault u (h.sameOperands hleft)]
    exact ⟨h.cfg, h.wBase, h.wNwin, h.wGain, h.idx, rfl, h.done, rfl, rfl, fun a ha => hW _ _ a (h.bytes a ha)⟩
  · rw [hadvance s (.refl s), hadvance u (h.sameOperands hleft)]
    exact ⟨h.cfg, h.wBase, h.wNwin, h.wGain, congrArg (· + 1#31) h.idx, h.busy, h.done, h.err, h.errCode,
      fun a ha => hW _ _ a (h.bytes a ha)⟩

theorem SameCall.engineStep {s u : State} (h : SameCall s u) : SameCall (engineStep s) (engineStep u) := by
  unfold Machine.engineStep
  rw [h.busy, h.idx, h.wNwin]
  split_ifs with _ hleft
  case pos => exact h.windowStep hleft -- a window is left
  case pos => -- all are counted
    exact ⟨h.cfg, h.wBase, h.wNwin, h.wGain, h.idx, rfl, rfl, h.err, h.errCode, h.bytes⟩
  all_goals exact h

theorem engineStep_pending (s : State) : (engineStep s).pending = s.pending := by
  rw [engineStep_frame]

/-- Where no other step is to come, a run is the engine's. -/
theorem run_succ_of_nil (k : Nat) {s : State} (hnil : s.pending = []) :
    Sys2Proof.core.run (k + 1) s = Sys2Proof.core.run k (engineStep s) :=
  coreRun_succ Sys2Proof.core k s _ (step_nil s hnil)

/-- The two runs answer the same call after every number of steps. -/
theorem SameCall.run (k : Nat) {s u : State} (h : SameCall s u) (hs : s.pending = []) (hu : u.pending = []) :
    ∃ s' u' : State, Sys2Proof.core.run k s = .next s' ∧ Sys2Proof.core.run k u = .next u' ∧ SameCall s' u' ∧
      s'.wBase = s.wBase ∧ s'.wNwin = s.wNwin := by
  induction k generalizing s u with
  | zero => exact ⟨s, u, rfl, rfl, h, rfl, rfl⟩
  | succ k ih =>
    obtain ⟨s', u', hs', hu', h', hbase, hcount⟩ :=
      ih h.engineStep ((engineStep_pending s).trans hs) ((engineStep_pending u).trans hu)
    have hlatches : (Machine.engineStep s).wBase = s.wBase ∧ (Machine.engineStep s).wNwin = s.wNwin := by
      rw [engineStep_frame]
      exact ⟨rfl, rfl⟩
    exact ⟨s', u', (run_succ_of_nil k hs).trans hs', (run_succ_of_nil k hu).trans hu', h',
      hbase.trans hlatches.1, hcount.trans hlatches.2⟩

/-- Settles O55: while both calls are in progress their records are clear, so the two states have the same call. -/
theorem callDependsOnItsOperandsAlone : Obligations.CallDependsOnItsOperandsAlone := by
  intro k s u hs hu hbs hbu hinvs hinvu hcfg hbase hcount hgain hidx hbytes
  obtain ⟨hds, hes, hcs⟩ := record_of_busy hinvs hbs
  obtain ⟨hdu, heu, hcu⟩ := record_of_busy hinvu hbu
  have hsame : SameCall s u := ⟨hcfg.symm, hbase.symm, hcount.symm, hgain.symm, hidx.symm, hbu.trans hbs.symm,
    hdu.trans hds.symm, heu.trans hes.symm, hcu.trans hcs.symm, fun a ha => (hbytes a ha).symm⟩
  obtain ⟨s', u', hs', hu', h, hbase', hcount'⟩ := hsame.run k hs hu
  exact ⟨s', u', hs', hu', h.idx.symm, h.busy.symm, h.done.symm, h.err.symm, h.errCode.symm,
    fun a ha => (h.bytes a (by rwa [hbase', hcount'])).symm⟩

end Sys2Proof.Proofs
end

section
/-! The call as a whole (`41_apply_command.md` R131 to R136): a window step adds its window to the processed ones, any other
step leaves them, and the engine left to itself reaches the end. -/

namespace Sys2Proof.Proofs

open Sys2Proof.Machine

/-! ## The processed windows -/

/-- With no window processed memory is as it was. -/
theorem processedByte_zero (before : Nat → Byte) (base g : Word) (a : Nat) :
    processedByte before base 0 g a = before a :=
  if_neg (by omega)

/-- From the first window that is not processed on, memory is as it was. -/
theorem processedByte_of_ge (before : Nat → Byte) (base : Word) {k : Nat} (g : Word) {a : Nat}
    (ha : windowAddr base k ≤ a) : processedByte before base k g a = before a :=
  if_neg (by unfold windowAddr at ha; omega)

/-- One window more: its two bytes are the image of what they were. -/
theorem processedByte_succ (before : Nat → Byte) (base : Word) (k : Nat) (g : Word) (a : Nat) :
    processedByte before base (k + 1) g a =
      if a = windowAddr base k then (window (before (windowAddr base k)) (before (windowAddr base k + 1)) g).1
      else if a = windowAddr base k + 1 then
        (window (before (windowAddr base k)) (before (windowAddr base k + 1)) g).2
      else processedByte before base k g a := by
  have haddr : windowAddr base k = base.toNat + 2 * k := rfl
  by_cases h0 : a = windowAddr base k
  · have hi : (a - base.toNat) / 2 = k := by omega
    have hpar : (a - base.toNat) % 2 = 0 := by omega
    rw [if_pos h0, processedByte, if_pos (by omega)]
    simp only [hi, hpar, if_true]
  by_cases h1 : a = windowAddr base k + 1
  · have hi : (a - base.toNat) / 2 = k := by omega
    have hpar : ¬(a - base.toNat) % 2 = 0 := by omega
    rw [if_neg h0, if_pos h1, processedByte, if_pos (by omega)]
    simp only [hi, hpar, if_false]
  · have hrange : (base.toNat ≤ a ∧ a < base.toNat + 2 * (k + 1)) ↔ (base.toNat ≤ a ∧ a < base.toNat + 2 * k) := by
      omega
    rw [if_neg h0, if_neg h1]
    simp only [processedByte, hrange]

/-- A memory with the first `k` windows processed has one more processed after the image of the next window is written, at every
address where it had the first `k`. -/
theorem processedByte_of_window {before : Nat → Byte} {base g : Word} {k : Nat} {m m' : Memory} {a : Nat}
    (ha : a = windowAddr base k)
    (h0 : m.read a = processedByte before base k g a) (h1 : m.read (a + 1) = processedByte before base k g (a + 1))
    (hm : ∀ x, m'.read x =
      if x = a then (window (m.read a) (m.read (a + 1)) g).1
      else if x = a + 1 then (window (m.read a) (m.read (a + 1)) g).2 else m.read x)
    {x : Nat} (hx : m.read x = processedByte before base k g x) :
    m'.read x = processedByte before base (k + 1) g x := by
  rw [processedByte_of_ge before base g (by omega)] at h0 h1
  rw [hm, h0, h1, hx, ha, ← processedByte_succ]

/-! ## A window step of an admitted call -/

theorem windowStep_of_admitted {s : State} (hadm : admitted s.cfg s.wBase s.wNwin.toNat)
    (hleft : s.idx.toNat < s.wNwin.toNat) {a : Nat} (ha : a = windowAddr s.wBase s.idx.toNat) :
    ∃ m tr, windowStep s = { s with mem := m, idx := s.idx + 1#31, trace := tr } ∧
      tr.length = 4 + s.trace.length ∧
      ∀ x, m.read x =
        if x = a then (window (s.mem.read a) (s.mem.read (a + 1)) s.wGain).1
        else if x = a + 1 then (window (s.mem.read a) (s.mem.read (a + 1)) s.wGain).2 else s.mem.read x := by
  obtain ⟨hlo, hhi⟩ := inWindows_windowAddr s.wBase hleft
  rw [← ha] at hlo hhi
  obtain ⟨r0, w0⟩ := hadm _ hlo
  obtain ⟨r1, w1⟩ := hadm _ hhi
  refine ⟨_, _, windowStep_performed s a _ ha rfl r0 r1 w0 w1, ?_, fun x => read_writeTwo _ _ x _ _⟩
  simp only [List.length_cons]
  omega

/-! ## Every interleaving -/

/-- What a step makes of the call of `s`: it stays in progress with its first IDX windows processed, or ends with all of them. -/
def CallGoesOn (before : Nat → Byte) (s t : State) : Prop :=
  (callPrefix before t ∧ t.cfg = s.cfg ∧ t.wBase = s.wBase ∧ t.wNwin = s.wNwin ∧ t.wGain = s.wGain ∧
    s.idx.toNat ≤ t.idx.toNat) ∨
  (t.busy = false ∧ t.done = true ∧ t.err = false ∧ t.idx = t.wNwin ∧ t.wNwin = s.wNwin ∧
    ∀ a, inWindows s.wBase s.wNwin.toNat a →
      t.mem.read a = processedByte before s.wBase s.wNwin.toNat s.wGain a)

/-- A step that leaves the call and the bytes of its windows as they are. -/
theorem callGoesOn_of_kept {before : Nat → Byte} {s t : State} (h : callPrefix before s) (hcfg : t.cfg = s.cfg)
    (hbusy : t.busy = s.busy) (hidx : t.idx = s.idx) (hbase : t.wBase = s.wBase) (hcount : t.wNwin = s.wNwin)
    (hgain : t.wGain = s.wGain) (hbytes : ∀ a, inWindows s.wBase s.wNwin.toNat a → t.mem.read a = s.mem.read a) :
    CallGoesOn before s t := by
  obtain ⟨hb, hprocessed⟩ := h
  have hnext : callPrefix before t := by
    rw [callPrefix, hbusy, hidx, hbase, hcount, hgain]
    exact ⟨hb, fun a ha => (hbytes a ha).trans (hprocessed a ha)⟩
  exact .inl ⟨hnext, hcfg, hbase, hcount, hgain, by rw [hidx]⟩

/-- The engine's turn processes one window more, or ends the call with all of them processed. -/
theorem callGoesOn_engineStep {before : Nat → Byte} {s : State} (hinv : machineInv s) (hcall : callPrefix before s)
    (hadm : admitted s.cfg s.wBase s.wNwin.toNat) : CallGoesOn before s (engineStep s) := by
  obtain ⟨hbusy, hbytes⟩ := hcall
  rcases engineStep_cases s with ⟨_, hleft, he⟩ | ⟨_, hend, he⟩ | ⟨hnone, _⟩
  case inl =>
    obtain ⟨m, tr, hw, _, hm⟩ := windowStep_of_admitted hadm hleft rfl
    obtain ⟨hlo, hhi⟩ := inWindows_windowAddr s.wBase hleft
    have hidx : (s.idx + 1#31).toNat = s.idx.toNat + 1 := idx_add_one_toNat s hleft
    rw [he, hw]
    refine .inl ⟨⟨hbusy, fun a ha => ?_⟩, rfl, rfl, rfl, rfl, by simp only [hidx, Nat.le_succ]⟩
    simp only [hidx]
    exact processedByte_of_window rfl (hbytes _ hlo) (hbytes _ hhi) hm (hbytes a ha)
  case inr.inl =>
    obtain ⟨_, herr, _⟩ := record_of_busy hinv hbusy
    rw [he]
    rw [hend] at hbytes
    exact .inr ⟨rfl, rfl, herr, hend, rfl, hbytes⟩
  case inr.inr => -- IDX is at most W_NWIN
    obtain ⟨hle, _⟩ := hinv.2 hbusy
    simp [hbusy, not_lt.2 hle] at hnone

/-- Settles O53: transactions and reads leave the call and memory, an admitted write leaves the windows, and the engine's turn
is the lemma above. -/
theorem interleavedCallKeepsItsProcessedPrefix : Obligations.InterleavedCallKeepsItsProcessedPrefix := by
  intro before s t hinv hcall hadm ⟨hnoReset, hnoWrite⟩ hstep
  rcases step_cases hstep with
    ⟨_, rfl⟩ | ⟨rest, _, rfl⟩ | ⟨tw, rest, _, hexec⟩ | ⟨who, a, rest, _, _, rfl⟩ | ⟨who, a, v, rest, hnext, _, rfl⟩ |
    ⟨rest, hnext, rfl⟩
  · exact callGoesOn_engineStep hinv hcall hadm
  · exact callGoesOn_engineStep (s := takePending rest s) hinv hcall hadm
  · obtain ⟨t', ht', h⟩ := exec_of_busy (s := takePending rest s) (decode tw) hcall.1
    rw [hexec] at ht'
    cases ht'
    exact callGoesOn_of_kept hcall h.cfg h.busy h.idx h.wBase h.wNwin h.wGain fun _ _ => congrArg (Memory.read · _) h.mem
  · rw [loadByte_eq]
    exact callGoesOn_of_kept hcall rfl rfl rfl rfl rfl rfl fun _ _ => rfl
  · have hout := hnoWrite who a v rest hnext
    rw [storeByte_eq]
    refine callGoesOn_of_kept hcall rfl rfl rfl rfl rfl rfl fun x hx => ?_
    have hne : x ≠ a := fun h => hout (h ▸ hx)
    split_ifs
    · exact read_write_other _ _ _ _ hne
    · rfl
  · exact absurd ⟨rest, hnext⟩ hnoReset

/-! ## The engine left to itself -/

/-- An admitted call with `k` windows left ends after `k + 1` steps, with all of them processed and four accesses for each. -/
theorem run_admitted_call (before : Nat → Byte) (k : Nat) {s : State} (hnil : s.pending = []) (hbusy : s.busy = true)
    (hleft : s.idx.toNat + k = s.wNwin.toNat) (hadm : admitted s.cfg s.wBase s.wNwin.toNat)
    (hbytes : ∀ a, s.mem.read a = processedByte before s.wBase s.idx.toNat s.wGain a) :
    ∃ m i tr, Sys2Proof.core.run (k + 1) s = .next (finishStep { s with mem := m, idx := i, trace := tr }) ∧
      i = s.wNwin ∧ tr.length = 4 * k + s.trace.length ∧
      ∀ a, m.read a = processedByte before s.wBase s.wNwin.toNat s.wGain a := by
  induction k generalizing s with
  | zero =>
    have hend : s.idx = s.wNwin := BitVec.eq_of_toNat_eq hleft
    refine ⟨s.mem, s.idx, s.trace, ?_, hend, by omega, hend ▸ hbytes⟩
    rw [run_succ_of_nil 0 hnil, engineStep_of_complete hbusy hend]
    rfl
  | succ k ih =>
    have hlt : s.idx.toNat < s.wNwin.toNat := by omega
    have hidx : (s.idx + 1#31).toNat = s.idx.toNat + 1 := idx_add_one_toNat s hlt
    obtain ⟨m, tr, hw, hlen, hm⟩ := windowStep_of_admitted hadm hlt rfl
    obtain ⟨m', i, tr', hrun, hi, hlen', hm'⟩ :=
      ih (s := { s with mem := m, idx := s.idx + 1#31, trace := tr }) hnil hbusy (by simp only [hidx]; omega) hadm
        fun a => by
          simp only [hidx]
          exact processedByte_of_window rfl (hbytes _) (hbytes _) hm (hbytes a)
    refine ⟨m', i, tr', ?_, hi, by simp only at hlen'; omega, hm'⟩
    rw [run_succ_of_nil (k + 1) hnil, engineStep_of_window_left hbusy hlt, hw, hrun]

/-- Settles O52: the first step accepts the call, with no window processed, and the rest is the engine's run. -/
theorem callMapsTheWindowFunctionOverTheBuffer : Obligations.CallMapsTheWindowFunctionOverTheBuffer := by
  intro s hidle hnext hvalid hgain hfits hadm
  have hcount : (windowCount s.bufLen).toNat = s.bufLen.toNat / 2 := windowCount_toNat s.bufLen
  have haccept : step s = .next (acceptCall (clearRecord (takePending [] s))) :=
    (step_transaction s _ [] hnext).trans
      (exec_apply_of_checks (s := takePending [] s) hidle hvalid hgain ((rangeFits_iff _).2 hfits))
  rw [← hcount] at hadm ⊢
  obtain ⟨m, i, tr, hrun, hi, hlen, hm⟩ :=
    run_admitted_call (fun x => s.mem.read x) (windowCount s.bufLen).toNat
      (s := acceptCall (clearRecord (takePending [] s))) rfl rfl (Nat.zero_add _) hadm
      fun a => (processedByte_zero _ _ _ a).symm
  refine ⟨_, (coreRun_succ Sys2Proof.core _ s _ haccept).trans hrun, rfl, rfl, rfl, rfl, oddLength_eq s.bufLen,
    congrArg BitVec.toNat hi, rfl, rfl, rfl, rfl, hlen, hm⟩

/-- A call with `n` windows left ends in at most `n + 1` steps: each window step faults, or leaves one window less. -/
theorem run_ends_call (n : Nat) {s : State} (hinv : machineInv s) (hbusy : s.busy = true) (hnil : s.pending = [])
    (hleft : s.idx.toNat + n = s.wNwin.toNat) :
    ∃ (k : Nat) (t : State), k ≤ n + 1 ∧ Sys2Proof.core.run k s = .next t ∧ t.busy = false ∧
      ((t.done = true ∧ t.err = false ∧ t.idx = s.wNwin ∧ k = n + 1) ∨
       (t.done = false ∧ t.err = true ∧ t.errCode = 5#4 ∧ t.idx.toNat + 1 = s.idx.toNat + k)) := by
  induction n generalizing s with
  | zero =>
    obtain ⟨_, herr, _⟩ := record_of_busy hinv hbusy
    have hend : s.idx = s.wNwin := BitVec.eq_of_toNat_eq hleft
    refine ⟨1, finishStep s, le_rfl, ?_, rfl, .inl ⟨rfl, herr, hend, rfl⟩⟩
    rw [run_succ_of_nil 0 hnil, engineStep_of_complete hbusy hend]
    rfl
  | succ n ih =>
    have hlt : s.idx.toNat < s.wNwin.toNat := by omega
    have hinv' := machineInv_windowStep hinv hbusy hlt
    have hrun : ∀ k, Sys2Proof.core.run (k + 1) s = Sys2Proof.core.run k (windowStep s) := by
      intro k
      rw [run_succ_of_nil k hnil, engineStep_of_window_left hbusy hlt]
    rcases windowStep_faults_or_advances s with ⟨m, tr, hw⟩ | ⟨m, tr, hw⟩
    · obtain ⟨hdone, _, _⟩ := record_of_busy hinv hbusy
      rw [hw] at hrun
      exact ⟨1, _, by omega, hrun 0, rfl, .inr ⟨hdone, rfl, rfl, rfl⟩⟩
    · have hidx : (s.idx + 1#31).toNat = s.idx.toNat + 1 := idx_add_one_toNat s hlt
      rw [hw] at hrun hinv'
      obtain ⟨k, t, hle, ht, hidle, hends⟩ := ih hinv' hbusy hnil (by simp only [hidx]; omega)
      refine ⟨k + 1, t, by omega, (hrun k).trans ht, hidle, hends.imp ?_ ?_⟩
      · rintro ⟨hd, he, hi, hk⟩
        exact ⟨hd, he, hi, by omega⟩
      · rintro ⟨hd, he, hc, hi⟩
        simp only [hidx] at hi
        exact ⟨hd, he, hc, by omega⟩

/-- Settles O54: the invariant bounds IDX by W_NWIN, so the windows left are their difference. -/
theorem callEndsInBoundedSteps : Obligations.CallEndsInBoundedSteps := by
  intro s hinv hbusy hnil
  obtain ⟨hle, _⟩ := hinv.2 hbusy
  exact run_ends_call _ hinv hbusy hnil (Nat.add_sub_of_le hle)

end Sys2Proof.Proofs
end

section
/-! FLOOR32 at bit level (`43_gain_multiply.md` R155): below exponent 127 the value lies between −1 and 1, from 150 on it is
integral, and in between the shift of the significand is the division of the value and its result is encoded exactly. -/

namespace Sys2Proof.Proofs

open Sys2Proof.Machine

/-! ## The encoding of an integer -/

/-- Sign and magnitude of an encoded integer of at most 24 bits. -/
theorem encodeInt_fields {n : ℤ} (hn : n ≠ 0) (hbits : n.natAbs < 2 ^ 24) :
    isFinite (encodeInt n) = true ∧ signBit (encodeInt n) = decide (n < 0) ∧ |val (encodeInt n)| = n.natAbs := by
  have ha : n.natAbs ≠ 0 := Int.natAbs_ne_zero.2 hn
  have hk : n.natAbs.log2 < 24 := (Nat.log2_lt ha).2 hbits
  have hlead : 2 ^ n.natAbs.log2 ≤ n.natAbs := Nat.log2_self_le ha
  have hnext : n.natAbs < 2 ^ (n.natAbs.log2 + 1) := Nat.lt_log2_self
  have hpattern : encodeInt n = mkPattern (decide (n < 0)) (127 + n.natAbs.log2)
      (n.natAbs * 2 ^ (23 - n.natAbs.log2) - 2 ^ 23) := rfl
  generalize n.natAbs.log2 = k at *
  generalize n.natAbs = a at *
  have hone : 2 ^ k * 2 ^ (23 - k) = 2 ^ 23 := by rw [← pow_add, Nat.add_sub_of_le (by omega)]
  have hlo : 2 ^ 23 ≤ a * 2 ^ (23 - k) := by
    rw [← hone]
    exact Nat.mul_le_mul_right _ hlead
  have hhi : a * 2 ^ (23 - k) < 2 * 2 ^ 23 := by
    rw [← hone, ← mul_assoc, ← pow_succ']
    exact Nat.mul_lt_mul_of_pos_right hnext (Nat.two_pow_pos _)
  obtain ⟨hfin, habs⟩ := mkPattern_normal (decide (n < 0)) (E := 127 + k) (F := a * 2 ^ (23 - k) - 2 ^ 23) (by omega)
    (by omega) (by omega)
  rw [hpattern]
  refine ⟨hfin, signBit_mkPattern .., ?_⟩
  have hcancel : ((23 - k : ℕ) : ℤ) + (((127 + k : ℕ) : ℤ) - 150) = 0 := by omega
  rw [habs, Nat.add_sub_of_le hlo, Nat.cast_mul, Nat.cast_pow, Nat.cast_ofNat, ← zpow_natCast, mul_assoc,
    ← zpow_add₀ two_ne_zero, hcancel, zpow_zero, mul_one]

/-- An integer of at most 24 bits is encoded as it rounds. -/
theorem rne32_eq_encodeInt {n : ℤ} (hn : n ≠ 0) (hbits : n.natAbs < 2 ^ 24) :
    rne32 (decide (n < 0)) n.natAbs 0 = encodeInt n := by
  obtain ⟨hfin, hsign, habs⟩ := encodeInt_fields hn hbits
  rw [← hsign]
  exact rne32_of_abs_val hfin (by rw [habs, zpow_zero, mul_one])

/-! ## The floor by exponent -/

theorem floor32_of_floorVal {p : Word} (hp : isFinite p = true) (hsig : significand p ≠ 0) :
    floor32 p = if floorVal p = 0 then 0x00000000#32 else rne32 (decide (floorVal p < 0)) (floorVal p).natAbs 0 := by
  rw [floor32, if_pos hp, if_neg hsig]

/-- At a negative scale the floor is a quotient of the signed significand. -/
theorem floorVal_of_scale_neg {p : Word} (h : scale p < 0) :
    floorVal p = signedSignificand p / ((2 ^ (-scale p).toNat : ℕ) : ℤ) := by
  rw [floorVal, if_neg (not_le.2 h)]
  push_cast
  rfl

/-- The floor of a quotient of a negative number is the quotient of its magnitude, rounded up. -/
theorem neg_ediv_eq (m : ℕ) {d : ℕ} (hd : 0 < d) :
    -(m : ℤ) / (d : ℤ) = -(((m / d : ℕ) : ℤ) + if m % d ≠ 0 then 1 else 0) := by
  have hdvd : (d : ℤ) ∣ m ↔ m % d = 0 := Int.natCast_dvd_natCast.trans Nat.dvd_iff_mod_eq_zero
  rw [Int.neg_ediv, Int.sign_eq_one_of_pos (by exact_mod_cast hd), Int.natCast_ediv, neg_add']
  simp only [hdvd, ne_eq, ite_not]

/-- From exponent 150 on the value is an integer, which both floors leave. -/
theorem floor32_of_exp_ge {p : Word} (hp : isFinite p = true) (h : 150 ≤ expField p) : floor32 p = p := by
  obtain ⟨_, hscale⟩ := significand_scale_of_exp_ne_zero (p := p) (by omega)
  exact floor32_of_integral hp (val_of_scale_nonneg (by omega))

/-- Below exponent 127 the magnitude is below 1, so the floor is 0 or −1. -/
theorem floorVal_of_exp_lt {p : Word} (hsig : significand p ≠ 0) (h : expField p < 127) :
    floorVal p = if signBit p = true then -1 else 0 := by
  have hscale : scale p ≤ -24 := by
    unfold scale
    split <;> omega
  have hlt : significand p < 2 ^ (-scale p).toNat :=
    (significand_lt p).trans_le (Nat.pow_le_pow_right two_pos (by omega))
  rw [floorVal_of_scale_neg (by omega), signedSignificand]
  split_ifs
  · rw [neg_ediv_eq _ (Nat.two_pow_pos _), Nat.div_eq_of_lt hlt, Nat.mod_eq_of_lt hlt, if_pos hsig]
    rfl
  · exact_mod_cast Nat.div_eq_of_lt hlt

/-- Between the two exponents the floor is the shifted significand, one further down where a negative one drops bits. -/
theorem floorVal_of_exp_mid {p : Word} (hlo : 127 ≤ expField p) (hhi : expField p < 150) :
    floorVal p =
      if signBit p = true then
        -(((significand p >>> (150 - expField p) : ℕ) : ℤ) +
          if significand p % 2 ^ (150 - expField p) ≠ 0 then 1 else 0)
      else ((significand p >>> (150 - expField p) : ℕ) : ℤ) := by
  obtain ⟨_, hscale⟩ := significand_scale_of_exp_ne_zero (p := p) (by omega)
  have hshift : (-scale p).toNat = 150 - expField p := by omega
  rw [floorVal_of_scale_neg (by omega), hshift, signedSignificand, Nat.shiftRight_eq_div_pow]
  split_ifs
  · rw [neg_ediv_eq _ (Nat.two_pow_pos _), if_pos ‹_›]
  · rw [neg_ediv_eq _ (Nat.two_pow_pos _), if_neg ‹_›]
  · push_cast
    rfl

/-- There the floor is neither 0 nor above 24 bits. -/
theorem floorVal_range_of_exp_mid {p : Word} (hlo : 127 ≤ expField p) (hhi : expField p < 150) :
    floorVal p ≠ 0 ∧ (floorVal p).natAbs < 2 ^ 24 := by
  obtain ⟨hsig, hscale⟩ := significand_scale_of_exp_ne_zero (p := p) (by omega)
  have hshift : 1 ≤ significand p >>> (150 - expField p) := by
    rw [Nat.shiftRight_eq_div_pow, Nat.one_le_div_iff (Nat.two_pow_pos _)]
    exact (Nat.pow_le_pow_right two_pos (by omega : 150 - expField p ≤ 23)).trans (by omega)
  refine ⟨?_, ?_⟩
  · rw [floorVal_of_exp_mid hlo hhi]
    split_ifs <;> omega
  · rw [floorVal, if_neg (by omega)]
    refine lt_of_le_of_lt (Int.natAbs_ediv_le_natAbs _ _) ?_
    rw [natAbs_signedSignificand]
    exact significand_lt p

/-! ## The bit level by exponent -/

theorem floor32Bits_of_exp_ge {p : Word} (h : 150 ≤ expField p) : floor32Bits p = p :=
  if_pos h

theorem floor32Bits_of_exp_lt {p : Word} (h : expField p < 127) :
    floor32Bits p =
      if significand p = 0 then p else if signBit p = true then 0xBF800000#32 else 0x00000000#32 :=
  (if_neg (by omega)).trans (if_pos h)

theorem floor32Bits_of_exp_mid {p : Word} (hlo : 127 ≤ expField p) (hhi : expField p < 150) :
    floor32Bits p = encodeInt (floorVal p) := by
  rw [floorVal_of_exp_mid hlo hhi]
  exact (if_neg (by omega)).trans (if_neg (by omega))

/-- Settles O34, by the three ranges of the exponent that the bit level tells apart. -/
theorem floorByValueIsFloorByBits : Obligations.FloorByValueIsFloorByBits := by
  intro p hp
  rcases lt_or_ge (expField p) 127 with hlow | hlo
  case inl =>
    rw [floor32Bits_of_exp_lt hlow]
    by_cases hzero : significand p = 0
    · rw [if_pos hzero, floor32_of_val_zero ((val_eq_zero_iff p).2 hzero)]
    · rw [if_neg hzero, floor32_of_floorVal hp hzero, floorVal_of_exp_lt hzero hlow]
      cases signBit p <;> decide
  rcases lt_or_ge (expField p) 150 with hhi | hhigh
  case inl =>
    obtain ⟨hne, hbits⟩ := floorVal_range_of_exp_mid hlo hhi
    obtain ⟨hsig, _⟩ := significand_scale_of_exp_ne_zero (p := p) (by omega)
    rw [floor32_of_floorVal hp (by omega), if_neg hne, rne32_eq_encodeInt hne hbits, floor32Bits_of_exp_mid hlo hhi]
  case inr => rw [floor32Bits_of_exp_ge hhigh, floor32_of_exp_ge hp hhigh]

end Sys2Proof.Proofs
end

section
/-! The window function in one line (`44_narrow_pack.md` R176, R181): the floor of the product is integral and narrows to its
residue, and a product that overflows narrows to 0. -/

namespace Sys2Proof.Proofs

open Sys2Proof.Machine

/-- A sample is congruent to the integer it was narrowed from. -/
theorem wrap16_toInt_emod (n : ℤ) : (wrap16 n).toInt % 65536 = n % 65536 := by
  rw [wrap16, BitVec.toInt_ofInt]
  exact Int.bmod_emod

/-- Settles O39: by the product's class. -/
theorem windowIsTheFloorOfTheProductModulo65536 : Obligations.WindowIsTheFloorOfTheProductModulo65536 := by
  intro b0 b1 g hg
  refine ⟨_, rfl, fun hfin => ?finite, fun hover => ?overflow⟩
  case finite =>
    obtain ⟨hq, hval⟩ := floor32_spec hfin
    rw [window, unpack16le_pack16le, windowResult, cvtF32S16w_of_integral hval hq, wrap16_toInt_emod]
  case overflow =>
    rw [window, windowResult, floor32_of_not_finite _ hover, cvtF32S16w_of_not_finite _ hover]
    rfl

/-- Settles O42: the window function evaluated on the two examples of R181. -/
theorem twoPassesAreNotOnePass : Obligations.TwoPassesAreNotOnePass :=
  ⟨⟨_, rfl, by decide, by decide⟩, ⟨_, _, rfl, rfl, by decide, by decide, by decide⟩⟩

end Sys2Proof.Proofs
end

section
/-! Rounding is to nearest, ties to even (`43_gain_multiply.md` R146). Every binary32 value from the binade of `x` on is a count of
its units, among which R146's step picks the nearest; every value below the binade is farther away than the binade's least. -/

namespace Sys2Proof.Proofs

open Sys2Proof.Machine

/-! ## The nearest integer -/

/-- Two integers are at least 1 apart, so of two at the same distance each is half a unit away. -/
theorem RoundsTo.nearest {y : ℚ} {n : ℕ} (h : RoundsTo y n) (k : ℕ) :
    |y - n| ≤ |y - k| ∧ (|y - n| = |y - k| → k ≠ n → Even n) := by
  obtain ⟨hhalf, heven⟩ := h
  by_cases hk : k = n
  · subst hk
    exact ⟨le_rfl, fun _ hne => absurd rfl hne⟩
  have hapart : (1 : ℚ) ≤ |(n : ℚ) - k| := by
    exact_mod_cast Int.one_le_abs (sub_ne_zero.2 (by exact_mod_cast Ne.symm hk : (n : ℤ) ≠ k))
  have htriangle : |(n : ℚ) - k| ≤ |y - n| + |y - k| := by
    rw [abs_sub_comm y n]
    exact abs_sub_le (n : ℚ) y k
  exact ⟨by linarith, fun htie _ => heven (by linarith)⟩

/-! ## The nearest count of units -/

/-- A distance measured in units. -/
theorem abs_units_sub (x : ℚ) (b : ℤ) (k : ℕ) :
    |(k : ℚ) * 2 ^ (b - 23) - x| = 2 ^ (b - 23) * |x * 2 ^ (23 - b) - k| := by
  have hunit : (2 : ℚ) ^ (23 - b) * 2 ^ (b - 23) = 1 := by
    rw [← zpow_add₀ two_ne_zero, sub_add_sub_cancel, sub_self, zpow_zero]
  have hpos : (0 : ℚ) < 2 ^ (b - 23) := zpow_pos two_pos _
  rw [abs_sub_comm _ (k : ℚ), ← abs_of_pos hpos, ← abs_mul, abs_of_pos hpos]
  congr 1
  linear_combination x * hunit

theorem UnitsOf.nearest {x : ℚ} {n : ℕ} (h : UnitsOf x n) (k : ℕ) :
    |(n : ℚ) * 2 ^ (binade x - 23) - x| ≤ |(k : ℚ) * 2 ^ (binade x - 23) - x| ∧
      (|(n : ℚ) * 2 ^ (binade x - 23) - x| = |(k : ℚ) * 2 ^ (binade x - 23) - x| → k ≠ n → Even n) := by
  have hpos : (0 : ℚ) < 2 ^ (binade x - 23) := zpow_pos two_pos _
  obtain ⟨hle, heven⟩ := RoundsTo.nearest h k
  rw [abs_units_sub, abs_units_sub]
  exact ⟨mul_le_mul_of_nonneg_left hle hpos.le, fun htie => heven (mul_left_cancel₀ hpos.ne' htie)⟩

/-- A representable real of the binade `b` or one above is a count of the units of `b`. -/
theorem exists_units_of_binade_le {M : ℕ} {t b : ℤ} (hM : M < 2 ^ 24) (ht : -149 ≤ t) (hb : b ≤ binade (M * 2 ^ t)) :
    ∃ k : ℕ, (M : ℚ) * 2 ^ t = k * 2 ^ (b - 23) := by
  obtain ⟨k, hk⟩ := exists_units_of_representable hM ht
  generalize binade (M * 2 ^ t) = c at hk hb
  refine ⟨k * 2 ^ (c - b).toNat, ?_⟩
  rw [hk, Nat.cast_mul, Nat.cast_pow, Nat.cast_ofNat, ← mul_two_pow_of_nonneg _ (by omega : 0 ≤ c - b), mul_assoc,
    ← zpow_add₀ two_ne_zero]
  congr 2
  ring

/-- The rounded count is nearest among the representable reals, and even where another one is as near. -/
theorem UnitsOf.nearest_representable {x : ℚ} {n M : ℕ} {t : ℤ} (h : UnitsOf x n) (hx : 0 < x) (hM : M < 2 ^ 24)
    (ht : -149 ≤ t) :
    |(n : ℚ) * 2 ^ (binade x - 23) - x| ≤ |(M : ℚ) * 2 ^ t - x| ∧
      (|(n : ℚ) * 2 ^ (binade x - 23) - x| = |(M : ℚ) * 2 ^ t - x| →
        (M : ℚ) * 2 ^ t ≠ n * 2 ^ (binade x - 23) → Even n) := by
  rcases le_or_gt (binade x) (binade (M * 2 ^ t)) with hb | hb
  case inl => -- a count of the same units
    obtain ⟨k, hk⟩ := exists_units_of_binade_le hM ht hb
    obtain ⟨hle, heven⟩ := h.nearest k
    rw [hk]
    exact ⟨hle, fun htie hne => heven htie fun hkn => hne (by rw [hkn])⟩
  case inr => -- below the least real of the binade, which is a count of units and not above `x`
    have hleast := neg_126_le_binade ((M : ℚ) * 2 ^ t)
    have hbelow : (M : ℚ) * 2 ^ t < 2 ^ binade x :=
      (lt_two_pow_binade_succ _).trans_le (zpow_le_zpow_right₀ one_le_two (by omega))
    have habove : (2 : ℚ) ^ binade x ≤ x := two_pow_binade_le hx (by omega)
    obtain ⟨hle, _⟩ := h.nearest (2 ^ 23)
    rw [two_pow_23_units] at hle
    have hlt : |(n : ℚ) * 2 ^ (binade x - 23) - x| < |(M : ℚ) * 2 ^ t - x| := by
      rw [abs_of_nonpos (sub_nonpos.2 habove)] at hle
      rw [abs_of_nonpos (sub_nonpos.2 (hbelow.le.trans habove))]
      linarith
    exact ⟨hlt.le, fun htie => absurd htie hlt.ne⟩

/-! ## The fraction of an even count -/

theorem fracField_packFields_even (sign : Bool) (b : ℤ) {n : ℕ} (h : Even n) :
    fracField (packFields sign b n) % 2 = 0 := by
  have hmod := Nat.even_iff.1 h
  rw [packFields]
  split_ifs <;> rw [fracField_mkPattern] <;> omega

/-- An even count of units is packed into an even fraction. -/
theorem fracField_packUnits_even (sign : Bool) (b : ℤ) {n : ℕ} (h : Even n) :
    fracField (packUnits sign b n) % 2 = 0 := by
  by_cases hcarry : n = 2 ^ 24
  · subst hcarry
    exact fracField_packFields_even sign (b + 1) (by decide)
  · rw [packUnits_of_ne sign b hcarry]
    exact fracField_packFields_even sign b h

theorem fracField_rne32_even (sign : Bool) {m n : ℕ} {e : ℤ} {x : ℚ} (hx : (m : ℚ) * 2 ^ e = x) (hpos : 0 < x)
    (hn : UnitsOf x n) (h : Even n) : fracField (rne32 sign m e) % 2 = 0 := by
  obtain ⟨n', hn', hr⟩ := rne32_eq_packUnits sign hx hpos
  rw [hr]
  exact fracField_packUnits_even sign _ (RoundsTo.unique hn hn' ▸ h)

/-! ## The nearest pattern -/

/-- Two numbers of one sign are as far apart as their magnitudes. -/
theorem abs_sign_mul_sub (sign : Bool) (a x : ℚ) : |signFactor sign * a - signFactor sign * x| = |a - x| := by
  rw [← mul_sub, abs_mul, abs_signFactor, one_mul]

/-- Two numbers are at least as far apart as their magnitudes. -/
theorem abs_abs_val_sub_le (sign : Bool) (q : Word) {x : ℚ} (hx : 0 ≤ x) :
    |(|val q| - x)| ≤ |val q - signFactor sign * x| := by
  have habs : |signFactor sign * x| = x := by rw [abs_mul, abs_signFactor, one_mul, abs_of_nonneg hx]
  have h := abs_abs_sub_abs_le (val q) (signFactor sign * x)
  rwa [habs] at h

/-- A value of the other sign and the same magnitude `a` is not as near to `x` as `a`, unless both are zero. -/
theorem eq_zero_of_opposite_as_near {a x : ℚ} (ha : 0 ≤ a) (hx : 0 < x) (h : |a - x| = |-a - x|) : a = 0 := by
  rw [abs_of_nonpos (by linarith : -a - x ≤ 0)] at h
  rcases abs_cases (a - x) with ⟨habs, _⟩ | ⟨habs, _⟩ <;> linarith

theorem signFactor_not (sign : Bool) : signFactor (!sign) = -signFactor sign := by
  cases sign <;> simp

/-- A pattern of the magnitude of `r` that is as near to `x` with the sign of `r` has the value of `r`. -/
theorem val_eq_of_as_near {q r : Word} {x : ℚ} (hpos : 0 < x) (hmag : |val q| = |val r|)
    (htie : |(|val r| - x)| = |val q - signFactor (signBit r) * x|) : val q = val r := by
  by_cases hsign : signBit q = signBit r
  case pos => rw [val_eq_sign_mul_abs q, val_eq_sign_mul_abs r, hsign, hmag]
  case neg =>
    have hopposite : val q = signFactor (signBit r) * -|val r| := by
      rw [val_eq_sign_mul_abs q, Bool.eq_not.2 hsign, signFactor_not, hmag, neg_mul, mul_neg]
    rw [hopposite, abs_sign_mul_sub] at htie
    have hzero : |val r| = 0 := eq_zero_of_opposite_as_near (abs_nonneg _) hpos htie
    rw [abs_eq_zero.1 (hmag.trans hzero), abs_eq_zero.1 hzero]

/-- No finite pattern is nearer to `x` with its sign than the rounded one, and where another value is as near the fraction is
even. -/
theorem rne32_nearest (sign : Bool) {m : ℕ} {e : ℤ} {x : ℚ} (hx : (m : ℚ) * 2 ^ e = x) (hlt : x < overflowBound)
    (q : Word) :
    |val (rne32 sign m e) - signFactor sign * x| ≤ |val q - signFactor sign * x| ∧
      (|val (rne32 sign m e) - signFactor sign * x| = |val q - signFactor sign * x| →
        val q ≠ val (rne32 sign m e) → fracField (rne32 sign m e) % 2 = 0) := by
  rcases (nonneg_of_eq_mul_two_pow hx).eq_or_lt with rfl | hpos
  case inl => -- a zero
    have hr : rne32 sign m e = mkPattern sign 0 0 := by rw [eq_zero_of_mul_two_pow hx, rne32_zero]
    obtain ⟨_, habs⟩ := mkPattern_subnormal sign (F := 0) (by norm_num)
    have hval : val (mkPattern sign 0 0) = 0 := by simpa using habs
    rw [hr, hval]
    exact ⟨by simp, fun _ _ => by simp⟩
  obtain ⟨_, hsign, n, hn, habs⟩ := rne32_finite sign hx hlt
  obtain ⟨hle, heven⟩ := hn.nearest_representable hpos (significand_lt q) (neg_149_le_scale q)
  rw [← abs_val, ← habs] at hle heven
  have hdist : |val (rne32 sign m e) - signFactor sign * x| = |(|val (rne32 sign m e)| - x)| := by
    conv_lhs => rw [val_eq_sign_mul_abs, hsign]
    exact abs_sign_mul_sub sign _ x
  have hfar := abs_abs_val_sub_le sign q hpos.le
  rw [hdist]
  refine ⟨hle.trans hfar, fun htie hne => fracField_rne32_even sign hx hpos hn ?_⟩
  refine heven (le_antisymm hle (hfar.trans_eq htie.symm)) fun hmag => hne ?_
  exact val_eq_of_as_near hpos hmag (hsign.symm ▸ htie)

/-- Settles O30: the overflow threshold, the sign, and the nearest pattern. -/
theorem roundingIsToNearestTiesToEven : Obligations.RoundingIsToNearestTiesToEven := by
  intro sign m e
  refine ⟨fun hge => ?overflow, fun hlt => ?finite⟩
  case overflow => rw [rne32_overflow sign rfl hge, mkPattern_infinity]
  case finite =>
    obtain ⟨hfin, hsign, _⟩ := rne32_finite sign rfl hlt
    exact ⟨hfin, hsign, fun q _ => rne32_nearest sign rfl hlt q⟩

end Sys2Proof.Proofs
end
